-- ==== Sys2Proof/Word.lean ====
section
/-! DEFINITION. The word types of the block and the two finite index types (spec/00_scope.md R6, R8, R12; spec/10_state.md R21).
Bit 0 is the least significant bit of every word. -/

namespace Sys2Proof

/-- `u8` (R6): the wheel-id field of an operation word. -/
abbrev U8 := BitVec 8

/-- `u32` (R6): a transaction word, a counter value, an interval. `+u32`, `-u32` are `BitVec` addition and subtraction. -/
abbrev U32 := BitVec 32

/-- 64 bits: the position `i64` (two's complement) and the word `enc64` gives (R6, R7). -/
abbrev U64 := BitVec 64

/-- `F` under the instance `B32` (R8): an IEEE 754 binary32 value, held as its interchange word. -/
abbrev F32 := BitVec 32

/-- `D` under the instance `B32` (R8): an IEEE 754 binary64 value, held as its interchange word. -/
abbrev F64 := BitVec 64

/-- `Sign` (R6): the set of -1 and +1. -/
inductive Sign where
  | neg
  | pos
  deriving DecidableEq, Repr

/-- The wheel index `w` (R21): 0 is left, 1 is right; there is no third wheel. -/
inductive Wheel where
  | left
  | right
  deriving DecidableEq, Repr

/-- A per-wheel element exists twice, indexed by the wheel (R21). -/
structure Bank (α : Type) where
  left  : α
  right : α
  deriving DecidableEq, Repr

/-- The element of bank `w`. -/
def Bank.get {α : Type} (b : Bank α) : Wheel → α
  | .left => b.left
  | .right => b.right

/-- Bank `w` replaced; the other bank is kept. -/
def Bank.set {α : Type} (b : Bank α) (w : Wheel) (x : α) : Bank α :=
  match w with
  | .left => { b with left := x }
  | .right => { b with right := x }

/-- The same value in both banks. -/
def Bank.both {α : Type} (x : α) : Bank α := { left := x, right := x }

/-- The wheel that is not `w`. -/
def Wheel.other : Wheel → Wheel
  | .left => .right
  | .right => .left

/-- The sign as an integer. -/
def Sign.toInt : Sign → Int
  | .neg => -1
  | .pos => 1

end Sys2Proof
end

