-- ==== Sys2Proof/Syntax.lean ====
section
/-! DEFINITION. The operations: one constructor of `Instr` per row of spec/opcode_table.json (spec/30_encoding.md R86), with the
fields of `OP` (R83) and the operand words (R84) that the row's operation uses; the request frame (R82) and the two ports that
carry requests (R80). -/

namespace Sys2Proof

/-- The two ports that deliver requests (R80): the event port, without responses, and the command port. -/
inductive Port where
  | evt
  | cmd
  deriving DecidableEq, Repr

/-- A request (R82): four 32-bit words, the operation word and three operand words, in this order. -/
structure Request where
  op : U32
  a  : U32
  b  : U32
  c  : U32
  deriving DecidableEq, Repr

/-- An operation with the fields and operand words it uses (R83, R84). Operand words stand as they arrive: a real operand is
decoded by `dec32` where the operation uses it. -/
inductive Instr where
  /-- `CAP` capture event (R112). -/
  | cap (wid : U8) (ch edge pair : Bool) (cnt : U32)
  /-- `OVF` counter overflow (R113). -/
  | ovf (wid : U8)
  /-- `TICK` control tick (R200). -/
  | tick
  /-- `OTICK` odometry tick (R184). -/
  | otick
  /-- `SETSP` set wheel speed target (R150); `x` is operand word `A`. -/
  | setsp (wid : U8) (x : U32)
  /-- `SETVEL` set body velocity (R167); `v`, `om` are operand words `A`, `B`. -/
  | setvel (v om : U32)
  /-- `GETSPD` filtered speed readback (R143). -/
  | getspd (wid : U8)
  /-- `GETREV` position in revolutions (R115). -/
  | getrev (wid : U8)
  /-- `GETODO` read odometry (R185). -/
  | getodo
  /-- `RSTODO` reset odometry (R186). -/
  | rstodo
  /-- `RDPOS` read position (R114). -/
  | rdpos (wid : U8)
  /-- `KFUPD` filter update (R142); `z` is operand word `A`. -/
  | kfupd (wid : U8) (z : U32)
  /-- `PIDCMP` controller step (R153); `m` is operand word `A`. -/
  | pidcmp (wid : U8) (m : U32)
  /-- `KININV` inverse kinematics (R165). -/
  | kininv (v om : U32)
  /-- `KINFWD` forward kinematics (R166). -/
  | kinfwd (l r : U32)
  /-- `ODOUPD` odometry update (R181); `p0`, `p1`, `dt` are operand words `A`, `B`, `C`. -/
  | odoupd (p0 p1 dt : U32)
  deriving DecidableEq, Repr

/-- The port an operation belongs to (R86, column "port"). -/
def Instr.port : Instr → Port
  | .cap _ _ _ _ _ => .evt
  | .ovf _ => .evt
  | .tick => .evt
  | .otick => .evt
  | .setsp _ _ => .cmd
  | .setvel _ _ => .cmd
  | .getspd _ => .cmd
  | .getrev _ => .cmd
  | .getodo => .cmd
  | .rstodo => .cmd
  | .rdpos _ => .cmd
  | .kfupd _ _ => .cmd
  | .pidcmp _ _ => .cmd
  | .kininv _ _ => .cmd
  | .kinfwd _ _ => .cmd
  | .odoupd _ _ _ => .cmd

end Sys2Proof
end

