-- ==== Sys2Proof/Decode.lean ====
section
/-! DEFINITION. The decoder (spec/30_encoding.md R89), total on any port and any request, and the encoder written from the same
opcode map (R86). Decoding does not depend on any state of the block. -/

namespace Sys2Proof

/-- The rows of the opcode map (R86), by mnemonic. -/
inductive Mnemonic where
  | CAP
  | OVF
  | TICK
  | OTICK
  | SETSP
  | SETVEL
  | GETSPD
  | GETREV
  | GETODO
  | RSTODO
  | RDPOS
  | KFUPD
  | PIDCMP
  | KININV
  | KINFWD
  | ODOUPD
  deriving DecidableEq, Repr

/-- The three formats (R83): no field, wheel, wheel and quadrature bits. -/
inductive Format where
  | N
  | W
  | Q
  deriving DecidableEq, Repr

/-- The rows in the map's order. -/
def Mnemonic.all : List Mnemonic :=
  [.CAP, .OVF, .TICK, .OTICK, .SETSP, .SETVEL, .GETSPD, .GETREV, .GETODO, .RSTODO, .RDPOS, .KFUPD, .PIDCMP, .KININV, .KINFWD,
    .ODOUPD]

/-- Column "opc" of R86: bits 31:24 of the operation word. -/
def Mnemonic.opcode : Mnemonic → U8
  | .CAP => 0x01#8
  | .OVF => 0x02#8
  | .TICK => 0x03#8
  | .OTICK => 0x04#8
  | .SETSP => 0x10#8
  | .SETVEL => 0x11#8
  | .GETSPD => 0x12#8
  | .GETREV => 0x13#8
  | .GETODO => 0x14#8
  | .RSTODO => 0x15#8
  | .RDPOS => 0x20#8
  | .KFUPD => 0x21#8
  | .PIDCMP => 0x22#8
  | .KININV => 0x23#8
  | .KINFWD => 0x24#8
  | .ODOUPD => 0x25#8

/-- Column "format" of R86. -/
def Mnemonic.format : Mnemonic → Format
  | .CAP => .Q
  | .OVF => .W
  | .TICK => .N
  | .OTICK => .N
  | .SETSP => .W
  | .SETVEL => .N
  | .GETSPD => .W
  | .GETREV => .W
  | .GETODO => .N
  | .RSTODO => .N
  | .RDPOS => .W
  | .KFUPD => .W
  | .PIDCMP => .W
  | .KININV => .N
  | .KINFWD => .N
  | .ODOUPD => .N

/-- Column "port" of R86. -/
def Mnemonic.port : Mnemonic → Port
  | .CAP => .evt
  | .OVF => .evt
  | .TICK => .evt
  | .OTICK => .evt
  | .SETSP => .cmd
  | .SETVEL => .cmd
  | .GETSPD => .cmd
  | .GETREV => .cmd
  | .GETODO => .cmd
  | .RSTODO => .cmd
  | .RDPOS => .cmd
  | .KFUPD => .cmd
  | .PIDCMP => .cmd
  | .KININV => .cmd
  | .KINFWD => .cmd
  | .ODOUPD => .cmd

/-- Column "match" of R86: the opcode in bits 31:24, every fixed bit below it zero. -/
def Mnemonic.matchWord (m : Mnemonic) : U32 := m.opcode ++ 0#24

/-- The mask of a format: it leaves free exactly the format's fields (R83, R86). -/
def Format.mask : Format → U32
  | .N => 0xFFFFFFFF#32
  | .W => 0xFF00FFFF#32
  | .Q => 0xFF00FFF8#32

/-- Column "mask" of R86. -/
def Mnemonic.mask (m : Mnemonic) : U32 := m.format.mask

/-- `x & mask = match` (R86). -/
def Mnemonic.selects (m : Mnemonic) (x : U32) : Bool := x &&& m.mask == m.matchWord

/-- Step (1) of R89: the row the operation word selects. -/
def rowOf (x : U32) : Option Mnemonic := Mnemonic.all.find? (fun m => m.selects x)

/-- `wid = x[23:16]` (R83). -/
def widField (x : U32) : U8 := x.extractLsb' 16 8

/-- `ch = x[2]` (R83). -/
def chField (x : U32) : Bool := x.getLsbD 2

/-- `edge = x[1]` (R83). -/
def edgeField (x : U32) : Bool := x.getLsbD 1

/-- `pair = x[0]` (R83). -/
def pairField (x : U32) : Bool := x.getLsbD 0

/-- Step (3) of R89: the fields of the operation word and the operand words (R84) of the row's operation. An operand word the
operation does not use is ignored (R82). -/
def assemble (m : Mnemonic) (r : Request) : Instr :=
  match m with
  | .CAP => .cap (widField r.op) (chField r.op) (edgeField r.op) (pairField r.op) r.a
  | .OVF => .ovf (widField r.op)
  | .TICK => .tick
  | .OTICK => .otick
  | .SETSP => .setsp (widField r.op) r.a
  | .SETVEL => .setvel r.a r.b
  | .GETSPD => .getspd (widField r.op)
  | .GETREV => .getrev (widField r.op)
  | .GETODO => .getodo
  | .RSTODO => .rstodo
  | .RDPOS => .rdpos (widField r.op)
  | .KFUPD => .kfupd (widField r.op) r.a
  | .PIDCMP => .pidcmp (widField r.op) r.a
  | .KININV => .kininv r.a r.b
  | .KINFWD => .kinfwd r.a r.b
  | .ODOUPD => .odoupd r.a r.b r.c

/-- Why an operation word is illegal (R88). -/
inductive Illegal where
  /-- The word selects no row: an unassigned opcode, or a nonzero bit in a field that must be zero. -/
  | noRow (op : U32)
  /-- The word selects a row of the other port. -/
  | wrongPort (row : Mnemonic)
  deriving DecidableEq, Repr

/-- The decoding procedure (R89). -/
def decode (p : Port) (r : Request) : Except Illegal Instr :=
  match rowOf r.op with
  | none => .error (.noRow r.op)
  | some m => if m.port = p then .ok (assemble m r) else .error (.wrongPort m)

/-- The row of an operation. -/
def Instr.row : Instr → Mnemonic
  | .cap _ _ _ _ _ => .CAP
  | .ovf _ => .OVF
  | .tick => .TICK
  | .otick => .OTICK
  | .setsp _ _ => .SETSP
  | .setvel _ _ => .SETVEL
  | .getspd _ => .GETSPD
  | .getrev _ => .GETREV
  | .getodo => .GETODO
  | .rstodo => .RSTODO
  | .rdpos _ => .RDPOS
  | .kfupd _ _ => .KFUPD
  | .pidcmp _ _ => .PIDCMP
  | .kininv _ _ => .KININV
  | .kinfwd _ _ => .KINFWD
  | .odoupd _ _ _ => .ODOUPD

/-- An operation word of format N: the opcode alone. -/
def opWordN (opc : U8) : U32 := opc ++ 0#24

/-- An operation word of format W: opcode and wheel id. -/
def opWordW (opc wid : U8) : U32 := opc ++ wid ++ 0#16

/-- An operation word of format Q: opcode, wheel id and the three quadrature bits. -/
def opWordQ (opc wid : U8) (ch edge pair : Bool) : U32 :=
  opc ++ wid ++ 0#13 ++ BitVec.ofBool ch ++ BitVec.ofBool edge ++ BitVec.ofBool pair

/-- The request of an operation, as R90 writes it: operand words not listed are 0. -/
def encode : Instr → Request
  | .cap wid ch edge pair cnt => { op := opWordQ 0x01#8 wid ch edge pair, a := cnt, b := 0#32, c := 0#32 }
  | .ovf wid => { op := opWordW 0x02#8 wid, a := 0#32, b := 0#32, c := 0#32 }
  | .tick => { op := opWordN 0x03#8, a := 0#32, b := 0#32, c := 0#32 }
  | .otick => { op := opWordN 0x04#8, a := 0#32, b := 0#32, c := 0#32 }
  | .setsp wid x => { op := opWordW 0x10#8 wid, a := x, b := 0#32, c := 0#32 }
  | .setvel v om => { op := opWordN 0x11#8, a := v, b := om, c := 0#32 }
  | .getspd wid => { op := opWordW 0x12#8 wid, a := 0#32, b := 0#32, c := 0#32 }
  | .getrev wid => { op := opWordW 0x13#8 wid, a := 0#32, b := 0#32, c := 0#32 }
  | .getodo => { op := opWordN 0x14#8, a := 0#32, b := 0#32, c := 0#32 }
  | .rstodo => { op := opWordN 0x15#8, a := 0#32, b := 0#32, c := 0#32 }
  | .rdpos wid => { op := opWordW 0x20#8 wid, a := 0#32, b := 0#32, c := 0#32 }
  | .kfupd wid z => { op := opWordW 0x21#8 wid, a := z, b := 0#32, c := 0#32 }
  | .pidcmp wid m => { op := opWordW 0x22#8 wid, a := m, b := 0#32, c := 0#32 }
  | .kininv v om => { op := opWordN 0x23#8, a := v, b := om, c := 0#32 }
  | .kinfwd l r => { op := opWordN 0x24#8, a := l, b := r, c := 0#32 }
  | .odoupd p0 p1 dt => { op := opWordN 0x25#8, a := p0, b := p1, c := dt }

/-- The request whose bits are `w`, numbered from bit 0 of the first word on: `OP` is bits 31:0, `A` is bits 63:32, `B` is bits
95:64, `C` is bits 127:96. Bits from `nbits` on are zero. -/
def requestOfBits (nbits w : Nat) : Request :=
  let v := w % 2 ^ nbits
  { op := BitVec.ofNat 32 v, a := BitVec.ofNat 32 (v / 2 ^ 32), b := BitVec.ofNat 32 (v / 2 ^ 64), c := BitVec.ofNat 32 (v / 2 ^ 96) }

/-- The port whose row the request's operation word selects; the command port for a word that selects none. -/
def portFor (r : Request) : Port :=
  match rowOf r.op with
  | some m => m.port
  | none => .cmd

/-- The operation the decoder reads from a request given by its bits, on the port its row belongs to. -/
def decodeTableWord (nbits w : Nat) : Option Instr :=
  let r := requestOfBits nbits w
  match decode (portFor r) r with
  | .ok i => some i
  | .error _ => none

end Sys2Proof
end

