-- ==== Sys2Proof/Config.lean ====
section
/-! DEFINITION. What the spec leaves to the implementation: the configuration record `CFG` (spec/00_scope.md R4) and the free
values. Every `opaque` constant has no body: nothing is known of it but that its value depends on its arguments alone, so a
statement about the model holds for every implementation the spec admits. -/

namespace Sys2Proof

/-- The configuration registers (R4; spec/10_state.md R34): 21 words, loaded at reset and immutable afterwards. -/
structure Cfg where
  timerPeriod  : U32
  stallMult    : U32
  tickFreq     : F32
  epr          : F32
  wheelRadius  : F32
  trackWidth   : F32
  maxSumError  : F32
  odoEps       : F32
  odoDt        : F32
  kp           : Bank F32
  ki           : Bank F32
  kd           : Bank F32
  p0           : Bank F32
  r            : Bank F32
  q            : Bank F32
  deriving DecidableEq, Repr

/-- The binary32 primitives that can produce a NaN (spec/49_common_laws.md R206 (b)). -/
inductive NaN32Source where
  | fadd
  | fsub
  | fmul
  | fdiv
  deriving DecidableEq, Repr

/-- The binary64 primitives that can produce a NaN (R206 (b)). -/
inductive NaN64Source where
  | dmul
  | ddiv
  deriving DecidableEq, Repr

/-- `CfgRead(i)` (spec/20_memory.md R61): the word the configuration store, outside the block, holds for scalar `i` when the
block is reset for the `session`-th time. All 21 are OPEN parameters (spec/93_implementation_defined.md U10): log entry 1. -/
opaque Config.cfgRead (session : Nat) (i : Nat) : BitVec 32

/-- The cosine of the implementation, before T0 and finiteness are imposed on it (R10, U6): log entry 4. -/
opaque Config.cosRaw : BitVec 32 → BitVec 32

/-- The sine of the implementation, before T0 and finiteness are imposed on it (R10, U6): log entry 4. -/
opaque Config.sinRaw : BitVec 32 → BitVec 32

/-- `TRIG_ERR` (R10, T1): the open bound on the error of `fcos` and `fsin`, as a rational number: log entry 4. -/
opaque Config.trigErr : ℚ

/-- The word of a NaN produced by a binary32 primitive from its two operands: sign and payload are not fixed (U3): log entry 3. -/
opaque Config.nan32 : NaN32Source → BitVec 32 → BitVec 32 → BitVec 32

/-- The word of a NaN produced by a binary64 primitive from its two operands (U3): log entry 3. -/
opaque Config.nan64 : NaN64Source → BitVec 64 → BitVec 64 → BitVec 64

/-- The word of the NaN that `f2d` gives for a NaN (U3): log entry 3. -/
opaque Config.nanWiden : BitVec 32 → BitVec 64

/-- The word of the NaN that `d2f` gives for a NaN (U3): log entry 3. -/
opaque Config.nanNarrow : BitVec 64 → BitVec 32

/-- Which port is served when both have a request waiting (spec/20_memory.md R66, U11): true is the event port. The argument is
the number of operations accepted so far: log entry 6. -/
opaque Config.eventFirst : Nat → Bool

/-- The speed sample a `CAP` leaves when the interval it closes is not well timed (U2): any value. The argument is the number of
operations accepted so far: log entry 7. -/
opaque Config.illTimedSample : Nat → BitVec 32

/-- Under the instance `REAL` (R9), what `dec32` gives for a NaN or infinity pattern, which denotes no real number: log entry 15. -/
opaque Config.realOfNonFinite : BitVec 32 → ℝ

/-- Under the instance `REAL`, the quotient `fdiv` gives of a number by zero: exact real division has none, and neither R7 nor R9
names one (a `dt` of zero, U4): log entry 15. -/
opaque Config.realFdivByZero : ℝ → ℝ

/-- Under the instance `REAL`, the quotient `ddiv` gives of a number by zero, likewise: log entry 15. -/
opaque Config.realDdivByZero : ℝ → ℝ

/-- Under the instance `REAL`, the word `enc32` gives: "result words are not defined" (R9): log entry 15. -/
opaque Config.realEnc32 : ℝ → BitVec 32

/-- Under the instance `REAL`, the word `enc64` gives: "result words are not defined" (R9): log entry 15. -/
opaque Config.realEnc64 : ℝ → BitVec 64

end Sys2Proof
end

