-- ==== Sys2Proof/Machine/Numeric.lean ====
section
/-! DEFINITION. The numerics record `NUM` (spec/00_scope.md R7) and the helper functions written over it (R12). Every real-valued
rule of the block is written once over `Num`, as an abbreviation, so that at an instance it is seen as the primitives it is made
of; the machine applies it at the instance `B32` (Machine/Binary32.lean), the claims about exact arithmetic at the instance `REAL`
(Safety.lean). -/

namespace Sys2Proof.Machine

/-- `NUM` (R7) over a datapath type `F` and a wider type `D`: each result depends on its operands alone. -/
structure Num (F D : Type) where
  fadd : F → F → F
  fsub : F → F → F
  fmul : F → F → F
  fdiv : F → F → F
  fneg : F → F
  fabs : F → F
  flt  : F → F → Bool
  fgt  : F → F → Bool
  fle  : F → F → Bool
  fcos : F → F
  fsin : F → F
  u2f  : U32 → F
  s2f  : Sign → F
  i2d  : U64 → D
  f2d  : F → D
  d2f  : D → F
  dmul : D → D → D
  ddiv : D → D → D
  zero   : F
  one    : F
  two    : F
  negOne : F
  piF    : F
  twoPiF : F
  twoPiD : D
  dec32 : U32 → F
  enc32 : F → U32
  enc64 : D → U64

/-- `sgn` (R12): a raw 0/1 input remapped to -1/+1. -/
def sgn (b : Bool) : Sign := if b then .pos else .neg

/-- The product of two signs (spec/40_encoder_decoder.md R110). -/
def signMul : Sign → Sign → Sign
  | .pos, .pos => .pos
  | .pos, .neg => .neg
  | .neg, .pos => .neg
  | .neg, .neg => .pos

/-- `clampF` (R12): the upper bound is tested first; a value that is not comparable is returned unchanged. -/
abbrev clampF {F D : Type} (N : Num F D) (v lo hi : F) : F :=
  if N.fgt v hi then hi else if N.flt v lo then lo else v

end Sys2Proof.Machine
end

