-- ==== Sys2Proof/Machine/Binary32.lean ====
section
/-! DEFINITION. The instance `B32`, the hardware's numeric format (spec/00_scope.md R8; spec/49_common_laws.md R206): `F` is IEEE
754 binary32 and `D` is IEEE 754 binary64, each value held as its interchange word.

A finite magnitude is read as a natural number of units, a unit being the smallest positive subnormal (2^-149 for binary32,
2^-1074 for binary64). Each primitive forms its exact result as a fraction `n / d` of units, and `roundUnits` rounds that
fraction once, to nearest, ties to even. -/

namespace Sys2Proof.Machine

/-- A binary interchange format (R8): the number of fraction bits and of exponent bits. -/
structure FloatFormat where
  fracBits : Nat
  expBits  : Nat

/-- binary32: 23 fraction bits, 8 exponent bits. -/
def single : FloatFormat := { fracBits := 23, expBits := 8 }

/-- binary64: 52 fraction bits, 11 exponent bits. -/
def double : FloatFormat := { fracBits := 52, expBits := 11 }

/-- The magnitude bits of infinity: exponent all ones, fraction zero. -/
def FloatFormat.infBits (f : FloatFormat) : Nat := (2 ^ f.expBits - 1) * 2 ^ f.fracBits

/-- How many binary places a unit lies below 1: 149 for binary32, 1074 for binary64. -/
def FloatFormat.unitPlaces (f : FloatFormat) : Nat := 2 ^ (f.expBits - 1) - 2 + f.fracBits

/-- The bit above the magnitude: the sign bit of the format's word. -/
def FloatFormat.signBit (f : FloatFormat) : Nat := 2 ^ (f.expBits + f.fracBits)

/-- The number of units of a finite magnitude: the fraction itself for a subnormal, the fraction with its hidden bit shifted by
the exponent otherwise. -/
def unitsOf (f : FloatFormat) (mag : Nat) : Nat :=
  let e := mag / 2 ^ f.fracBits
  let m := mag % 2 ^ f.fracBits
  if e = 0 then m else (m + 2 ^ f.fracBits) * 2 ^ (e - 1)

/-- The integer nearest to `n / d`, ties to even. -/
def divNearestEven (n d : Nat) : Nat :=
  let q := n / d
  let r := n % d
  if 2 * r < d then q else if d < 2 * r then q + 1 else if q % 2 = 0 then q else q + 1

/-- By how many binary places the significand of a magnitude of `q` whole units is shifted from the units. -/
def shiftFor (f : FloatFormat) (q : Nat) : Nat := Nat.log2 q - f.fracBits

/-- The magnitude bits nearest to `n / d` units, ties to even; a magnitude past the largest finite one becomes infinity. -/
def roundUnits (f : FloatFormat) (n d : Nat) : Nat :=
  let k := shiftFor f (n / d)
  min (k * 2 ^ f.fracBits + divNearestEven n (d * 2 ^ k)) f.infBits

/-! binary32: the words of `F`. -/

/-- The sign bit. -/
def sign32 (x : F32) : Bool := x.msb

/-- The 31 bits below the sign. -/
def mag32 (x : F32) : Nat := x.toNat % 2 ^ 31

/-- A NaN: exponent all ones, fraction not zero. -/
def isNaN32 (x : F32) : Bool := decide (single.infBits < mag32 x)

/-- An infinity of either sign. -/
def isInf32 (x : F32) : Bool := decide (mag32 x = single.infBits)

/-- A finite value: neither NaN nor infinity. -/
def isFinite32 (x : F32) : Bool := decide (mag32 x < single.infBits)

/-- The word of a sign and magnitude bits. -/
def pack32 (neg : Bool) (mag : Nat) : F32 := BitVec.ofNat 32 ((if neg then 2 ^ 31 else 0) + mag)

/-- The signed number of units of a finite word. -/
def units32 (x : F32) : Int := if sign32 x then -(unitsOf single (mag32 x) : Int) else (unitsOf single (mag32 x) : Int)

/-- The word nearest to `n / d` units, with the given sign. -/
def round32 (neg : Bool) (n d : Nat) : F32 := pack32 neg (roundUnits single n d)

/-- A NaN made of a free word: the word itself when it is a NaN, so that every NaN is possible (spec/93_implementation_defined.md
U3: any value among NaNs). -/
def asNaN32 (raw : F32) : F32 := if isNaN32 raw then raw else 0x7FC00000#32

/-- `fneg` acts on the sign bit. -/
def fneg32 (x : F32) : F32 := x ^^^ 0x80000000#32

/-- `fabs` acts on the sign bit. -/
def fabs32 (x : F32) : F32 := x &&& 0x7FFFFFFF#32

/-- The correctly rounded sum of two words; `nan` is the word of a NaN result. An exact zero sum is negative only when both
operands are. -/
def sum32 (nan : F32) (x y : F32) : F32 :=
  if isNaN32 x || isNaN32 y then nan
  else if isInf32 x then (if isInf32 y && (sign32 x != sign32 y) then nan else x)
  else if isInf32 y then y
  else
    let s := units32 x + units32 y
    if s = 0 then pack32 (sign32 x && sign32 y) 0 else round32 (decide (s < 0)) s.natAbs 1

/-- `fadd` (R7, R8). -/
@[irreducible] def fadd32 (x y : F32) : F32 := sum32 (asNaN32 (Config.nan32 .fadd x y)) x y

/-- `fsub` (R7, R8). -/
@[irreducible] def fsub32 (x y : F32) : F32 := sum32 (asNaN32 (Config.nan32 .fsub x y)) x (fneg32 y)

/-- `fmul` (R7, R8): the correctly rounded product. -/
@[irreducible] def fmul32 (x y : F32) : F32 :=
  let nan := asNaN32 (Config.nan32 .fmul x y)
  let neg := sign32 x != sign32 y
  if isNaN32 x || isNaN32 y then nan
  else if isInf32 x then (if mag32 y = 0 then nan else pack32 neg single.infBits)
  else if isInf32 y then (if mag32 x = 0 then nan else pack32 neg single.infBits)
  else round32 neg (unitsOf single (mag32 x) * unitsOf single (mag32 y)) (2 ^ single.unitPlaces)

/-- `fdiv` (R7, R8): the correctly rounded quotient; a finite value other than zero divided by zero is an infinity. -/
@[irreducible] def fdiv32 (x y : F32) : F32 :=
  let nan := asNaN32 (Config.nan32 .fdiv x y)
  let neg := sign32 x != sign32 y
  if isNaN32 x || isNaN32 y then nan
  else if isInf32 x then (if isInf32 y then nan else pack32 neg single.infBits)
  else if isInf32 y then pack32 neg 0
  else if mag32 y = 0 then (if mag32 x = 0 then nan else pack32 neg single.infBits)
  else round32 neg (unitsOf single (mag32 x) * 2 ^ single.unitPlaces) (unitsOf single (mag32 y))

/-- The place of a word in the order of values: sign and magnitude as one integer; both zeros are at 0. -/
def key32 (x : F32) : Int := if sign32 x then -(mag32 x : Int) else (mag32 x : Int)

/-- The quiet comparison "less than" (R8): false when an operand is a NaN. -/
def flt32 (x y : F32) : Bool := !isNaN32 x && !isNaN32 y && decide (key32 x < key32 y)

/-- "Greater than" (R8): false when an operand is a NaN. -/
def fgt32 (x y : F32) : Bool := !isNaN32 x && !isNaN32 y && decide (key32 y < key32 x)

/-- "Less or equal" (R8): false when an operand is a NaN. -/
def fle32 (x y : F32) : Bool := !isNaN32 x && !isNaN32 y && decide (key32 x ≤ key32 y)

/-- `u2f` (R7, R8): a `u32` correctly rounded. -/
@[irreducible] def u2f32 (n : U32) : F32 := round32 false (n.toNat * 2 ^ single.unitPlaces) 1

/-- `ZERO` (R8). -/
def zero32 : F32 := 0x00000000#32

/-- `ONE` (R8). -/
def one32 : F32 := 0x3F800000#32

/-- `TWO` (R8). -/
def two32 : F32 := 0x40000000#32

/-- `NEG_ONE` (R8). -/
def negOne32 : F32 := 0xBF800000#32

/-- `PI_F` (R8): the binary32 value nearest to pi. -/
def pi32 : F32 := 0x40490FDB#32

/-- `TWO_PI_F` (R8). -/
def twoPi32 : F32 := 0x40C90FDB#32

/-- `TWO_PI_D` (R8): the binary64 value nearest to 2 pi. -/
def twoPi64 : F64 := 0x401921FB54442D18#64

/-- `s2f` (R7): -1 to `NEG_ONE`, +1 to `ONE`. -/
def s2f32 : Sign → F32
  | .neg => negOne32
  | .pos => one32

/-! binary64: the words of `D`. -/

/-- The sign bit. -/
def sign64 (x : F64) : Bool := x.msb

/-- The 63 bits below the sign. -/
def mag64 (x : F64) : Nat := x.toNat % 2 ^ 63

/-- A NaN: exponent all ones, fraction not zero. -/
def isNaN64 (x : F64) : Bool := decide (double.infBits < mag64 x)

/-- An infinity of either sign. -/
def isInf64 (x : F64) : Bool := decide (mag64 x = double.infBits)

/-- The word of a sign and magnitude bits. -/
def pack64 (neg : Bool) (mag : Nat) : F64 := BitVec.ofNat 64 ((if neg then 2 ^ 63 else 0) + mag)

/-- The word nearest to `n / d` units, with the given sign. -/
def round64 (neg : Bool) (n d : Nat) : F64 := pack64 neg (roundUnits double n d)

/-- A NaN made of a free word (U3). -/
def asNaN64 (raw : F64) : F64 := if isNaN64 raw then raw else 0x7FF8000000000000#64

/-- `dmul` (R7, R8): the correctly rounded product. -/
@[irreducible] def dmul64 (x y : F64) : F64 :=
  let nan := asNaN64 (Config.nan64 .dmul x y)
  let neg := sign64 x != sign64 y
  if isNaN64 x || isNaN64 y then nan
  else if isInf64 x then (if mag64 y = 0 then nan else pack64 neg double.infBits)
  else if isInf64 y then (if mag64 x = 0 then nan else pack64 neg double.infBits)
  else round64 neg (unitsOf double (mag64 x) * unitsOf double (mag64 y)) (2 ^ double.unitPlaces)

/-- `ddiv` (R7, R8): the correctly rounded quotient. -/
@[irreducible] def ddiv64 (x y : F64) : F64 :=
  let nan := asNaN64 (Config.nan64 .ddiv x y)
  let neg := sign64 x != sign64 y
  if isNaN64 x || isNaN64 y then nan
  else if isInf64 x then (if isInf64 y then nan else pack64 neg double.infBits)
  else if isInf64 y then pack64 neg 0
  else if mag64 y = 0 then (if mag64 x = 0 then nan else pack64 neg double.infBits)
  else round64 neg (unitsOf double (mag64 x) * 2 ^ double.unitPlaces) (unitsOf double (mag64 y))

/-- `i2d` (R7, R8): an `i64`, read in two's complement, correctly rounded. -/
@[irreducible] def i2d64 (p : U64) : F64 := round64 (decide (p.toInt < 0)) (p.toInt.natAbs * 2 ^ double.unitPlaces) 1

/-- `f2d` (R7, R8): exact. -/
@[irreducible] def f2d64 (x : F32) : F64 :=
  if isNaN32 x then asNaN64 (Config.nanWiden x)
  else if isInf32 x then pack64 (sign32 x) double.infBits
  else round64 (sign32 x) (unitsOf single (mag32 x) * 2 ^ (double.unitPlaces - single.unitPlaces)) 1

/-- `d2f` (R7, R8): correctly rounded; past the binary32 range an infinity. -/
@[irreducible] def d2f32 (x : F64) : F32 :=
  if isNaN64 x then asNaN32 (Config.nanNarrow x)
  else if isInf64 x then pack32 (sign64 x) single.infBits
  else round32 (sign64 x) (unitsOf double (mag64 x)) (2 ^ (double.unitPlaces - single.unitPlaces))

/-! The trigonometric functions (R10): free but for T0 and for being finite where T1 bounds them. -/

/-- Whether T1 speaks of `t`: a finite `t` with `|t| <= 2 pi`. `TWO_PI_F` is the least binary32 value above 2 pi. -/
def inTrigRange (t : F32) : Bool := flt32 (fabs32 t) twoPi32

/-- A free word made finite; every finite word is possible. -/
def asFinite32 (raw : F32) : F32 := if isFinite32 raw then raw else zero32

/-- `fcos` (R10): `fcos(ZERO) = ONE` by T0; within `|t| <= 2 pi` finite by T1; otherwise free. -/
@[irreducible] def fcos32 (t : F32) : F32 :=
  if t = zero32 then one32
  else if inTrigRange t then asFinite32 (Config.cosRaw t) else Config.cosRaw t

/-- `fsin` (R10): `fsin(ZERO) = ZERO` by T0; within `|t| <= 2 pi` finite by T1; otherwise free. -/
@[irreducible] def fsin32 (t : F32) : F32 :=
  if t = zero32 then zero32
  else if inTrigRange t then asFinite32 (Config.sinRaw t) else Config.sinRaw t

/-! The transport codecs (R206 (c)). -/

/-- `dec32` (R7, R8): bit for bit. -/
def dec32 (word : U32) : F32 := word

/-- `enc32` (R7, R8): bit for bit. -/
def enc32 (v : F32) : U32 := v

/-- `enc64` (R7, R8): bit for bit. -/
def enc64 (v : F64) : U64 := v

/-- The instance `B32` (R8). -/
def b32 : Num F32 F64 :=
  { fadd := fadd32, fsub := fsub32, fmul := fmul32, fdiv := fdiv32, fneg := fneg32, fabs := fabs32,
    flt := flt32, fgt := fgt32, fle := fle32, fcos := fcos32, fsin := fsin32, u2f := u2f32, s2f := s2f32,
    i2d := i2d64, f2d := f2d64, d2f := d2f32, dmul := dmul64, ddiv := ddiv64,
    zero := zero32, one := one32, two := two32, negOne := negOne32, piF := pi32, twoPiF := twoPi32, twoPiD := twoPi64,
    dec32 := dec32, enc32 := enc32, enc64 := enc64 }

end Sys2Proof.Machine
end

