-- ==== Sys2Proof/Machine/Elements.lean ====
section
/-! DEFINITION. The state elements of spec/10_state.md R22 to R34, each group a record over the datapath type `F`, and their values
after reset (R38; spec/70_reset_and_hazards.md R240, R241). -/

namespace Sys2Proof.Machine

/-- `ENC.*[w]` (R22 to R26). -/
structure Encoder where
  /-- Signed position in edge counts, two's complement (R22). -/
  position            : U64
  /-- The capture counter at the last capture, or 0 after a counter overflow (R23). -/
  lastCaptureCounter  : U32
  /-- Timer ticks accumulated by overflows since the last capture (R24). -/
  intervalAccumulator : U32
  /-- The direction of the last capture (R25). -/
  direction           : Sign
  /-- True when the next capture completes an interval (R26). -/
  intervalValid       : Bool
  deriving DecidableEq, Repr

/-- `SPD.*[w]` (R27). -/
structure SpeedSample (F : Type) where
  angularVelocity   : F
  timestampValidity : Bool
  deriving DecidableEq, Repr

/-- `KF.*[w]` (R28). -/
structure Kalman (F : Type) where
  gain         : F
  /-- `KF.P`, estimateVariance. -/
  p            : F
  /-- `KF.R`, measurementVariance. -/
  r            : F
  /-- `KF.Q`, processVariance. -/
  q            : F
  lastEstimate : F
  deriving DecidableEq, Repr

/-- `PID.*[w]` (R29). -/
structure Pid (F : Type) where
  kP        : F
  kI        : F
  kD        : F
  setpoint  : F
  integral  : F
  lastError : F
  deriving DecidableEq, Repr

/-- `POSE.*` (R31). -/
structure Pose (F : Type) where
  x        : F
  y        : F
  theta    : F
  velocity : F
  omega    : F
  deriving DecidableEq, Repr

/-- `ODO.*` (R32). -/
structure Odometry (F : Type) where
  lastLin   : Bank F
  baselined : Bool
  available : Bool
  deriving DecidableEq, Repr

/-- `GEO.*` (R33). -/
structure Geometry (F : Type) where
  r      : F
  w      : F
  kSpeed : F
  deriving DecidableEq, Repr

/-- The encoder at reset (R38): zeros, direction +1, no interval started. -/
def Encoder.atReset : Encoder :=
  { position := 0#64, lastCaptureCounter := 0#32, intervalAccumulator := 0#32, direction := .pos, intervalValid := false }

/-- The speed sample at reset (R38), and the sample a stall forces (spec/41_speed_estimator.md R132). -/
abbrev SpeedSample.stopped {F D : Type} (N : Num F D) : SpeedSample F :=
  { angularVelocity := N.zero, timestampValidity := false }

/-- The filter at reset (R38): the configured variances, gain and estimate zero. -/
abbrev Kalman.atReset {F D : Type} (N : Num F D) (p0 r q : F) : Kalman F :=
  { gain := N.zero, p := p0, r := r, q := q, lastEstimate := N.zero }

/-- The controller at reset (R38): the configured gains, setpoint and history zero. -/
abbrev Pid.atReset {F D : Type} (N : Num F D) (kp ki kd : F) : Pid F :=
  { kP := kp, kI := ki, kD := kd, setpoint := N.zero, integral := N.zero, lastError := N.zero }

/-- The pose at reset (R38) and after `RSTODO` (spec/45_odometry.md R186). -/
abbrev Pose.origin {F D : Type} (N : Num F D) : Pose F :=
  { x := N.zero, y := N.zero, theta := N.zero, velocity := N.zero, omega := N.zero }

/-- The odometry bookkeeping at reset (R38). -/
abbrev Odometry.atReset {F D : Type} (N : Num F D) : Odometry F :=
  { lastLin := Bank.both N.zero, baselined := false, available := false }

/-- `GEO.kSpeed` (R33): the first three factors of the speed formula, in the order R130 multiplies them. -/
abbrev speedConstant {F D : Type} (N : Num F D) (epr tickFreq : F) : F :=
  N.fmul (N.fmul (N.fdiv N.one epr) N.twoPiF) tickFreq

/-- The geometry derived from the configuration (R33, R241). -/
def Geometry.ofCfg (c : Cfg) : Geometry F32 :=
  { r := c.wheelRadius, w := c.trackWidth, kSpeed := speedConstant b32 c.epr c.tickFreq }

/-- The configuration load (R34, R241): the field each of the words 0 to 20 is loaded into. -/
def loadCfg (read : Nat → U32) : Cfg :=
  { timerPeriod := read 0
    stallMult   := read 1
    tickFreq    := dec32 (read 2)
    epr         := dec32 (read 3)
    wheelRadius := dec32 (read 4)
    trackWidth  := dec32 (read 5)
    maxSumError := dec32 (read 6)
    odoEps      := dec32 (read 7)
    odoDt       := dec32 (read 8)
    kp          := { left := dec32 (read 9), right := dec32 (read 12) }
    ki          := { left := dec32 (read 10), right := dec32 (read 13) }
    kd          := { left := dec32 (read 11), right := dec32 (read 14) }
    p0          := { left := dec32 (read 15), right := dec32 (read 18) }
    r           := { left := dec32 (read 16), right := dec32 (read 19) }
    q           := { left := dec32 (read 17), right := dec32 (read 20) } }

/-- `KF.*` of both wheels at reset (R38), from the configuration registers. -/
def kalmanAtReset (c : Cfg) : Bank (Kalman F32) :=
  { left := Kalman.atReset b32 c.p0.left c.r.left c.q.left, right := Kalman.atReset b32 c.p0.right c.r.right c.q.right }

/-- `PID.*` of both wheels at reset (R38), from the configuration registers. -/
def pidAtReset (c : Cfg) : Bank (Pid F32) :=
  { left := Pid.atReset b32 c.kp.left c.ki.left c.kd.left, right := Pid.atReset b32 c.kp.right c.ki.right c.kd.right }

end Sys2Proof.Machine
end

