-- ==== Sys2Proof/Machine/State.lean ====
section
/-! DEFINITION. The state of the block: every element of spec/10_state.md R22 to R34, the ports of spec/30_encoding.md R80 with the
requests that wait on them, and the model's own fields; the reasons a step can stop; the state after reset (R38). -/

namespace Sys2Proof.Machine

/-- A response (R82): the status word and five result words. -/
structure Response where
  s  : U32
  r0 : U32
  r1 : U32
  r2 : U32
  r3 : U32
  r4 : U32
  deriving DecidableEq, Repr

/-- One emission `SetPwmDuty(w, duty)` on the actuator port (R80). -/
structure PwmEmission where
  wheel : Wheel
  duty  : F32
  deriving DecidableEq, Repr

/-- The reasons a step stops. -/
inductive Fault where
  /-- Raised by `step` alone, in a state in which an operation is in progress that never completes (`State.hung`) and no reset is
  requested: the block accepts nothing further (spec/93_implementation_defined.md U5: stuck). No meaning raises it. Safe: no claim
  about a later state can follow from it. -/
  | operationNeverCompletes
  deriving DecidableEq, Repr

/-- The reasons an operation is refused. -/
inductive Refusal where
  /-- Raised by `exec` for an operation without a meaning in this model, by its mnemonic; no operation is left so. Safe. -/
  | notModelled (mnemonic : String)
  deriving DecidableEq, Repr

/-- The state. Up to `cfg` the fields are the spec's elements; `resetPort`, `evtPort` and `cmdPort` are what waits on the inputs,
`response` and `emitted` what the last step put on the outputs, `hung` the operation in progress that U5 speaks of; the last three
fields are the model's own. -/
structure State where
  /-- `ENC.*` (R22 to R26). -/
  enc : Bank Encoder
  /-- `SPD.*` (R27). -/
  spd : Bank (SpeedSample F32)
  /-- `KF.*` (R28). -/
  kf : Bank (Kalman F32)
  /-- `PID.*` (R29). -/
  pid : Bank (Pid F32)
  /-- `PWM.duty` (R30). -/
  duty : Bank F32
  /-- `POSE.*` (R31). -/
  pose : Pose F32
  /-- `ODO.*` (R32). -/
  odo : Odometry F32
  /-- `GEO.*` (R33). -/
  geo : Geometry F32
  /-- `CFG.*`, the 21 configuration registers (R34). -/
  cfg : Cfg
  /-- A reset request waits on the `RST` port (R80, R240). -/
  resetPort : Bool
  /-- The requests the event port is to deliver, the next one first (R80). -/
  evtPort : List Request
  /-- The requests the command port is to deliver, the next one first (R80). -/
  cmdPort : List Request
  /-- The response of the last step (R82); none where it gave none. -/
  response : Option Response
  /-- The emissions of the last step on the actuator port, the first one first (R80, R200). -/
  emitted : List PwmEmission
  /-- An operation is in progress that never completes (spec/45_odometry.md R183, U5); only a hardware reset ends it (R240). -/
  hung : Bool
  /-- The model's own: whether the running interval of a wheel started at a capture that was not well timed (log entry 7). -/
  illTimed : Bank Bool
  /-- The model's own: operations accepted so far, the argument of the free values `Config.eventFirst` and
  `Config.illTimedSample` (log entries 6, 7). -/
  accepted : Nat
  /-- The model's own: how many resets came before the present session, the argument of `Config.cfgRead` (log entry 1). -/
  session : Nat
  deriving DecidableEq, Repr

/-- The state in which the first operation runs (R38, R242), for a configuration store that reads as `read`: R240's step and the
configuration load of R241. No request waits and nothing stands on an output. -/
def State.boot (read : Nat → U32) (accepted session : Nat) : State :=
  { enc := Bank.both Encoder.atReset
    spd := Bank.both (SpeedSample.stopped b32)
    kf := kalmanAtReset (loadCfg read)
    pid := pidAtReset (loadCfg read)
    duty := Bank.both b32.zero
    pose := Pose.origin b32
    odo := Odometry.atReset b32
    geo := Geometry.ofCfg (loadCfg read)
    cfg := loadCfg read
    resetPort := false
    evtPort := []
    cmdPort := []
    response := none
    emitted := []
    hung := false
    illTimed := Bank.both false
    accepted := accepted
    session := session }

/-- The machine right after its first reset. -/
def State.reset : State := State.boot (Config.cfgRead 0) 0 0

end Sys2Proof.Machine
end

