-- ==== Sys2Proof/Machine/Operands.lean ====
section
/-! DEFINITION. Operand assembly (spec/30_encoding.md R84) and result assembly (R85, R88): the wheel id, real operand words, status
codes, 64-bit results. The addressing forms of a processor do not exist here: every operand word is taken whole (R84). -/

namespace Sys2Proof.Machine

/-- `validWheel` (spec/00_scope.md R12). -/
def validWheel (wid : U8) : Bool := wid == 0#8 || wid == 1#8

/-- The wheel a wheel id selects; none for an id out of range (R87). -/
def wheelOf (wid : U8) : Option Wheel :=
  if validWheel wid then (if wid = 0#8 then some .left else some .right) else none

/-- The wheel id of a wheel: 0 left, 1 right (R21). -/
def widOf : Wheel → U8
  | .left => 0#8
  | .right => 1#8

/-- The status codes (R88); code 3 is never returned. -/
inductive Status where
  | ok
  | notAvailable
  | illegal
  deriving DecidableEq, Repr

/-- The status word (R82): the code in bits 1:0, bits 31:2 zero. -/
def Status.word : Status → U32
  | .ok => 0#32
  | .notAvailable => 1#32
  | .illegal => 2#32

/-- Bits 31:0 of a 64-bit result (spec/20_memory.md R63). -/
def lowWord (v : U64) : U32 := v.extractLsb' 0 32

/-- Bits 63:32 of a 64-bit result (R63). -/
def highWord (v : U64) : U32 := v.extractLsb' 32 32

/-- A response without results: the status word and five zero words. -/
def Response.bare (st : Status) : Response := { s := st.word, r0 := 0#32, r1 := 0#32, r2 := 0#32, r3 := 0#32, r4 := 0#32 }

/-- One result word in `R0` (R85). -/
def Response.one (v : U32) : Response := { s := Status.ok.word, r0 := v, r1 := 0#32, r2 := 0#32, r3 := 0#32, r4 := 0#32 }

/-- Two result words in `R0`, `R1` (R85). -/
def Response.two (v0 v1 : U32) : Response := { s := Status.ok.word, r0 := v0, r1 := v1, r2 := 0#32, r3 := 0#32, r4 := 0#32 }

/-- Five result words (R85). -/
def Response.five (v0 v1 v2 v3 v4 : U32) : Response := { s := Status.ok.word, r0 := v0, r1 := v1, r2 := v2, r3 := v3, r4 := v4 }

/-- A 64-bit result, low word first (R63). -/
def Response.wide (v : U64) : Response := Response.two (lowWord v) (highWord v)

end Sys2Proof.Machine
end

