-- ==== Sys2Proof/Machine/Ops.lean ====
section
/-! DEFINITION. The operations over the state that the meanings and the step share: answering on the command port, hardware reset,
and taking a request from a port.

The block raises no exception and takes no trap (spec/60_exceptions.md R210, R220, R221): no register is saved, no mode changes,
nothing returns. What stands in its place is `answerIllegal`, the treatment of an illegal operation word (condition E6, R211). It
has no data memory and no address either (spec/20_memory.md R60, R64): no memory operation exists. -/

namespace Sys2Proof.Machine

/-- A command operation has returned `r`; nothing was emitted on the actuator port. -/
def State.reply (s : State) (r : Response) : State := { s with response := some r, emitted := [] }

/-- An event operation gives no response (spec/30_encoding.md R82); nothing has been emitted yet. -/
def State.silent (s : State) : State := { s with response := none, emitted := [] }

/-- An operation that never completes (spec/93_implementation_defined.md U5): it answers nothing, and what it had written of itself
can be seen by no later operation, since none is accepted. -/
def State.hang (s : State) : State := { s.silent with hung := true }

/-- What happens on an illegal word (R88): no state changes; the command port answers `ILLEGAL` and zero words, the event port drops
the request. -/
def State.answerIllegal (s : State) (p : Port) : State :=
  match p with
  | .evt => s.silent
  | .cmd => s.reply (Response.bare .illegal)

/-- Hardware reset and configuration load (spec/70_reset_and_hazards.md R240, R241): no element survives, waiting requests are
discarded, nothing is emitted, and the 21 words are read anew. Only the model's own counters go on. -/
def State.hardwareReset (s : State) : State := State.boot (Config.cfgRead (s.session + 1)) s.accepted (s.session + 1)

/-- Which port is served next (spec/20_memory.md R66): the one that has a request waiting; when both have, either (U11). -/
def State.nextPort (s : State) : Port :=
  match s.evtPort, s.cmdPort with
  | [], _ => .cmd
  | _ :: _, [] => .evt
  | _ :: _, _ :: _ => if Config.eventFirst s.accepted then .evt else .cmd

/-- The requests waiting on a port, the next one first. -/
def State.waiting (s : State) : Port → List Request
  | .evt => s.evtPort
  | .cmd => s.cmdPort

/-- The first request of port `p` is taken: it leaves the port, and one more operation has been accepted. -/
def State.dropRequest (s : State) (p : Port) : State :=
  match p with
  | .evt => { s with evtPort := s.evtPort.tail, accepted := s.accepted + 1 }
  | .cmd => { s with cmdPort := s.cmdPort.tail, accepted := s.accepted + 1 }

/-- Accepting one operation (R66): the port served, the request at its head, and the state with that request taken. None when no
request waits. -/
def State.accept (s : State) : Option (Port × Request × State) :=
  match s.waiting s.nextPort with
  | [] => none
  | r :: _ => some (s.nextPort, r, s.dropRequest s.nextPort)

/-- The request `r` presented alone: it waits first on the port its row belongs to, the other port has none, no reset waits, and no
operation is in progress. -/
def State.present (s : State) (r : Request) : State :=
  match portFor r with
  | .evt => { s with resetPort := false, hung := false, evtPort := r :: s.evtPort, cmdPort := [] }
  | .cmd => { s with resetPort := false, hung := false, evtPort := [], cmdPort := r :: s.cmdPort }

end Sys2Proof.Machine
end

