-- ==== Sys2Proof/Machine/KalmanFilter.lean ====
section
/-! DEFINITION. The Kalman Filter (spec/42_kalman_filter.md): `KFUPD`, `GETSPD`. -/

namespace Sys2Proof.Machine

/-- `g` of `KalmanUpdate` (R141): `P / (P + R)`. -/
abbrev kalmanGain {F D : Type} (N : Num F D) (k : Kalman F) : F := N.fdiv k.p (N.fadd k.p k.r)

/-- `KalmanUpdate` (R141): the gain from the old `P`, the new `P` from the new gain and the old `P`, the estimate from the new gain
and the old estimate. The function's value is the new `lastEstimate`. -/
abbrev kalmanUpdate {F D : Type} (N : Num F D) (k : Kalman F) (z : F) : Kalman F :=
  { gain := kalmanGain N k
    p := N.fadd (N.fmul (N.fsub N.one (kalmanGain N k)) k.p) k.q
    r := k.r
    q := k.q
    lastEstimate := N.fadd k.lastEstimate (N.fmul (kalmanGain N k) (N.fsub z k.lastEstimate)) }

/-- One filter step of wheel `w` (R141). -/
def State.filterStep (s : State) (w : Wheel) (z : F32) : State :=
  { s with kf := s.kf.set w (kalmanUpdate b32 (s.kf.get w) z) }

/-- `KFUPD` (R142). -/
def execKfupd (wid : U8) (z : U32) (s : State) : Host.Outcome State Fault Refusal :=
  match wheelOf wid with
  | none => .next (s.reply (Response.bare .ok))
  | some w =>
    .next ((s.filterStep w (dec32 z)).reply (Response.one (enc32 (kalmanUpdate b32 (s.kf.get w) (dec32 z)).lastEstimate)))

/-- `GETSPD` (R143). -/
def execGetspd (wid : U8) (s : State) : Host.Outcome State Fault Refusal :=
  match wheelOf wid with
  | none => .next (s.reply (Response.bare .ok))
  | some w => .next (s.reply (Response.one (enc32 (s.kf.get w).lastEstimate)))

end Sys2Proof.Machine
end

