-- ==== Sys2Proof/Machine/PidController.lean ====
section
/-! DEFINITION. The PID Controller (spec/43_pid_controller.md): `SETSP`, `PIDCMP`, and the saturation the control tick applies. -/

namespace Sys2Proof.Machine

/-- `e` of `PidCompute` (R152). -/
abbrev pidError {F D : Type} (N : Num F D) (c : Pid F) (m : F) : F := N.fsub c.setpoint m

/-- `i1` of `PidCompute` (R152): the sum of errors, clamped. -/
abbrev pidIntegral {F D : Type} (N : Num F D) (maxSum : F) (c : Pid F) (m : F) : F :=
  clampF N (N.fadd c.integral (pidError N c m)) (N.fneg maxSum) maxSum

/-- The state `PidCompute` leaves (R152). -/
abbrev pidAfter {F D : Type} (N : Num F D) (maxSum : F) (c : Pid F) (m : F) : Pid F :=
  { c with integral := pidIntegral N maxSum c m, lastError := pidError N c m }

/-- The value of `PidCompute` (R152): not saturated; the derivative uses the last error, the sum uses the clamped integral. -/
abbrev pidOutput {F D : Type} (N : Num F D) (maxSum : F) (c : Pid F) (m : F) : F :=
  N.fadd (N.fadd (N.fmul c.kP (pidError N c m)) (N.fmul c.kI (pidIntegral N maxSum c m)))
    (N.fmul c.kD (N.fsub (pidError N c m) c.lastError))

/-- `Saturate` (R154). -/
abbrev saturate {F D : Type} (N : Num F D) (out : F) : F := clampF N out N.negOne N.one

/-- One controller step of wheel `w` (R152). -/
def State.controlStep (s : State) (w : Wheel) (m : F32) : State :=
  { s with pid := s.pid.set w (pidAfter b32 s.cfg.maxSumError (s.pid.get w) m) }

/-- `PID.setpoint[w] <- x` and nothing else of the controller (R150, R151). -/
def State.setSetpoint (s : State) (w : Wheel) (x : F32) : State :=
  { s with pid := s.pid.set w { s.pid.get w with setpoint := x } }

/-- `SETSP` (R150). -/
def execSetsp (wid : U8) (x : U32) (s : State) : Host.Outcome State Fault Refusal :=
  match wheelOf wid with
  | none => .next (s.reply (Response.bare .ok))
  | some w => .next ((s.setSetpoint w (dec32 x)).reply (Response.bare .ok))

/-- `PIDCMP` (R153). -/
def execPidcmp (wid : U8) (m : U32) (s : State) : Host.Outcome State Fault Refusal :=
  match wheelOf wid with
  | none => .next (s.reply (Response.bare .ok))
  | some w =>
    .next ((s.controlStep w (dec32 m)).reply
      (Response.one (enc32 (pidOutput b32 s.cfg.maxSumError (s.pid.get w) (dec32 m)))))

end Sys2Proof.Machine
end

