-- ==== Sys2Proof/Machine/ControlTick.lean ====
section
/-! DEFINITION. The control tick (spec/46_control_tick.md): `TICK`. -/

namespace Sys2Proof.Machine

/-- `PWM.duty[w] <- d`, which is also the emission of `SetPwmDuty(w, d)` (spec/00_scope.md R11). -/
def State.setDuty (s : State) (w : Wheel) (d : F32) : State :=
  { s with duty := s.duty.set w d, emitted := s.emitted ++ [{ wheel := w, duty := d }] }

/-- The estimate a tick computes for wheel `w` (R200): the current sample is fed whether or not it is new or valid. -/
abbrev tickEstimate (s : State) (w : Wheel) : F32 := (kalmanUpdate b32 (s.kf.get w) (s.spd.get w).angularVelocity).lastEstimate

/-- The duty a tick sends for wheel `w` (R200). -/
abbrev tickDuty (s : State) (w : Wheel) : F32 :=
  saturate b32 (pidOutput b32 s.cfg.maxSumError (s.pid.get w) (tickEstimate s w))

/-- The tick's work for one wheel (R200): filter, controller on the estimate, saturated duty. -/
def State.tickWheel (s : State) (w : Wheel) : State :=
  ((s.filterStep w (s.spd.get w).angularVelocity).controlStep w (tickEstimate s w)).setDuty w (tickDuty s w)

/-- `TICK` (R200): wheel 0 first, then wheel 1. -/
def execTick (s : State) : Host.Outcome State Fault Refusal :=
  .next ((s.silent.tickWheel .left).tickWheel .right)

end Sys2Proof.Machine
end

