-- ==== Sys2Proof/Machine/Flags.lean ====
section
/-! DEFINITION. Every flag computation of the block (spec/10_state.md R35; the data-dependent choices of spec/49_common_laws.md R207):
the direction sign, the interval guard of `CAP`, the stall test of `OVF`, the straight-motion test of the odometry, and the timing
check of a capture (spec/00_scope.md R13). -/

namespace Sys2Proof.Machine

/-- `Direction` (spec/40_encoder_decoder.md R110): the product of the three remapped inputs. -/
def direction (ch edge pair : Bool) : Sign := signMul (signMul (sgn ch) (sgn edge)) (sgn pair)

/-- `el` (R112): the elapsed interval in ticks, modulo 2^32. -/
def elapsed (e : Encoder) (cnt : U32) : U32 := e.intervalAccumulator + (cnt - e.lastCaptureCounter)

/-- The guard of `CAP` (R112; spec/41_speed_estimator.md R131): an interval has been started and is not zero. -/
def completesInterval (e : Encoder) (cnt : U32) : Bool := e.intervalValid && elapsed e cnt != 0#32

/-- R13 at one `CAP`: the captured value is a counter state and does not lie before the last one. -/
def captureWellTimed (timerPeriod last cnt : U32) : Bool :=
  decide (cnt.toNat < timerPeriod.toNat) && decide (last.toNat ≤ cnt.toNat)

/-- `acc1` of `OVF` (R113): the interval accumulated up to this overflow, modulo 2^32. -/
def overflowSum (timerPeriod : U32) (e : Encoder) : U32 := e.intervalAccumulator + (timerPeriod - e.lastCaptureCounter)

/-- The stall test of `OVF` (R113): strict, and over the exact product (spec/49_common_laws.md R205). -/
def stalls (timerPeriod stallMult : U32) (e : Encoder) : Bool :=
  decide (stallMult.toNat * timerPeriod.toNat < (overflowSum timerPeriod e).toNat)

/-- The straight-motion test (spec/45_odometry.md R181): strict; false for a heading change that is not comparable. -/
abbrev goesStraight {F D : Type} (N : Num F D) (eps dTh : F) : Bool := N.flt (N.fabs dTh) eps

end Sys2Proof.Machine
end

