-- ==== Sys2Proof/Machine/SpeedEstimator.lean ====
section
/-! DEFINITION. The Speed Estimator (spec/41_speed_estimator.md): the sample function of `CAP`. -/

namespace Sys2Proof.Machine

/-- `SpeedFromInterval` (R130): `kSpeed` is the product of the formula's first three factors (R33). The caller guards `el ≠ 0`
(R131). -/
abbrev speedFromInterval {F D : Type} (N : Num F D) (kSpeed : F) (el : U32) (d : Sign) : F :=
  N.fmul (N.fdiv kSpeed (N.u2f el)) (N.s2f d)

end Sys2Proof.Machine
end

