-- ==== Sys2Proof/Machine/EncoderDecoder.lean ====
section
/-! DEFINITION. The Encoder Decoder (spec/40_encoder_decoder.md): `CAP`, `OVF`, `RDPOS`, `GETREV`. -/

namespace Sys2Proof.Machine

/-- What a capture leaves in `ENC.*[w]` (R112): one step of the position, the direction, and a restarted interval. The position
wraps modulo 2^64 (R121). -/
def captureEncoder (e : Encoder) (d : Sign) (cnt : U32) : Encoder :=
  { position := e.position + BitVec.ofInt 64 d.toInt
    lastCaptureCounter := cnt
    intervalAccumulator := 0#32
    direction := d
    intervalValid := true }

/-- What a capture leaves in `SPD.*[w]` (R112): the speed of the completed interval, or the old sample when the guard fails. -/
def captureSample {F : Type} (completes : Bool) (speed : F) (old : SpeedSample F) : SpeedSample F :=
  if completes then { angularVelocity := speed, timestampValidity := true } else old

/-- The speed a completed interval gives: `SpeedFromInterval` (R130) when both captures that bound it are well timed, any value
when one is not (spec/93_implementation_defined.md U2; log entry 7). -/
def captureSpeed (s : State) (w : Wheel) (d : Sign) (cnt : U32) : F32 :=
  if captureWellTimed s.cfg.timerPeriod (s.enc.get w).lastCaptureCounter cnt && !s.illTimed.get w then
    speedFromInterval b32 s.geo.kSpeed (elapsed (s.enc.get w) cnt) d
  else Config.illTimedSample s.accepted

/-- A capture event of wheel `w` (R112). -/
def State.capture (s : State) (w : Wheel) (d : Sign) (cnt : U32) : State :=
  { s with
    enc := s.enc.set w (captureEncoder (s.enc.get w) d cnt)
    spd := s.spd.set w (captureSample (completesInterval (s.enc.get w) cnt) (captureSpeed s w d cnt) (s.spd.get w))
    illTimed := s.illTimed.set w (!captureWellTimed s.cfg.timerPeriod (s.enc.get w).lastCaptureCounter cnt) }

/-- What an overflow leaves in `ENC.*[w]` (R113): the accumulated interval, rolled back by one period on a stall. -/
def overflowEncoder (timerPeriod stallMult : U32) (e : Encoder) : Encoder :=
  if stalls timerPeriod stallMult e then
    { e with lastCaptureCounter := 0#32, intervalAccumulator := overflowSum timerPeriod e - timerPeriod, intervalValid := false }
  else { e with lastCaptureCounter := 0#32, intervalAccumulator := overflowSum timerPeriod e }

/-- What an overflow leaves in `SPD.*[w]` (R113; spec/41_speed_estimator.md R132): exactly zero on a stall. -/
abbrev overflowSample {F D : Type} (N : Num F D) (stalled : Bool) (old : SpeedSample F) : SpeedSample F :=
  if stalled then SpeedSample.stopped N else old

/-- A counter overflow of wheel `w` (R113). -/
def State.overflow (s : State) (w : Wheel) : State :=
  { s with
    enc := s.enc.set w (overflowEncoder s.cfg.timerPeriod s.cfg.stallMult (s.enc.get w))
    spd := s.spd.set w
      (overflowSample b32 (stalls s.cfg.timerPeriod s.cfg.stallMult (s.enc.get w)) (s.spd.get w)) }

/-- The revolutions of a position (R115): the edge count divided by `EPR`, in `D`. -/
abbrev revolutions {F D : Type} (N : Num F D) (epr : F) (position : U64) : D := N.ddiv (N.i2d position) (N.f2d epr)

/-- `CAP` (R112). -/
def execCap (wid : U8) (ch edge pair : Bool) (cnt : U32) (s : State) : Host.Outcome State Fault Refusal :=
  match wheelOf wid with
  | none => .next s.silent
  | some w => .next (s.capture w (direction ch edge pair) cnt).silent

/-- `OVF` (R113). -/
def execOvf (wid : U8) (s : State) : Host.Outcome State Fault Refusal :=
  match wheelOf wid with
  | none => .next s.silent
  | some w => .next (s.overflow w).silent

/-- `RDPOS` (R114). -/
def execRdpos (wid : U8) (s : State) : Host.Outcome State Fault Refusal :=
  match wheelOf wid with
  | none => .next (s.reply (Response.bare .ok))
  | some w => .next (s.reply (Response.wide (s.enc.get w).position))

/-- `GETREV` (R115). -/
def execGetrev (wid : U8) (s : State) : Host.Outcome State Fault Refusal :=
  match wheelOf wid with
  | none => .next (s.reply (Response.bare .ok))
  | some w => .next (s.reply (Response.wide (enc64 (revolutions b32 s.cfg.epr (s.enc.get w).position))))

end Sys2Proof.Machine
end

