-- ==== Sys2Proof/Machine/Kinematics.lean ====
section
/-! DEFINITION. Kinematics (spec/44_kinematics.md): `KININV`, `KINFWD`, `SETVEL`. -/

namespace Sys2Proof.Machine

/-- `KinInverse` (R165): the left and the right wheel speed of a body velocity. -/
abbrev kinInverse {F D : Type} (N : Num F D) (g : Geometry F) (v om : F) : F × F :=
  (N.fdiv (N.fsub v (N.fmul (N.fdiv g.w N.two) om)) g.r, N.fdiv (N.fadd v (N.fmul (N.fdiv g.w N.two) om)) g.r)

/-- `KinForward` (R166): the body velocity and turn rate of two wheel speeds. -/
abbrev kinForward {F D : Type} (N : Num F D) (g : Geometry F) (l r : F) : F × F :=
  (N.fdiv (N.fadd (N.fmul l g.r) (N.fmul r g.r)) N.two, N.fdiv (N.fsub (N.fmul r g.r) (N.fmul l g.r)) g.w)

/-- `KININV` (R165). -/
def execKininv (v om : U32) (s : State) : Host.Outcome State Fault Refusal :=
  .next (s.reply (Response.two (enc32 (kinInverse b32 s.geo (dec32 v) (dec32 om)).1)
    (enc32 (kinInverse b32 s.geo (dec32 v) (dec32 om)).2)))

/-- `KINFWD` (R166). -/
def execKinfwd (l r : U32) (s : State) : Host.Outcome State Fault Refusal :=
  .next (s.reply (Response.two (enc32 (kinForward b32 s.geo (dec32 l) (dec32 r)).1)
    (enc32 (kinForward b32 s.geo (dec32 l) (dec32 r)).2)))

/-- `SETVEL` (R167): both setpoints in one step (spec/20_memory.md R71). -/
def execSetvel (v om : U32) (s : State) : Host.Outcome State Fault Refusal :=
  .next (((s.setSetpoint .left (kinInverse b32 s.geo (dec32 v) (dec32 om)).1).setSetpoint .right
    (kinInverse b32 s.geo (dec32 v) (dec32 om)).2).reply (Response.bare .ok))

end Sys2Proof.Machine
end

