-- ==== Sys2Proof/Machine/OdometryIntegrator.lean ====
section
/-! DEFINITION. The Odometry Integrator (spec/45_odometry.md): `ODOUPD`, `OTICK`, `GETODO`, `RSTODO`. -/

namespace Sys2Proof.Machine

/-- The first loop of `Normalize` (R183): while `t > PI_F`, subtract `TWO_PI_F`. None when a subtraction does not make `t` smaller:
it then returns `t` itself and the loop does not end (spec/70_reset_and_hazards.md R252). `fuel` bounds the recursion only. -/
def normalizeDown {F D : Type} (N : Num F D) : Nat → F → Option F
  | 0, t => if N.fgt t N.piF then none else some t
  | fuel + 1, t =>
    if N.fgt t N.piF then
      (if N.flt (N.fsub t N.twoPiF) t then normalizeDown N fuel (N.fsub t N.twoPiF) else none)
    else some t

/-- The second loop of `Normalize` (R183): while `t <= -PI_F`, add `TWO_PI_F`. -/
def normalizeUp {F D : Type} (N : Num F D) : Nat → F → Option F
  | 0, t => if N.fle t (N.fneg N.piF) then none else some t
  | fuel + 1, t =>
    if N.fle t (N.fneg N.piF) then
      (if N.flt t (N.fadd t N.twoPiF) then normalizeUp N fuel (N.fadd t N.twoPiF) else none)
    else some t

/-- `Normalize` (R183); none when one of its loops does not end. -/
@[irreducible] def normalize {F D : Type} (N : Num F D) (fuel : Nat) (t : F) : Option F :=
  match normalizeDown N fuel t with
  | none => none
  | some t' => normalizeUp N fuel t'

/-- More iterations than a loop that ends can take under `B32`: each one moves `t` to another of fewer than 2^31 words. -/
def normalizeFuel : Nat := 2147483648

/-- `l0`, `l1` of `OdoUpdate` (R181): the linear distances of both wheels. -/
abbrev linearDistances {F D : Type} (N : Num F D) (g : Geometry F) (p0 p1 : F) : Bank F :=
  { left := N.fmul p0 g.r, right := N.fmul p1 g.r }

/-- `dL`, `dR` of `OdoUpdate` (R181): a distance against its reference; zero while the references are not baselined (R187). -/
abbrev wheelDelta {F D : Type} (N : Num F D) (baselined : Bool) (lin lastLin : F) : F :=
  if baselined then N.fsub lin lastLin else N.zero

/-- `dS` of `OdoUpdate` (R181). -/
abbrev travel {F D : Type} (N : Num F D) (o : Odometry F) (lin : Bank F) : F :=
  N.fdiv (N.fadd (wheelDelta N o.baselined lin.left o.lastLin.left) (wheelDelta N o.baselined lin.right o.lastLin.right)) N.two

/-- `dTh` of `OdoUpdate` (R181): right minus left. -/
abbrev headingChange {F D : Type} (N : Num F D) (g : Geometry F) (o : Odometry F) (lin : Bank F) : F :=
  N.fdiv (N.fsub (wheelDelta N o.baselined lin.right o.lastLin.right) (wheelDelta N o.baselined lin.left o.lastLin.left)) g.w

/-- The direction of travel (R181): the heading before the update in the straight branch, the midpoint heading in the arc
branch. -/
abbrev travelHeading {F D : Type} (N : Num F D) (eps th0 dTh : F) : F :=
  if goesStraight N eps dTh then th0 else N.fadd th0 (N.fdiv dTh N.two)

/-- The heading after the update (R181): unchanged in the straight branch, normalised in the arc branch. -/
abbrev headingAfter {F D : Type} (N : Num F D) (fuel : Nat) (eps th0 dTh : F) : Option F :=
  if goesStraight N eps dTh then some th0 else normalize N fuel (N.fadd th0 dTh)

/-- The pose after a travel `dS` and a heading change `dTh` in `dt` seconds that ends at heading `th1` (R181). -/
abbrev poseAfter {F D : Type} (N : Num F D) (eps : F) (p : Pose F) (dS dTh dt th1 : F) : Pose F :=
  { x := N.fadd p.x (N.fmul dS (N.fcos (travelHeading N eps p.theta dTh)))
    y := N.fadd p.y (N.fmul dS (N.fsin (travelHeading N eps p.theta dTh)))
    theta := th1
    velocity := N.fdiv dS dt
    omega := N.fdiv dTh dt }

/-- `ODO.*` after an update (R181): the references are the current distances. -/
def odometryAfter {F : Type} (lin : Bank F) : Odometry F := { lastLin := lin, baselined := true, available := true }

/-- `OdoUpdate` (R181) on the two records; none when `Normalize` does not end. -/
def odoUpdate {F D : Type} (N : Num F D) (fuel : Nat) (g : Geometry F) (eps : F) (p : Pose F) (o : Odometry F) (p0 p1 dt : F) :
    Option (Pose F × Odometry F) :=
  match headingAfter N fuel eps p.theta (headingChange N g o (linearDistances N g p0 p1)) with
  | none => none
  | some th1 =>
    some (poseAfter N eps p (travel N o (linearDistances N g p0 p1)) (headingChange N g o (linearDistances N g p0 p1)) dt th1,
      odometryAfter (linearDistances N g p0 p1))

/-- `OdoUpdate` (R181) on the state. -/
def State.odoUpdate (s : State) (p0 p1 dt : F32) : Option State :=
  match Sys2Proof.Machine.odoUpdate b32 normalizeFuel s.geo s.cfg.odoEps s.pose s.odo p0 p1 dt with
  | none => none
  | some po => some { s with pose := po.1, odo := po.2 }

/-- `rad[w]` of `OTICK` (R184): revolutions in `D`, times two pi in `D`, narrowed once to `F`. -/
abbrev wheelAngle {F D : Type} (N : Num F D) (epr : F) (position : U64) : F :=
  N.d2f (N.dmul (revolutions N epr position) N.twoPiD)

/-- `ODOUPD` (R181). When `Normalize` does not end, the operation never completes (U5). -/
def execOdoupd (p0 p1 dt : U32) (s : State) : Host.Outcome State Fault Refusal :=
  .next (match s.odoUpdate (dec32 p0) (dec32 p1) (dec32 dt) with
    | none => s.hang
    | some t => t.reply (Response.bare .ok))

/-- `OTICK` (R184): both positions are read at one instant. When `Normalize` does not end, the operation never completes (U5). -/
def execOtick (s : State) : Host.Outcome State Fault Refusal :=
  .next (match s.odoUpdate (wheelAngle b32 s.cfg.epr s.enc.left.position)
      (wheelAngle b32 s.cfg.epr s.enc.right.position) s.cfg.odoDt with
    | none => s.hang
    | some t => t.silent)

/-- The five result words of `GETODO` (R185), one snapshot of the pose. -/
def poseResponse (p : Pose F32) : Response :=
  Response.five (enc32 p.x) (enc32 p.y) (enc32 p.theta) (enc32 p.velocity) (enc32 p.omega)

/-- `GETODO` (R185). -/
def execGetodo (s : State) : Host.Outcome State Fault Refusal :=
  if s.odo.available then .next (s.reply (poseResponse s.pose)) else .next (s.reply (Response.bare .notAvailable))

/-- `RSTODO` (R186): the pose and the references zeroed, the baseline flag cleared; `ODO.available` is kept. -/
def execRstodo (s : State) : Host.Outcome State Fault Refusal :=
  .next ({ s with
    pose := Pose.origin b32
    odo := { s.odo with lastLin := Bank.both b32.zero, baselined := false } }.reply (Response.bare .ok))

end Sys2Proof.Machine
end

