-- ==== Sys2Proof/Machine/Dispatch.lean ====
section
/-! DEFINITION. The dispatch: one arm per operation of the opcode map (spec/30_encoding.md R86). -/

namespace Sys2Proof.Machine

def exec (i : Instr) (s : State) : Host.Outcome State Fault Refusal :=
  match i with
  | .cap wid ch edge pair cnt => Sys2Proof.Machine.execCap wid ch edge pair cnt s
  | .ovf wid => Sys2Proof.Machine.execOvf wid s
  | .tick => Sys2Proof.Machine.execTick s
  | .otick => Sys2Proof.Machine.execOtick s
  | .setsp wid x => Sys2Proof.Machine.execSetsp wid x s
  | .setvel v om => Sys2Proof.Machine.execSetvel v om s
  | .getspd wid => Sys2Proof.Machine.execGetspd wid s
  | .getrev wid => Sys2Proof.Machine.execGetrev wid s
  | .getodo => Sys2Proof.Machine.execGetodo s
  | .rstodo => Sys2Proof.Machine.execRstodo s
  | .rdpos wid => Sys2Proof.Machine.execRdpos wid s
  | .kfupd wid z => Sys2Proof.Machine.execKfupd wid z s
  | .pidcmp wid m => Sys2Proof.Machine.execPidcmp wid m s
  | .kininv v om => Sys2Proof.Machine.execKininv v om s
  | .kinfwd l r => Sys2Proof.Machine.execKinfwd l r s
  | .odoupd p0 p1 dt => Sys2Proof.Machine.execOdoupd p0 p1 dt s

end Sys2Proof.Machine
end

