-- ==== Sys2Proof/Machine/Step.lean ====
section
/-! DEFINITION. The step: a waiting reset is carried out (spec/70_reset_and_hazards.md R240, R241); a block with an operation that
never completes makes no other step (U5); otherwise one operation is accepted (spec/20_memory.md R66), decoded
(spec/30_encoding.md R89) and carried out; when none waits, the block waits. -/

namespace Sys2Proof.Machine

/-- One step of the block. -/
def step (s : State) : Host.Outcome State Fault Refusal :=
  if s.resetPort then .next s.hardwareReset
  else if s.hung then .fault .operationNeverCompletes
  else
    match s.accept with
    | none => .next s.silent
    | some (p, r, t) =>
      match decode p r with
      | .ok i => exec i t
      | .error _ => .next (t.answerIllegal p)

/-- `s` with the request of bits `w` presented, so that the next step accepts it and carries it out. -/
def State.withFetchWord (s : State) (nbits w : Nat) : State := s.present (requestOfBits nbits w)

end Sys2Proof.Machine
end

