-- ==== Sys2Proof/WellFormed.lean ====
section
/-! DEFINITION. The checks the spec states on what reaches the block: a transaction's port (spec/30_encoding.md R88) and the
configuration constraints (spec/00_scope.md R5). The types of `Syntax.lean` already hold every other bound of a request (an 8-bit
wheel id, one-bit quadrature inputs, 32-bit operand words); the timing of a capture event (R13) is a check of the operation
itself and stands in Machine/Flags.lean. -/

namespace Sys2Proof

/-- A transaction is well formed on port `p` when its operation belongs to `p` (R88: on the other port it is illegal). -/
def Instr.wellFormedOn (p : Port) (i : Instr) : Bool := decide (i.port = p)

/-- A binary32 word that is neither an infinity nor a NaN: its exponent field is not all ones. -/
def finiteWord (x : F32) : Bool := decide (x &&& 0x7F800000#32 ≠ 0x7F800000#32)

/-- A finite binary32 word of a value greater than zero. -/
def positiveWord (x : F32) : Bool := finiteWord x && decide (0 < x.toNat) && decide (x.toNat < 0x80000000)

/-- A finite binary32 word of a value that is zero (of either sign) or greater. -/
def nonNegWord (x : F32) : Bool := finiteWord x && (decide (x.toNat < 0x80000000) || decide (x = 0x80000000#32))

/-- R5 (a): `1 <= TIMER_PERIOD`. -/
def Cfg.periodOk (c : Cfg) : Bool := decide (1 ≤ c.timerPeriod.toNat)

/-- R5 (b): `1 <= STALL_MULT`. -/
def Cfg.stallMultOk (c : Cfg) : Bool := decide (1 ≤ c.stallMult.toNat)

/-- R5 (c): `(STALL_MULT + 1) * TIMER_PERIOD <= 2^32 - 1`, over the integers. -/
def Cfg.intervalOk (c : Cfg) : Bool := decide ((c.stallMult.toNat + 1) * c.timerPeriod.toNat ≤ 2 ^ 32 - 1)

/-- R5 (d): the divisors are finite and greater than zero. -/
def Cfg.divisorsOk (c : Cfg) : Bool :=
  positiveWord c.tickFreq && positiveWord c.epr && positiveWord c.wheelRadius && positiveWord c.trackWidth
    && positiveWord c.odoDt

/-- R5 (e): `MAX_SUM_ERROR` is finite and not negative. -/
def Cfg.maxSumErrorOk (c : Cfg) : Bool := nonNegWord c.maxSumError

/-- R5 (f): `ODO_EPS` is finite and greater than zero. -/
def Cfg.odoEpsOk (c : Cfg) : Bool := positiveWord c.odoEps

/-- R5 (g) for one wheel: `R > 0`, `P0 >= 0`, `Q >= 0`, all finite. -/
def Cfg.variancesOk (c : Cfg) (w : Wheel) : Bool :=
  positiveWord (c.r.get w) && nonNegWord (c.p0.get w) && nonNegWord (c.q.get w)

/-- R5 (h) for one wheel: the gains are finite. -/
def Cfg.gainsOk (c : Cfg) (w : Wheel) : Bool :=
  finiteWord (c.kp.get w) && finiteWord (c.ki.get w) && finiteWord (c.kd.get w)

/-- R5: the constraints under which every rule of the spec has a meaning. The block does not check them (R241); the model
computes with the words as they are (U1). -/
def Cfg.wellFormed (c : Cfg) : Bool :=
  c.periodOk && c.stallMultOk && c.intervalOk && c.divisorsOk && c.maxSumErrorOk && c.odoEpsOk
    && c.variancesOk .left && c.variancesOk .right && c.gainsOk .left && c.gainsOk .right

end Sys2Proof
end

