-- ==== Sys2Proof/Safety.lean ====
section
/-! DEFINITION. The terms the claims use: the value of a word, the checking instance `REAL` (spec/00_scope.md R9), the accuracy
property T1 (R10), runs of operations, the frame of each operation (spec/10_state.md R39), and the invariants. -/

namespace Sys2Proof.Machine

/-- The value of a finite binary32 word. -/
def value32 (x : F32) : ℚ := (units32 x : ℚ) / 2 ^ 149

/-- The signed number of units of a finite binary64 word. -/
def units64 (x : F64) : Int := if sign64 x then -(unitsOf double (mag64 x) : Int) else (unitsOf double (mag64 x) : Int)

/-- The value of a finite binary64 word. -/
def value64 (x : F64) : ℚ := (units64 x : ℚ) / 2 ^ 1074

/-- A finite binary64 word. -/
def isFinite64 (x : F64) : Bool := decide (mag64 x < double.infBits)

/-- `r` is the binary32 word of the exact value `v` rounded once, to nearest, ties to even (R8; spec/49_common_laws.md R206 (b)).
Below the overflow threshold, half a spacing above the largest finite value, it is finite, no finite word is nearer, and when a
word of another value is as near its last bit is even; from the threshold on it is an infinity. Its sign is that of `v`. -/
def RoundsTo32 (v : ℚ) (r : F32) : Prop :=
  (if |v| < 2 ^ 128 - 2 ^ 103 then
    isFinite32 r = true ∧ ∀ z : F32, isFinite32 z = true →
      |value32 r - v| ≤ |value32 z - v| ∧ (|value32 z - v| = |value32 r - v| → value32 z ≠ value32 r → r.getLsbD 0 = false)
  else isInf32 r = true) ∧
  (v ≠ 0 → sign32 r = decide (v < 0))

/-- The same for binary64. -/
def RoundsTo64 (v : ℚ) (r : F64) : Prop :=
  (if |v| < 2 ^ 1024 - 2 ^ 970 then
    isFinite64 r = true ∧ ∀ z : F64, isFinite64 z = true →
      |value64 r - v| ≤ |value64 z - v| ∧ (|value64 z - v| = |value64 r - v| → value64 z ≠ value64 r → r.getLsbD 0 = false)
  else isInf64 r = true) ∧
  (v ≠ 0 → sign64 r = decide (v < 0))

/-- `dec32` under `REAL` (R9): the real number the word's binary32 pattern denotes; free for a pattern that denotes none. -/
noncomputable def realOfWord (word : U32) : ℝ :=
  if isFinite32 word = true then ((value32 word : ℚ) : ℝ) else Config.realOfNonFinite word

/-- A real quotient; `atZero` is what stands for the quotient of the dividend by zero. -/
noncomputable def realQuotient (atZero : ℝ → ℝ) (x y : ℝ) : ℝ := if y = 0 then atZero x else x / y

/-- The instance `REAL` (R9): every primitive is the exact real operation, `dec32` reads an operand word as a real number, and the
result words are free. The spec names no quotient by zero; that `fdiv` and `ddiv` give a free value there is the model's choice
(DESIGN CHOICE, log entry 15). A checking instance, not hardware; no state holds it. -/
noncomputable def real : Num ℝ ℝ :=
  { fadd := fun x y => x + y, fsub := fun x y => x - y, fmul := fun x y => x * y, fdiv := realQuotient Config.realFdivByZero,
    fneg := fun x => -x, fabs := fun x => |x|,
    flt := fun x y => decide (x < y), fgt := fun x y => decide (y < x), fle := fun x y => decide (x ≤ y),
    fcos := Real.cos, fsin := Real.sin,
    u2f := fun n => (n.toNat : ℝ), s2f := fun d => (d.toInt : ℝ), i2d := fun p => (p.toInt : ℝ),
    f2d := fun x => x, d2f := fun x => x, dmul := fun x y => x * y, ddiv := realQuotient Config.realDdivByZero,
    zero := 0, one := 1, two := 2, negOne := -1, piF := Real.pi, twoPiF := 2 * Real.pi, twoPiD := 2 * Real.pi,
    dec32 := realOfWord, enc32 := Config.realEnc32, enc64 := Config.realEnc64 }

/-- T1 (R10): for every finite `t` with `|t| <= 2 pi` the results of `fcos` and `fsin` lie within `TRIG_ERR` of the cosine and the
sine. A claim may assume it by name; no claim of this model does. -/
def TrigAccurate : Prop :=
  0 ≤ Config.trigErr ∧
  ∀ t : F32, isFinite32 t = true → |(value32 t : ℝ)| ≤ 2 * Real.pi →
    |(value32 (fcos32 t) : ℝ) - Real.cos (value32 t : ℝ)| ≤ (Config.trigErr : ℝ) ∧
    |(value32 (fsin32 t) : ℝ) - Real.sin (value32 t : ℝ)| ≤ (Config.trigErr : ℝ)

/-- Operations carried out one after another. -/
def runOps : List Instr → State → Host.Outcome State Fault Refusal
  | [], s => .next s
  | i :: is, s =>
    match exec i s with
    | .next t => runOps is t
    | .fault f => .fault f
    | .refused r => .refused r

/-- What no operation changes: the configuration and its copies, the inputs that wait, and the model's counters. -/
def frameAll (s t : State) : Prop :=
  t.cfg = s.cfg ∧ t.geo = s.geo ∧ t.resetPort = s.resetPort ∧ t.evtPort = s.evtPort ∧ t.cmdPort = s.cmdPort ∧
  t.accepted = s.accepted ∧ t.session = s.session

/-- Bank for bank, what a write to the bank of wheel id `wid` leaves alone: the other bank, and both for an id out of range. -/
def otherBanks {α : Type} (wid : U8) (b b' : Bank α) : Prop := (wid ≠ 0#8 → b'.left = b.left) ∧ (wid ≠ 1#8 → b'.right = b.right)

/-- The variances `R`, `Q` of the filter are never written after reset (R28). -/
def keepsVariances (b b' : Bank (Kalman F32)) : Prop :=
  b'.left.r = b.left.r ∧ b'.left.q = b.left.q ∧ b'.right.r = b.right.r ∧ b'.right.q = b.right.q

/-- The gains of a controller and its setpoint are kept. -/
def keepsSetpoint (c c' : Pid F32) : Prop := c'.kP = c.kP ∧ c'.kI = c.kI ∧ c'.kD = c.kD ∧ c'.setpoint = c.setpoint

/-- The history and the gains of a controller are kept (spec/43_pid_controller.md R151). -/
def keepsHistory (c c' : Pid F32) : Prop :=
  c'.kP = c.kP ∧ c'.kI = c.kI ∧ c'.kD = c.kD ∧ c'.integral = c.integral ∧ c'.lastError = c.lastError

/-- The elements outside an operation's row of R39, column "writes": unchanged between `s` and `t`. -/
def frame (i : Instr) (s t : State) : Prop :=
  match i with
  | .cap wid _ _ _ _ =>
    otherBanks wid s.enc t.enc ∧ otherBanks wid s.spd t.spd ∧ otherBanks wid s.illTimed t.illTimed ∧ t.kf = s.kf ∧ t.pid = s.pid ∧
    t.duty = s.duty ∧ t.pose = s.pose ∧ t.odo = s.odo ∧ t.hung = s.hung
  | .ovf wid =>
    otherBanks wid s.enc t.enc ∧ otherBanks wid s.spd t.spd ∧
    (∀ w, (t.enc.get w).position = (s.enc.get w).position ∧ (t.enc.get w).direction = (s.enc.get w).direction) ∧
    t.kf = s.kf ∧ t.pid = s.pid ∧ t.duty = s.duty ∧ t.pose = s.pose ∧ t.odo = s.odo ∧ t.illTimed = s.illTimed ∧ t.hung = s.hung
  | .tick =>
    t.enc = s.enc ∧ t.spd = s.spd ∧ keepsVariances s.kf t.kf ∧ (∀ w, keepsSetpoint (s.pid.get w) (t.pid.get w)) ∧
    t.pose = s.pose ∧ t.odo = s.odo ∧ t.illTimed = s.illTimed ∧ t.hung = s.hung
  | .otick =>
    t.enc = s.enc ∧ t.spd = s.spd ∧ t.kf = s.kf ∧ t.pid = s.pid ∧ t.duty = s.duty ∧ t.illTimed = s.illTimed
  | .setsp wid _ =>
    otherBanks wid s.pid t.pid ∧ (∀ w, keepsHistory (s.pid.get w) (t.pid.get w)) ∧ t.enc = s.enc ∧ t.spd = s.spd ∧ t.kf = s.kf ∧
    t.duty = s.duty ∧ t.pose = s.pose ∧ t.odo = s.odo ∧ t.illTimed = s.illTimed ∧ t.hung = s.hung
  | .setvel _ _ =>
    (∀ w, keepsHistory (s.pid.get w) (t.pid.get w)) ∧ t.enc = s.enc ∧ t.spd = s.spd ∧ t.kf = s.kf ∧ t.duty = s.duty ∧
    t.pose = s.pose ∧ t.odo = s.odo ∧ t.illTimed = s.illTimed ∧ t.hung = s.hung
  | .rstodo =>
    t.odo.available = s.odo.available ∧ t.enc = s.enc ∧ t.spd = s.spd ∧ t.kf = s.kf ∧ t.pid = s.pid ∧ t.duty = s.duty ∧
    t.illTimed = s.illTimed ∧ t.hung = s.hung
  | .kfupd wid _ =>
    otherBanks wid s.kf t.kf ∧ keepsVariances s.kf t.kf ∧ t.enc = s.enc ∧ t.spd = s.spd ∧ t.pid = s.pid ∧ t.duty = s.duty ∧
    t.pose = s.pose ∧ t.odo = s.odo ∧ t.illTimed = s.illTimed ∧ t.hung = s.hung
  | .pidcmp wid _ =>
    otherBanks wid s.pid t.pid ∧ (∀ w, keepsSetpoint (s.pid.get w) (t.pid.get w)) ∧ t.enc = s.enc ∧ t.spd = s.spd ∧ t.kf = s.kf ∧
    t.duty = s.duty ∧ t.pose = s.pose ∧ t.odo = s.odo ∧ t.illTimed = s.illTimed ∧ t.hung = s.hung
  | .odoupd _ _ _ =>
    t.enc = s.enc ∧ t.spd = s.spd ∧ t.kf = s.kf ∧ t.pid = s.pid ∧ t.duty = s.duty ∧ t.illTimed = s.illTimed
  | .getspd _ => unchanged s t
  | .getrev _ => unchanged s t
  | .getodo => unchanged s t
  | .rdpos _ => unchanged s t
  | .kininv _ _ => unchanged s t
  | .kinfwd _ _ => unchanged s t
where
  /-- No element of R22 to R33 is written. -/
  unchanged (s t : State) : Prop :=
    t.enc = s.enc ∧ t.spd = s.spd ∧ t.kf = s.kf ∧ t.pid = s.pid ∧ t.duty = s.duty ∧ t.pose = s.pose ∧ t.odo = s.odo ∧
    t.illTimed = s.illTimed ∧ t.hung = s.hung

/-- The response `OK` with zero result words. -/
def okZero : Response := { s := 0#32, r0 := 0#32, r1 := 0#32, r2 := 0#32, r3 := 0#32, r4 := 0#32 }

/-- An `ODOUPD` from `u` that moves nothing (spec/45_odometry.md R187): it records the current distances as references and leaves
the pose and the velocities zero. -/
def RecordsReferencesOnly (p0 p1 dt : U32) (u : State) : Prop :=
  ∃ t : State, exec (.odoupd p0 p1 dt) u = .next t ∧
    t.pose = { x := 0#32, y := 0#32, theta := 0#32, velocity := 0#32, omega := 0#32 } ∧
    t.odo = { lastLin := { left := fmul32 p0 u.geo.r, right := fmul32 p1 u.geo.r }, baselined := true, available := true }

/-- `-M <= PID.integral[w] <= M` for comparable values, `M` being `MAX_SUM_ERROR >= 0` (spec/10_state.md R29; R155). -/
def IntegralBounded (s : State) : Prop :=
  fle32 zero32 s.cfg.maxSumError = true → ∀ w : Wheel,
    isNaN32 (s.pid.get w).integral = true ∨
    (fle32 (fneg32 s.cfg.maxSumError) (s.pid.get w).integral = true ∧ fle32 (s.pid.get w).integral s.cfg.maxSumError = true)

/-- `NEG_ONE <= PWM.duty[w] <= ONE` for comparable values (R30). -/
def DutyBounded (s : State) : Prop :=
  ∀ w : Wheel, isNaN32 (s.duty.get w) = true ∨
    (fle32 negOne32 (s.duty.get w) = true ∧ fle32 (s.duty.get w) one32 = true)

/-- `-PI_F < POSE.theta <= PI_F` for a comparable value (R31). -/
def HeadingInRange (s : State) : Prop :=
  isNaN32 s.pose.theta = true ∨ (fgt32 s.pose.theta (fneg32 pi32) = true ∧ fle32 s.pose.theta pi32 = true)

/-- The elements that hold a configuration value, or are derived from configuration values alone, hold it (R28, R29, R33). -/
def ConfigHeld (s : State) : Prop :=
  (∀ w : Wheel, (s.kf.get w).r = s.cfg.r.get w ∧ (s.kf.get w).q = s.cfg.q.get w ∧ (s.pid.get w).kP = s.cfg.kp.get w ∧
    (s.pid.get w).kI = s.cfg.ki.get w ∧ (s.pid.get w).kD = s.cfg.kd.get w) ∧
  s.geo.r = s.cfg.wheelRadius ∧ s.geo.w = s.cfg.trackWidth ∧
  s.geo.kSpeed = fmul32 (fmul32 (fdiv32 one32 s.cfg.epr) twoPi32) s.cfg.tickFreq

/-- R5 (a), (b), (c): the constraints under which the interval arithmetic does not wrap. -/
def IntervalConfig (c : Cfg) : Prop :=
  1 ≤ c.timerPeriod.toNat ∧ 1 ≤ c.stallMult.toNat ∧ (c.stallMult.toNat + 1) * c.timerPeriod.toNat ≤ 2 ^ 32 - 1

/-- The bounds of R119 on the encoder of wheel `w`. -/
def EncoderInRange (s : State) (w : Wheel) : Prop :=
  (s.enc.get w).intervalAccumulator.toNat ≤ s.cfg.stallMult.toNat * s.cfg.timerPeriod.toNat ∧
  (s.enc.get w).lastCaptureCounter.toNat < s.cfg.timerPeriod.toNat

/-- Every capture that waits on the event port carries a counter value below `TIMER_PERIOD` (spec/00_scope.md R13). -/
def CapturesInRange (s : State) : Prop :=
  ∀ r ∈ s.evtPort, ∀ (wid : U8) (ch edge pair : Bool) (cnt : U32),
    decode .evt r = .ok (.cap wid ch edge pair cnt) → cnt.toNat < s.cfg.timerPeriod.toNat

/-- What R119 says of a state in which no reset is requested. -/
def IntervalsInRange (s : State) : Prop :=
  s.resetPort = false ∧ IntervalConfig s.cfg ∧ CapturesInRange s ∧ ∀ w : Wheel, EncoderInRange s w

/-- What of two states one wheel's encoder, estimator, filter and controller can depend on (spec/10_state.md R21): that wheel's
banks, the configuration, and the argument of the free sample. -/
def AgreeOnWheel (w : Wheel) (s t : State) : Prop :=
  t.enc.get w = s.enc.get w ∧ t.spd.get w = s.spd.get w ∧ t.kf.get w = s.kf.get w ∧ t.pid.get w = s.pid.get w ∧
  t.duty.get w = s.duty.get w ∧ t.illTimed.get w = s.illTimed.get w ∧ t.cfg = s.cfg ∧ t.geo = s.geo ∧ t.accepted = s.accepted

end Sys2Proof.Machine
end

