-- ==== Sys2Proof/Certificates/Slice0/Obligations.lean ====
section
/-! DEFINITION. The statements for the provers, in the order of OBLIGATIONS.json. Each docstring names the rule of spec/ it
formalises. A free value (spec/93_implementation_defined.md U2, U3, U6, U11) is never given a value: where an operation writes one,
the statement holds for whatever it is. -/

open Sys2Proof Sys2Proof.Machine

/-! Decoding and the step. -/

/-- R89, R90: the decoder reads back every operation from its request, on the operation's port, with every field and operand at
every value. -/
def Obligations.DecodeEncode : Prop :=
  ∀ (p : Port) (i : Instr), i.wellFormedOn p = true → decode p (encode i) = .ok i

/-- R86, R89: what the decoder accepts is the encoding of what it reads: the operation word is the one the encoder writes, so that
no bit of it is ignored, and the port is the row's. -/
def Obligations.DecodedWordIsEncoded : Prop :=
  ∀ (p : Port) (r : Request) (i : Instr), decode p r = .ok i → (encode i).op = r.op ∧ i.port = p

/-- R86: "The sixteen rows are disjoint". -/
def Obligations.RowsDisjoint : Prop :=
  Mnemonic.all.length = 16 ∧
  ∀ (x : U32) (m n : Mnemonic), x &&& m.mask = m.matchWord → x &&& n.mask = n.matchWord → m = n

/-- Words written out from the spec's own examples (spec/95_test_vectors.md, part 3.1; spec/30_encoding.md R90) decode to the
operations they stand for. -/
def Obligations.ExampleWords : Prop :=
  decode .evt { op := 0x01010005#32, a := 0x000007D0#32, b := 0#32, c := 0#32 } = .ok (.cap 1#8 true false true 2000#32) ∧
  decode .evt { op := 0x02FF0000#32, a := 0#32, b := 0#32, c := 0#32 } = .ok (.ovf 255#8) ∧
  decode .cmd { op := 0x10010000#32, a := 0x41200000#32, b := 0#32, c := 0#32 } = .ok (.setsp 1#8 0x41200000#32) ∧
  decode .cmd { op := 0x11000000#32, a := 0x3F000000#32, b := 0#32, c := 0x12345678#32 } = .ok (.setvel 0x3F000000#32 0#32) ∧
  decode .cmd { op := 0x14000000#32, a := 0xDEADBEEF#32, b := 0xFFFFFFFF#32, c := 0x7FC00000#32 } = .ok .getodo

/-- R66, R89: with no reset requested and no operation in progress that never completes, the request at the head of the only port
that has one is accepted, and the step is the operation it decodes to, carried out in the state in which that request has left the
port. When both ports have one, the step is that of one of them. -/
def Obligations.StepRunsDecoded : Prop :=
  ∀ s : State, s.resetPort = false → s.hung = false →
    (∀ (r : Request) (rest : List Request) (i : Instr), s.evtPort = r :: rest → s.cmdPort = [] → decode .evt r = .ok i →
      step s = exec i { s with evtPort := rest, accepted := s.accepted + 1 }) ∧
    (∀ (r : Request) (rest : List Request) (i : Instr), s.evtPort = [] → s.cmdPort = r :: rest → decode .cmd r = .ok i →
      step s = exec i { s with cmdPort := rest, accepted := s.accepted + 1 }) ∧
    (∀ (re rc : Request) (es cs : List Request) (i j : Instr), s.evtPort = re :: es → s.cmdPort = rc :: cs →
      decode .evt re = .ok i → decode .cmd rc = .ok j →
      step s = exec i { s with evtPort := es, accepted := s.accepted + 1 } ∨
      step s = exec j { s with cmdPort := cs, accepted := s.accepted + 1 })

/-- R88: an illegal word changes no state. On the command port it returns status 2 and zero result words, on the event port it is
dropped without a response, whether the other port has a request waiting or not; when it has, R66 and U11 leave open which of the two
heads is accepted (log entry 6; the count of accepted operations is the model's own). A word is illegal when it matches no row or a
row of the other port. A legal operation answers, if at all, with status 0, or with status 1: `GETODO` before any update, and nothing
else. -/
def Obligations.StatusCodes : Prop :=
  (∀ (s : State) (r : Request) (rest : List Request), s.resetPort = false → s.hung = false →
    ((∀ m : Mnemonic, m.port = .cmd → r.op &&& m.mask ≠ m.matchWord) → s.evtPort = [] → s.cmdPort = r :: rest →
      step s = .next { s with cmdPort := rest, accepted := s.accepted + 1, emitted := [],
                              response := some { s := 2#32, r0 := 0#32, r1 := 0#32, r2 := 0#32, r3 := 0#32, r4 := 0#32 } }) ∧
    ((∀ m : Mnemonic, m.port = .evt → r.op &&& m.mask ≠ m.matchWord) → s.evtPort = r :: rest → s.cmdPort = [] →
      step s = .next { s with evtPort := rest, accepted := s.accepted + 1, emitted := [], response := none })) ∧
  (∀ (s : State) (re rc : Request) (es cs : List Request), s.resetPort = false → s.hung = false →
    s.evtPort = re :: es → s.cmdPort = rc :: cs →
    let sE : State := { s with evtPort := es, accepted := s.accepted + 1 }
    let sC : State := { s with cmdPort := cs, accepted := s.accepted + 1 }
    let dropped : State := { sE with emitted := [], response := none }
    let answered : State :=
      { sC with emitted := [], response := some { s := 2#32, r0 := 0#32, r1 := 0#32, r2 := 0#32, r3 := 0#32, r4 := 0#32 } }
    ((∀ m : Mnemonic, m.port = .evt → re.op &&& m.mask ≠ m.matchWord) →
      (∀ j : Instr, decode .cmd rc = .ok j → step s = .next dropped ∨ step s = exec j sC) ∧
      ((∀ m : Mnemonic, m.port = .cmd → rc.op &&& m.mask ≠ m.matchWord) → step s = .next dropped ∨ step s = .next answered)) ∧
    ((∀ m : Mnemonic, m.port = .cmd → rc.op &&& m.mask ≠ m.matchWord) →
      ∀ i : Instr, decode .evt re = .ok i → step s = exec i sE ∨ step s = .next answered)) ∧
  (∀ (i : Instr) (s t : State) (r : Response), exec i s = .next t → t.response = some r →
    if i = .getodo ∧ s.odo.available = false then r.s = 1#32 else r.s = 0#32)

/-- The model's own rules of when nothing moves (log entries 5 and 8; U5: "the operation never completes and the block accepts nothing
further"). With no request waiting, the step changes nothing but the outputs, on which nothing stands. An update whose normalisation
does not end changes nothing but that, and answers nothing; with such an operation in progress, and no reset requested, there is no
step. -/
def Obligations.WaitingAndStuck : Prop :=
  (∀ s : State, s.resetPort = false →
    (s.hung = false → s.evtPort = [] → s.cmdPort = [] → step s = .next { s with response := none, emitted := [] }) ∧
    (s.hung = true → step s = .fault .operationNeverCompletes)) ∧
  (∀ (p0 p1 dt : U32) (s : State),
    let dL := if s.odo.baselined = true then fsub32 (fmul32 p0 s.geo.r) s.odo.lastLin.left else zero32
    let dR := if s.odo.baselined = true then fsub32 (fmul32 p1 s.geo.r) s.odo.lastLin.right else zero32
    let dTh := fdiv32 (fsub32 dR dL) s.geo.w
    flt32 (fabs32 dTh) s.cfg.odoEps = false → normalize b32 normalizeFuel (fadd32 s.pose.theta dTh) = none →
      exec (.odoupd p0 p1 dt) s = .next { s with hung := true, response := none, emitted := [] })

/-- The model's own interface (log entry 8): the word placed by `withFetchWord` is what the next step carries out, whatever the
state. -/
def Obligations.FetchWord : Prop :=
  ∀ (s : State) (nbits w : Nat) (i : Instr), decodeTableWord nbits w = some i →
    ∃ t : State, step (s.withFetchWord nbits w) = exec i t ∧ t.enc = s.enc ∧ t.spd = s.spd ∧ t.kf = s.kf ∧ t.pid = s.pid ∧
      t.duty = s.duty ∧ t.pose = s.pose ∧ t.odo = s.odo ∧ t.geo = s.geo ∧ t.cfg = s.cfg ∧ t.hung = false

/-- R217, R68 (a): a step without a reset takes at most one request, the first one of its port; no other request of either port is
lost or moved; when a request waits, one is taken and counted. -/
def Obligations.PortsKeepOrder : Prop :=
  ∀ s t : State, s.resetPort = false → step s = .next t →
    ((t.evtPort = s.evtPort ∧ t.cmdPort = s.cmdPort.tail) ∨ (t.evtPort = s.evtPort.tail ∧ t.cmdPort = s.cmdPort)) ∧
    (s.evtPort ≠ [] ∨ s.cmdPort ≠ [] →
      t.evtPort.length + t.cmdPort.length + 1 = s.evtPort.length + s.cmdPort.length ∧ t.accepted = s.accepted + 1)

/-! Reset. -/

/-- R38: the value of every element in the state in which the first operation runs, the configuration words being those the
configuration store gives (R34). -/
def Obligations.ResetValues : Prop :=
  (∀ w : Wheel,
    State.reset.enc.get w = { position := 0#64, lastCaptureCounter := 0#32, intervalAccumulator := 0#32, direction := .pos,
                              intervalValid := false } ∧
    State.reset.spd.get w = { angularVelocity := 0#32, timestampValidity := false } ∧
    State.reset.kf.get w = { gain := 0#32, p := State.reset.cfg.p0.get w, r := State.reset.cfg.r.get w,
                             q := State.reset.cfg.q.get w, lastEstimate := 0#32 } ∧
    State.reset.pid.get w = { kP := State.reset.cfg.kp.get w, kI := State.reset.cfg.ki.get w, kD := State.reset.cfg.kd.get w,
                              setpoint := 0#32, integral := 0#32, lastError := 0#32 } ∧
    State.reset.duty.get w = 0#32 ∧ State.reset.odo.lastLin.get w = 0#32) ∧
  State.reset.emitted = [] ∧
  State.reset.pose = { x := 0#32, y := 0#32, theta := 0#32, velocity := 0#32, omega := 0#32 } ∧
  State.reset.odo.baselined = false ∧ State.reset.odo.available = false ∧
  State.reset.geo = { r := State.reset.cfg.wheelRadius, w := State.reset.cfg.trackWidth,
                      kSpeed := fmul32 (fmul32 (fdiv32 one32 State.reset.cfg.epr) twoPi32) State.reset.cfg.tickFreq }

/-- R34, R241: which of the 21 words each configuration register is loaded from. -/
def Obligations.ConfigurationLoad : Prop :=
  ∀ (read : Nat → U32) (n k : Nat),
    (State.boot read n k).cfg =
      { timerPeriod := read 0, stallMult := read 1, tickFreq := read 2, epr := read 3, wheelRadius := read 4, trackWidth := read 5,
        maxSumError := read 6, odoEps := read 7, odoDt := read 8,
        kp := { left := read 9, right := read 12 }, ki := { left := read 10, right := read 13 },
        kd := { left := read 11, right := read 14 }, p0 := { left := read 15, right := read 18 },
        r := { left := read 16, right := read 19 }, q := { left := read 17, right := read 20 } }

/-- R240, R241: a requested reset is carried out before anything else, from any state: no element survives, the requests that wait
and the operation in progress are discarded without a response, nothing is emitted on the actuator port; the 21 words are read again
and the geometry is derived from them. Which words the store then holds is open: the model reads them from `Config.cfgRead` at the
next session, a count of its own (log entry 1), in the step of the reset itself (log entry 11). -/
def Obligations.HardwareReset : Prop :=
  ∀ s : State, s.resetPort = true → ∃ t : State, step s = .next t ∧
    t.enc = State.reset.enc ∧ t.spd = State.reset.spd ∧ t.duty = State.reset.duty ∧ t.pose = State.reset.pose ∧
    t.odo = State.reset.odo ∧
    (∀ w : Wheel, (t.kf.get w).gain = 0#32 ∧ (t.kf.get w).lastEstimate = 0#32 ∧ (t.kf.get w).p = t.cfg.p0.get w ∧
      (t.kf.get w).r = t.cfg.r.get w ∧ (t.kf.get w).q = t.cfg.q.get w ∧
      (t.pid.get w).kP = t.cfg.kp.get w ∧ (t.pid.get w).kI = t.cfg.ki.get w ∧ (t.pid.get w).kD = t.cfg.kd.get w ∧
      (t.pid.get w).setpoint = 0#32 ∧ (t.pid.get w).integral = 0#32 ∧ (t.pid.get w).lastError = 0#32) ∧
    t.geo = { r := t.cfg.wheelRadius, w := t.cfg.trackWidth,
              kSpeed := fmul32 (fmul32 (fdiv32 one32 t.cfg.epr) twoPi32) t.cfg.tickFreq } ∧
    (let read : Nat → U32 := Config.cfgRead (s.session + 1)
     t.cfg =
      { timerPeriod := read 0, stallMult := read 1, tickFreq := read 2, epr := read 3, wheelRadius := read 4, trackWidth := read 5,
        maxSumError := read 6, odoEps := read 7, odoDt := read 8,
        kp := { left := read 9, right := read 12 }, ki := { left := read 10, right := read 13 },
        kd := { left := read 11, right := read 14 }, p0 := { left := read 15, right := read 18 },
        r := { left := read 16, right := read 19 }, q := { left := read 17, right := read 20 } }) ∧
    t.session = s.session + 1 ∧
    t.resetPort = false ∧ t.evtPort = [] ∧ t.cmdPort = [] ∧ t.response = none ∧ t.emitted = [] ∧ t.hung = false

/-! The operations, one statement each: how its request decodes, the next state for either wheel, and for a wheel id out of range
(R87). Each next state is written out as `s` with the elements the operation writes, so that it is also the operation's frame. -/

/-- R112: `CAP`. The speed `v` is the estimator's when both captures that bound the interval are well timed (R13); otherwise nothing
is said of it (U2). The flag `illTimed`, which remembers for each wheel that the running interval started at a capture that was not
well timed, is the model's own choice (log entry 7), and so are the premise on it and its write here. -/
def Obligations.CapResult : Prop :=
  (∀ (wid : U8) (ch edge pair : Bool) (cnt b c : U32),
    decode .evt { op := opWordQ 0x01#8 wid ch edge pair, a := cnt, b := b, c := c } = .ok (.cap wid ch edge pair cnt)) ∧
  (∀ (w : Wheel) (ch edge pair : Bool) (cnt : U32) (s : State),
    let e := s.enc.get w
    let d : Sign := if (xor ch (xor edge pair)) then .pos else .neg
    let el : U32 := e.intervalAccumulator + (cnt - e.lastCaptureCounter)
    let timed : Bool := decide (cnt.toNat < s.cfg.timerPeriod.toNat) && decide (e.lastCaptureCounter.toNat ≤ cnt.toNat)
    ∃ v : F32,
      (timed = true → s.illTimed.get w = false → v = fmul32 (fdiv32 s.geo.kSpeed (u2f32 el)) (s2f32 d)) ∧
      exec (.cap (widOf w) ch edge pair cnt) s = .next
        { s with
          enc := s.enc.set w { position := e.position + (if d = .pos then 1#64 else -1#64), lastCaptureCounter := cnt,
                               intervalAccumulator := 0#32, direction := d, intervalValid := true }
          spd := s.spd.set w (if e.intervalValid = true ∧ el ≠ 0#32 then { angularVelocity := v, timestampValidity := true }
                              else s.spd.get w)
          illTimed := s.illTimed.set w (!timed)
          response := none
          emitted := [] }) ∧
  (∀ (wid : U8) (ch edge pair : Bool) (cnt : U32) (s : State), wid ≠ 0#8 → wid ≠ 1#8 →
    exec (.cap wid ch edge pair cnt) s = .next { s with response := none, emitted := [] })

/-- R113: `OVF`. The threshold is the exact product, the test is strict, the roll back is by one period, the forced sample is
`ZERO`. -/
def Obligations.OvfResult : Prop :=
  (∀ (wid : U8) (a b c : U32), decode .evt { op := opWordW 0x02#8 wid, a := a, b := b, c := c } = .ok (.ovf wid)) ∧
  (∀ (w : Wheel) (s : State),
    let e := s.enc.get w
    let acc1 : U32 := e.intervalAccumulator + (s.cfg.timerPeriod - e.lastCaptureCounter)
    (s.cfg.stallMult.toNat * s.cfg.timerPeriod.toNat < acc1.toNat →
      exec (.ovf (widOf w)) s = .next
        { s with
          enc := s.enc.set w { position := e.position, lastCaptureCounter := 0#32,
                               intervalAccumulator := acc1 - s.cfg.timerPeriod, direction := e.direction, intervalValid := false }
          spd := s.spd.set w { angularVelocity := 0#32, timestampValidity := false }
          response := none
          emitted := [] }) ∧
    (acc1.toNat ≤ s.cfg.stallMult.toNat * s.cfg.timerPeriod.toNat →
      exec (.ovf (widOf w)) s = .next
        { s with
          enc := s.enc.set w { position := e.position, lastCaptureCounter := 0#32, intervalAccumulator := acc1,
                               direction := e.direction, intervalValid := e.intervalValid }
          response := none
          emitted := [] })) ∧
  (∀ (wid : U8) (s : State), wid ≠ 0#8 → wid ≠ 1#8 → exec (.ovf wid) s = .next { s with response := none, emitted := [] })

/-- R114, R63: `RDPOS` returns the 64 bits of the position, low word first. -/
def Obligations.RdposResult : Prop :=
  (∀ (wid : U8) (a b c : U32), decode .cmd { op := opWordW 0x20#8 wid, a := a, b := b, c := c } = .ok (.rdpos wid)) ∧
  (∀ (w : Wheel) (s : State), ∃ lo hi : U32, hi ++ lo = (s.enc.get w).position ∧
    exec (.rdpos (widOf w)) s = .next
      { s with response := some { s := 0#32, r0 := lo, r1 := hi, r2 := 0#32, r3 := 0#32, r4 := 0#32 }, emitted := [] }) ∧
  (∀ (wid : U8) (s : State), wid ≠ 0#8 → wid ≠ 1#8 → exec (.rdpos wid) s = .next { s with response := some okZero, emitted := [] })

/-- R115, R63: `GETREV` returns the position divided by `EPR` in binary64, low word first. -/
def Obligations.GetrevResult : Prop :=
  (∀ (wid : U8) (a b c : U32), decode .cmd { op := opWordW 0x13#8 wid, a := a, b := b, c := c } = .ok (.getrev wid)) ∧
  (∀ (w : Wheel) (s : State), ∃ lo hi : U32, hi ++ lo = ddiv64 (i2d64 (s.enc.get w).position) (f2d64 s.cfg.epr) ∧
    exec (.getrev (widOf w)) s = .next
      { s with response := some { s := 0#32, r0 := lo, r1 := hi, r2 := 0#32, r3 := 0#32, r4 := 0#32 }, emitted := [] }) ∧
  (∀ (wid : U8) (s : State), wid ≠ 0#8 → wid ≠ 1#8 → exec (.getrev wid) s = .next { s with response := some okZero, emitted := [] })

/-- R141, R142: `KFUPD`. The gain is computed from the old `P`, the new `P` from the new gain and the old `P`, the estimate from the
new gain and the old estimate; `R` and `Q` are kept; the response is the new estimate. -/
def Obligations.KfupdResult : Prop :=
  (∀ (wid : U8) (z b c : U32), decode .cmd { op := opWordW 0x21#8 wid, a := z, b := b, c := c } = .ok (.kfupd wid z)) ∧
  (∀ (w : Wheel) (z : U32) (s : State),
    let k := s.kf.get w
    let g := fdiv32 k.p (fadd32 k.p k.r)
    let p1 := fadd32 (fmul32 (fsub32 one32 g) k.p) k.q
    let e1 := fadd32 k.lastEstimate (fmul32 g (fsub32 z k.lastEstimate))
    exec (.kfupd (widOf w) z) s = .next
      { s with
        kf := s.kf.set w { gain := g, p := p1, r := k.r, q := k.q, lastEstimate := e1 }
        response := some { s := 0#32, r0 := e1, r1 := 0#32, r2 := 0#32, r3 := 0#32, r4 := 0#32 }
        emitted := [] }) ∧
  (∀ (wid : U8) (z : U32) (s : State), wid ≠ 0#8 → wid ≠ 1#8 →
    exec (.kfupd wid z) s = .next { s with response := some okZero, emitted := [] })

/-- R143: `GETSPD` returns the filtered estimate. -/
def Obligations.GetspdResult : Prop :=
  (∀ (wid : U8) (a b c : U32), decode .cmd { op := opWordW 0x12#8 wid, a := a, b := b, c := c } = .ok (.getspd wid)) ∧
  (∀ (w : Wheel) (s : State), exec (.getspd (widOf w)) s = .next
    { s with response := some { s := 0#32, r0 := (s.kf.get w).lastEstimate, r1 := 0#32, r2 := 0#32, r3 := 0#32, r4 := 0#32 }, emitted := [] }) ∧
  (∀ (wid : U8) (s : State), wid ≠ 0#8 → wid ≠ 1#8 → exec (.getspd wid) s = .next { s with response := some okZero, emitted := [] })

/-- R150, R151: `SETSP` writes the setpoint, as the operand word arrives, and nothing else of the controller. -/
def Obligations.SetspResult : Prop :=
  (∀ (wid : U8) (x b c : U32), decode .cmd { op := opWordW 0x10#8 wid, a := x, b := b, c := c } = .ok (.setsp wid x)) ∧
  (∀ (w : Wheel) (x : U32) (s : State), exec (.setsp (widOf w) x) s = .next
    { s with
      pid := s.pid.set w { kP := (s.pid.get w).kP, kI := (s.pid.get w).kI, kD := (s.pid.get w).kD, setpoint := x,
                           integral := (s.pid.get w).integral, lastError := (s.pid.get w).lastError }
      response := some okZero
      emitted := [] }) ∧
  (∀ (wid : U8) (x : U32) (s : State), wid ≠ 0#8 → wid ≠ 1#8 →
    exec (.setsp wid x) s = .next { s with response := some okZero, emitted := [] })

/-- R152, R153: `PIDCMP`. The sum of errors is clamped to `MAX_SUM_ERROR` (an unordered sum passes), the output uses the clamped
sum, it is returned without saturation, and no duty is written. -/
def Obligations.PidcmpResult : Prop :=
  (∀ (wid : U8) (m b c : U32), decode .cmd { op := opWordW 0x22#8 wid, a := m, b := b, c := c } = .ok (.pidcmp wid m)) ∧
  (∀ (w : Wheel) (m : U32) (s : State),
    let p := s.pid.get w
    let top := s.cfg.maxSumError
    let e := fsub32 p.setpoint m
    let dv := fsub32 e p.lastError
    let sum := fadd32 p.integral e
    let i1 := if fgt32 sum top = true then top else if flt32 sum (fneg32 top) = true then fneg32 top else sum
    let out := fadd32 (fadd32 (fmul32 p.kP e) (fmul32 p.kI i1)) (fmul32 p.kD dv)
    exec (.pidcmp (widOf w) m) s = .next
      { s with
        pid := s.pid.set w { kP := p.kP, kI := p.kI, kD := p.kD, setpoint := p.setpoint, integral := i1, lastError := e }
        response := some { s := 0#32, r0 := out, r1 := 0#32, r2 := 0#32, r3 := 0#32, r4 := 0#32 }
        emitted := [] }) ∧
  (∀ (wid : U8) (m : U32) (s : State), wid ≠ 0#8 → wid ≠ 1#8 →
    exec (.pidcmp wid m) s = .next { s with response := some okZero, emitted := [] })

/-- R165: `KININV`. -/
def Obligations.KininvResult : Prop :=
  (∀ v om c : U32, decode .cmd { op := opWordN 0x23#8, a := v, b := om, c := c } = .ok (.kininv v om)) ∧
  (∀ (v om : U32) (s : State),
    let t := fmul32 (fdiv32 s.geo.w two32) om
    exec (.kininv v om) s = .next
      { s with
        response := some { s := 0#32, r0 := fdiv32 (fsub32 v t) s.geo.r, r1 := fdiv32 (fadd32 v t) s.geo.r, r2 := 0#32, r3 := 0#32, r4 := 0#32 }
        emitted := [] })

/-- R166: `KINFWD`. -/
def Obligations.KinfwdResult : Prop :=
  (∀ l r c : U32, decode .cmd { op := opWordN 0x24#8, a := l, b := r, c := c } = .ok (.kinfwd l r)) ∧
  (∀ (l r : U32) (s : State),
    let ll := fmul32 l s.geo.r
    let lr := fmul32 r s.geo.r
    exec (.kinfwd l r) s = .next
      { s with
        response := some { s := 0#32, r0 := fdiv32 (fadd32 ll lr) two32, r1 := fdiv32 (fsub32 lr ll) s.geo.w, r2 := 0#32, r3 := 0#32, r4 := 0#32 }
        emitted := [] })

/-- R167, R71: `SETVEL` writes both setpoints in one step and leaves both histories alone. -/
def Obligations.SetvelResult : Prop :=
  (∀ v om c : U32, decode .cmd { op := opWordN 0x11#8, a := v, b := om, c := c } = .ok (.setvel v om)) ∧
  (∀ (v om : U32) (s : State),
    let t := fmul32 (fdiv32 s.geo.w two32) om
    exec (.setvel v om) s = .next
      { s with
        pid := { left := { s.pid.left with setpoint := fdiv32 (fsub32 v t) s.geo.r },
                 right := { s.pid.right with setpoint := fdiv32 (fadd32 v t) s.geo.r } }
        response := some okZero
        emitted := [] })

/-- R185: `GETODO` returns the five pose words, or status 1 and zeros before any update. -/
def Obligations.GetodoResult : Prop :=
  (∀ a b c : U32, decode .cmd { op := opWordN 0x14#8, a := a, b := b, c := c } = .ok .getodo) ∧
  (∀ s : State,
    (s.odo.available = true → exec .getodo s = .next
      { s with
        response := some { s := 0#32, r0 := s.pose.x, r1 := s.pose.y, r2 := s.pose.theta, r3 := s.pose.velocity, r4 := s.pose.omega }
        emitted := [] }) ∧
    (s.odo.available = false → exec .getodo s = .next
      { s with response := some { s := 1#32, r0 := 0#32, r1 := 0#32, r2 := 0#32, r3 := 0#32, r4 := 0#32 }, emitted := [] }))

/-- R186: `RSTODO` zeroes the pose and the references and clears the baseline flag; the availability flag and everything outside
the odometry are kept. -/
def Obligations.RstodoResult : Prop :=
  (∀ a b c : U32, decode .cmd { op := opWordN 0x15#8, a := a, b := b, c := c } = .ok .rstodo) ∧
  (∀ s : State, exec .rstodo s = .next
    { s with
      pose := { x := 0#32, y := 0#32, theta := 0#32, velocity := 0#32, omega := 0#32 }
      odo := { lastLin := { left := 0#32, right := 0#32 }, baselined := false, available := s.odo.available }
      response := some okZero
      emitted := [] })

/-- R181: `ODOUPD`. Both deltas are zero while no baseline is held; the straight branch keeps the heading, the arc branch travels
along the midpoint heading and normalises. What is left, a normalisation that does not end, is `WaitingAndStuck`. -/
def Obligations.OdoupdResult : Prop :=
  (∀ p0 p1 dt : U32, decode .cmd { op := opWordN 0x25#8, a := p0, b := p1, c := dt } = .ok (.odoupd p0 p1 dt)) ∧
  (∀ (p0 p1 dt : U32) (s : State),
    let l0 := fmul32 p0 s.geo.r
    let l1 := fmul32 p1 s.geo.r
    let dL := if s.odo.baselined = true then fsub32 l0 s.odo.lastLin.left else zero32
    let dR := if s.odo.baselined = true then fsub32 l1 s.odo.lastLin.right else zero32
    let dS := fdiv32 (fadd32 dL dR) two32
    let dTh := fdiv32 (fsub32 dR dL) s.geo.w
    let th0 := s.pose.theta
    let mid := fadd32 th0 (fdiv32 dTh two32)
    let odo1 : Odometry F32 := { lastLin := { left := l0, right := l1 }, baselined := true, available := true }
    (flt32 (fabs32 dTh) s.cfg.odoEps = true →
      exec (.odoupd p0 p1 dt) s = .next
        { s with
          pose := { x := fadd32 s.pose.x (fmul32 dS (fcos32 th0)), y := fadd32 s.pose.y (fmul32 dS (fsin32 th0)), theta := th0,
                    velocity := fdiv32 dS dt, omega := fdiv32 dTh dt }
          odo := odo1
          response := some okZero
          emitted := [] }) ∧
    (flt32 (fabs32 dTh) s.cfg.odoEps = false → ∀ th1 : F32, normalize b32 normalizeFuel (fadd32 th0 dTh) = some th1 →
      exec (.odoupd p0 p1 dt) s = .next
        { s with
          pose := { x := fadd32 s.pose.x (fmul32 dS (fcos32 mid)), y := fadd32 s.pose.y (fmul32 dS (fsin32 mid)), theta := th1,
                    velocity := fdiv32 dS dt, omega := fdiv32 dTh dt }
          odo := odo1
          response := some okZero
          emitted := [] }))

/-- R184: `OTICK` is `OdoUpdate` on the two wheel angles, read at one instant, each the position divided by `EPR` and multiplied by
two pi in binary64 and narrowed once, with the configured period: on every state it does to the elements what `ODOUPD` with those
operands does, and gives no response. It completes whenever the straight branch is taken or the normalisation ends. -/
def Obligations.OtickResult : Prop :=
  (∀ a b c : U32, decode .evt { op := opWordN 0x04#8, a := a, b := b, c := c } = .ok .otick) ∧
  (∀ s : State,
    let rad : Wheel → F32 := fun w => d2f32 (dmul64 (ddiv64 (i2d64 (s.enc.get w).position) (f2d64 s.cfg.epr)) twoPi64)
    (∃ u : State, exec (.odoupd (rad .left) (rad .right) s.cfg.odoDt) s = .next u ∧
      exec .otick s = .next { u with response := none, emitted := [] }) ∧
    (∀ th1 : F32,
      let l0 := fmul32 (rad .left) s.geo.r
      let l1 := fmul32 (rad .right) s.geo.r
      let dL := if s.odo.baselined = true then fsub32 l0 s.odo.lastLin.left else zero32
      let dR := if s.odo.baselined = true then fsub32 l1 s.odo.lastLin.right else zero32
      let dTh := fdiv32 (fsub32 dR dL) s.geo.w
      (if flt32 (fabs32 dTh) s.cfg.odoEps = true then some s.pose.theta
        else normalize b32 normalizeFuel (fadd32 s.pose.theta dTh)) = some th1 →
      ∃ u : State, exec .otick s = .next u ∧ u.hung = s.hung ∧ u.pose.theta = th1 ∧
        u.pose.velocity = fdiv32 (fdiv32 (fadd32 dL dR) two32) s.cfg.odoDt ∧ u.pose.omega = fdiv32 dTh s.cfg.odoDt ∧
        u.odo = { lastLin := { left := l0, right := l1 }, baselined := true, available := true }))

/-- R200, R154: `TICK` runs, for each wheel, the filter on the current sample, the controller on the new estimate, and sends the
saturated output; the left wheel's emission comes first; nothing else is written. -/
def Obligations.TickResult : Prop :=
  (∀ a b c : U32, decode .evt { op := opWordN 0x03#8, a := a, b := b, c := c } = .ok .tick) ∧
  (∀ s : State,
    let k1 : Wheel → Kalman F32 := fun w => kalmanUpdate b32 (s.kf.get w) (s.spd.get w).angularVelocity
    let c1 : Wheel → Pid F32 := fun w => pidAfter b32 s.cfg.maxSumError (s.pid.get w) (k1 w).lastEstimate
    let out : Wheel → F32 := fun w => pidOutput b32 s.cfg.maxSumError (s.pid.get w) (k1 w).lastEstimate
    let d : Wheel → F32 := fun w =>
      if fgt32 (out w) one32 = true then one32 else if flt32 (out w) negOne32 = true then negOne32 else out w
    exec .tick s = .next
      { s with
        kf := { left := k1 .left, right := k1 .right }
        pid := { left := c1 .left, right := c1 .right }
        duty := { left := d .left, right := d .right }
        response := none
        emitted := [{ wheel := .left, duty := d .left }, { wheel := .right, duty := d .right }] })

/-! Laws of the encoder and the interval arithmetic. -/

/-- R110, R111: the direction of each of the eight inputs, and +1 exactly when an odd number of the bits are 1. -/
def Obligations.DirectionTable : Prop :=
  direction false false false = .neg ∧ direction false false true = .pos ∧ direction false true false = .pos ∧
  direction false true true = .neg ∧ direction true false false = .pos ∧ direction true false true = .neg ∧
  direction true true false = .neg ∧ direction true true true = .pos ∧
  ∀ ch edge pair : Bool, direction ch edge pair = .pos ↔ (xor ch (xor edge pair)) = true

/-- R116: after any sequence of captures of one wheel, whether or not well timed, its position is the old one plus the sum of the
directions, modulo 2^64; the other wheel's position is kept; and no operation but `CAP` changes a position. -/
def Obligations.PositionSum : Prop :=
  (∀ (w : Wheel) (events : List (Bool × Bool × Bool × U32)) (s : State), ∃ t : State,
    runOps (events.map (fun x => .cap (widOf w) x.1 x.2.1 x.2.2.1 x.2.2.2)) s = .next t ∧
    (t.enc.get w).position =
      (s.enc.get w).position + BitVec.ofInt 64 ((events.map (fun x => (direction x.1 x.2.1 x.2.2.1).toInt)).sum) ∧
    (t.enc.get w.other).position = (s.enc.get w.other).position) ∧
  (∀ (i : Instr) (s t : State), (∀ (wid : U8) (ch edge pair : Bool) (cnt : U32), i ≠ .cap wid ch edge pair cnt) →
    exec i s = .next t → ∀ w : Wheel, (t.enc.get w).position = (s.enc.get w).position)

/-- R117: continuity. After a well-timed capture at `c0`, `k` overflows without a stall and a capture at `c1`, the sample is the
speed of the interval `k * TIMER_PERIOD + c1 - c0`, the time between the two captures on a counter that never wrapped. -/
def Obligations.IntervalContinuity : Prop :=
  ∀ (w : Wheel) (ch edge pair ch' edge' pair' : Bool) (c0 c1 : U32) (k : Nat) (s : State),
    IntervalConfig s.cfg → c0.toNat < s.cfg.timerPeriod.toNat → (s.enc.get w).lastCaptureCounter.toNat ≤ c0.toNat →
    c1.toNat < s.cfg.timerPeriod.toNat → k ≤ s.cfg.stallMult.toNat → c0.toNat < k * s.cfg.timerPeriod.toNat + c1.toNat →
    ∃ t : State,
      runOps ([.cap (widOf w) ch edge pair c0] ++ List.replicate k (.ovf (widOf w)) ++ [.cap (widOf w) ch' edge' pair' c1]) s =
        .next t ∧
      (t.spd.get w).timestampValidity = true ∧
      (t.spd.get w).angularVelocity =
        speedFromInterval b32 s.geo.kSpeed (BitVec.ofNat 32 (k * s.cfg.timerPeriod.toNat + c1.toNat - c0.toNat))
          (direction ch' edge' pair')

/-- R118: when the stall is declared. After a capture at `c0` the overflows 1 to `STALL_MULT` declare none and accumulate
`k * TIMER_PERIOD - c0`; the overflow `STALL_MULT + 1` and every later one declare it, force the sample to `ZERO` and leave the
accumulator at `STALL_MULT * TIMER_PERIOD - c0`. -/
def Obligations.StallCount : Prop :=
  ∀ (w : Wheel) (ch edge pair : Bool) (c0 : U32) (s : State),
    IntervalConfig s.cfg → c0.toNat < s.cfg.timerPeriod.toNat → ∃ s1 : State,
      exec (.cap (widOf w) ch edge pair c0) s = .next s1 ∧
      ∀ k : Nat, 1 ≤ k → ∃ t : State, runOps (List.replicate k (.ovf (widOf w))) s1 = .next t ∧
        (k ≤ s.cfg.stallMult.toNat →
          (t.enc.get w).intervalAccumulator.toNat = k * s.cfg.timerPeriod.toNat - c0.toNat ∧
          (t.enc.get w).intervalValid = true ∧ t.spd.get w = s1.spd.get w) ∧
        (s.cfg.stallMult.toNat < k →
          (t.enc.get w).intervalAccumulator.toNat = s.cfg.stallMult.toNat * s.cfg.timerPeriod.toNat - c0.toNat ∧
          (t.enc.get w).intervalValid = false ∧ t.spd.get w = { angularVelocity := 0#32, timestampValidity := false })

/-- R119: under R5 (a) to (c), in the bounds of R119, no addition or subtraction of `OVF` and `CAP` wraps: `acc1` and `el` are the
exact sums, within their bounds. -/
def Obligations.IntervalNoWrap : Prop :=
  ∀ (w : Wheel) (s : State), IntervalConfig s.cfg → EncoderInRange s w →
    let acc := (s.enc.get w).intervalAccumulator.toNat
    let last := (s.enc.get w).lastCaptureCounter.toNat
    let tp := s.cfg.timerPeriod.toNat
    let top := (s.cfg.stallMult.toNat + 1) * tp
    ((overflowSum s.cfg.timerPeriod (s.enc.get w)).toNat = acc + (tp - last) ∧ acc + (tp - last) ≤ top) ∧
    (∀ cnt : U32, cnt.toNat < tp → last ≤ cnt.toNat →
      (elapsed (s.enc.get w) cnt).toNat = acc + (cnt.toNat - last) ∧ acc + (cnt.toNat - last) ≤ top - 1)

/-- R119, R24, R23: the bounds of the interval arithmetic are kept by every step, for every state that has them, while no reset is
requested and the captures that wait carry counter values below `TIMER_PERIOD`. -/
def Obligations.IntervalsInRangeKept : Prop :=
  ∀ s t : State, IntervalsInRange s → step s = .next t → IntervalsInRange t

/-- The bounds of R119 hold after reset, for every configuration that meets R5 (a) to (c). -/
def Obligations.IntervalsInRangeAtReset : Prop :=
  ∀ (read : Nat → U32) (n k : Nat), IntervalConfig (State.boot read n k).cfg → IntervalsInRange (State.boot read n k)

/-- R247, R120: the first capture after a stall, or after reset, moves the position and leaves the sample as it was; a second,
well-timed one in the same period that is not at the same counter value produces one. -/
def Obligations.RestartTakesTwoCaptures : Prop :=
  ∀ (w : Wheel) (ch edge pair ch' edge' pair' : Bool) (c0 c1 : U32) (s : State), (s.enc.get w).intervalValid = false →
    (s.enc.get w).lastCaptureCounter.toNat ≤ c0.toNat → c0.toNat < c1.toNat → c1.toNat < s.cfg.timerPeriod.toNat →
    ∃ s1 t : State, exec (.cap (widOf w) ch edge pair c0) s = .next s1 ∧ s1.spd = s.spd ∧
      (s1.enc.get w).position ≠ (s.enc.get w).position ∧
      exec (.cap (widOf w) ch' edge' pair' c1) s1 = .next t ∧
      t.spd.get w = { angularVelocity := speedFromInterval b32 s.geo.kSpeed (c1 - c0) (direction ch' edge' pair'),
                      timestampValidity := true }

/-! Whole-machine rules and invariants. -/

/-- R39: an operation changes no element outside its row, column "writes"; it always gives a next state (R210). -/
def Obligations.OperationFrames : Prop :=
  ∀ (i : Instr) (s : State), ∃ t : State, exec i s = .next t ∧ frame i s t ∧ frameAll s t

/-- R21: the two banks are independent. What an operation leaves in one wheel's encoder, estimator, filter, controller and duty
depends on that wheel's bank, the configuration and the operation alone. -/
def Obligations.WheelIndependence : Prop :=
  ∀ (w : Wheel) (i : Instr) (s t s' t' : State), AgreeOnWheel w s t → exec i s = .next s' → exec i t = .next t' →
    AgreeOnWheel w s' t'

/-- R222: port isolation. A step that serves the event port leaves every setpoint alone and returns no response; a step that serves
the command port leaves the encoders, the samples and the duties alone and emits nothing. -/
def Obligations.PortIsolation : Prop :=
  ∀ s t : State, s.resetPort = false → step s = .next t →
    (s.cmdPort = [] → t.response = none ∧ ∀ w : Wheel, (t.pid.get w).setpoint = (s.pid.get w).setpoint) ∧
    (s.evtPort = [] → t.emitted = [] ∧ t.enc = s.enc ∧ t.spd = s.spd ∧ t.duty = s.duty)

/-- R155, R29: every step keeps the integral of each controller within `MAX_SUM_ERROR`, for comparable values. -/
def Obligations.IntegralBoundedKept : Prop := ∀ s t : State, IntegralBounded s → step s = .next t → IntegralBounded t

/-- R155: the integral is in its bounds after reset, whatever words the configuration store holds. -/
def Obligations.IntegralBoundedAtReset : Prop :=
  IntegralBounded State.reset ∧ ∀ (read : Nat → U32) (n k : Nat), IntegralBounded (State.boot read n k)

/-- R30, R154: every step keeps each duty within `NEG_ONE` and `ONE`, for comparable values. -/
def Obligations.DutyBoundedKept : Prop := ∀ s t : State, DutyBounded s → step s = .next t → DutyBounded t

/-- R30: the duty is in its bounds after reset. -/
def Obligations.DutyBoundedAtReset : Prop := DutyBounded State.reset

/-- R31, R183: every step keeps the heading in the half-open interval from `-PI_F` to `PI_F`, for a comparable value. -/
def Obligations.HeadingInRangeKept : Prop := ∀ s t : State, HeadingInRange s → step s = .next t → HeadingInRange t

/-- R31: the heading is in range after reset. -/
def Obligations.HeadingInRangeAtReset : Prop := HeadingInRange State.reset

/-- R28, R29, R33: the gains, the variances `R` and `Q` and the geometry are written by reset alone: every step keeps them equal to
the configuration. -/
def Obligations.ConfigHeldKept : Prop := ∀ s t : State, ConfigHeld s → step s = .next t → ConfigHeld t

/-- R38: the copies equal the configuration after reset. -/
def Obligations.ConfigHeldAtReset : Prop := ConfigHeld State.reset

/-- R32, R185: the availability of the odometry is never taken back by a step without a reset, and an update that completes sets
it, whatever the state. -/
def Obligations.AvailabilityStays : Prop :=
  (∀ s t : State, s.resetPort = false → s.odo.available = true → step s = .next t → t.odo.available = true) ∧
  (∀ (p0 p1 dt : U32) (s t : State), exec (.odoupd p0 p1 dt) s = .next t → t.hung = false → t.odo.available = true)

/-! Compositions and scenarios. -/

/-- R201: for the filter and controller state, one `TICK` has the effect of `KFUPD` and `PIDCMP` on each wheel in turn, the filter
fed with the wheel's sample, the controller with the estimate just computed. -/
def Obligations.TickComposition : Prop :=
  ∀ s t : State, exec .tick s = .next t → ∃ u : State,
    runOps [.kfupd 0#8 (s.spd.get .left).angularVelocity, .pidcmp 0#8 (t.kf.get .left).lastEstimate,
            .kfupd 1#8 (s.spd.get .right).angularVelocity, .pidcmp 1#8 (t.kf.get .right).lastEstimate] s = .next u ∧
    t.kf = u.kf ∧ t.pid = u.pid ∧ u.duty = s.duty

/-- R91, R167: `SETVEL` has the effect of `KININV` followed by `SETSP 0` and `SETSP 1` with the two words it returned. -/
def Obligations.SetvelComposition : Prop :=
  ∀ (v om : U32) (s t : State), exec (.setvel v om) s = .next t → ∃ (q u : State) (r : Response),
    exec (.kininv v om) s = .next q ∧ q.response = some r ∧
    runOps [.setsp 0#8 r.r0, .setsp 1#8 r.r1] q = .next u ∧ t = u

/-- R65: `SETSP`, `SETVEL` and `RSTODO` are idempotent: a second identical operation leaves the same state. -/
def Obligations.IdempotentWrites : Prop :=
  ∀ (i : Instr) (s t : State),
    ((∃ (wid : U8) (x : U32), i = .setsp wid x) ∨ (∃ v om : U32, i = .setvel v om) ∨ i = .rstodo) →
    exec i s = .next t → exec i t = .next t

/-- R187: re-baselining. For a positive track width, threshold and period, the first update after `RSTODO` leaves the pose and the
velocities zero, whatever the wheel positions, and records the current distances as references; so does the first update after a
hardware reset. -/
def Obligations.Rebaseline : Prop :=
  ∀ (p0 p1 dt : U32) (s : State),
    positiveWord s.geo.w = true → positiveWord s.cfg.odoEps = true → positiveWord dt = true →
    (∃ u : State, exec .rstodo s = .next u ∧ RecordsReferencesOnly p0 p1 dt u) ∧
    (∀ (read : Nat → U32) (n k : Nat), s = State.boot read n k → RecordsReferencesOnly p0 p1 dt s)

/-- R188 (a): the straight-line scenario. With both deltas 1 metre and heading zero, `x` grows by 1 and the heading is kept; `y`
becomes `y + 0`. -/
def Obligations.StraightLine : Prop :=
  ∀ (p0 p1 dt : U32) (s : State),
    positiveWord s.geo.w = true → positiveWord s.cfg.odoEps = true → s.odo.baselined = true → s.pose.theta = zero32 →
    fsub32 (fmul32 p0 s.geo.r) s.odo.lastLin.left = one32 → fsub32 (fmul32 p1 s.geo.r) s.odo.lastLin.right = one32 →
    ∃ t : State, exec (.odoupd p0 p1 dt) s = .next t ∧ t.pose.x = fadd32 s.pose.x one32 ∧ t.pose.y = fadd32 s.pose.y zero32 ∧
      t.pose.theta = zero32 ∧ t.pose.velocity = fdiv32 one32 dt

/-- R183, R252: when `Normalize` ends under `B32`: for every `|t| <= 2^27`, with a heading in the half-open interval; for a NaN at
once, with that NaN; and for no other `t`. That a loop that does not end is the answer `none` is the model's choice (log entry 5). -/
def Obligations.NormalizeEnds : Prop :=
  ∀ t : F32,
    (fle32 (fabs32 t) 0x4D000000#32 = true →
      ∃ r : F32, normalize b32 normalizeFuel t = some r ∧ fgt32 r (fneg32 pi32) = true ∧ fle32 r pi32 = true) ∧
    (isNaN32 t = true → normalize b32 normalizeFuel t = some t) ∧
    (fgt32 (fabs32 t) 0x4D000000#32 = true → normalize b32 normalizeFuel t = none)

/-! Under the instance `REAL` (R9). -/

/-- R168: under `REAL` the two kinematic maps are inverse to each other, for positive wheel radius and track width. -/
def Obligations.KinematicsRoundTrip : Prop :=
  ∀ g : Geometry ℝ, 0 < g.r → 0 < g.w →
    (∀ v om : ℝ, kinForward real g (kinInverse real g v om).1 (kinInverse real g v om).2 = (v, om)) ∧
    (∀ l r : ℝ, kinInverse real g (kinForward real g l r).1 (kinForward real g l r).2 = (l, r))

/-- R144: under `REAL`, for `R > 0`, `Q > 0` and any `P >= 0`, feeding a constant measurement `m` drives the estimate to `m`, and the
variance to the fixed point `(Q + sqrt(Q^2 + 4*Q*R)) / 2`, whatever it started from. -/
def Obligations.KalmanConverges : Prop :=
  ∀ (k : Kalman ℝ) (m : ℝ), 0 < k.r → 0 < k.q → 0 ≤ k.p →
    Filter.Tendsto (fun n : Nat => ((fun x => kalmanUpdate real x m)^[n] k).lastEstimate) Filter.atTop (nhds m) ∧
    Filter.Tendsto (fun n : Nat => ((fun x => kalmanUpdate real x m)^[n] k).p) Filter.atTop
      (nhds ((k.q + Real.sqrt (k.q ^ 2 + 4 * k.q * k.r)) / 2))

/-- R183: under `REAL`, `n` turns are enough to normalise `t` when `|t| <= pi + 2 pi n`; the result lies in `(-pi, pi]` and differs
from `t` by whole turns. -/
def Obligations.NormalizeReal : Prop :=
  ∀ (n : Nat) (t : ℝ), |t| ≤ Real.pi + 2 * Real.pi * n → ∃ r : ℝ, normalize real (n + 1) t = some r ∧ -Real.pi < r ∧ r ≤ Real.pi ∧
    ∃ z : ℤ, r = t + 2 * Real.pi * z

/-! The instance `B32` (R8). -/

/-- R8, R206 (b), (c): every primitive that rounds is correctly rounded, in binary32, in binary64, and in the conversions: on finite
operands (and a divisor other than zero) the result is finite and nearest, ties to even, below the overflow threshold, and an
infinity of the right sign from there on. An operation on a NaN, `0/0` and the difference of equal infinities return a NaN. -/
def Obligations.CorrectlyRounded : Prop :=
  (∀ x y : F32, isFinite32 x = true → isFinite32 y = true →
    RoundsTo32 (value32 x + value32 y) (fadd32 x y) ∧ RoundsTo32 (value32 x - value32 y) (fsub32 x y) ∧
    RoundsTo32 (value32 x * value32 y) (fmul32 x y) ∧
    (value32 y ≠ 0 → RoundsTo32 (value32 x / value32 y) (fdiv32 x y))) ∧
  (∀ x y : F64, isFinite64 x = true → isFinite64 y = true →
    RoundsTo64 (value64 x * value64 y) (dmul64 x y) ∧ (value64 y ≠ 0 → RoundsTo64 (value64 x / value64 y) (ddiv64 x y))) ∧
  (∀ x : F64, isFinite64 x = true → RoundsTo32 (value64 x) (d2f32 x)) ∧
  (∀ x : F64, isInf64 x = true → isInf32 (d2f32 x) = true ∧ sign32 (d2f32 x) = sign64 x) ∧
  (∀ n : U32, RoundsTo32 (n.toNat : ℚ) (u2f32 n)) ∧ (∀ p : U64, RoundsTo64 (p.toInt : ℚ) (i2d64 p)) ∧
  (∀ x y : F32, isNaN32 x = true ∨ isNaN32 y = true →
    isNaN32 (fadd32 x y) = true ∧ isNaN32 (fsub32 x y) = true ∧ isNaN32 (fmul32 x y) = true ∧ isNaN32 (fdiv32 x y) = true) ∧
  (∀ x y : F64, isNaN64 x = true ∨ isNaN64 y = true → isNaN64 (dmul64 x y) = true ∧ isNaN64 (ddiv64 x y) = true) ∧
  (∀ x : F32, isNaN32 x = true → isNaN64 (f2d64 x) = true) ∧ (∀ x : F64, isNaN64 x = true → isNaN32 (d2f32 x) = true) ∧
  (∀ x y : F32, isFinite32 x = true → isFinite32 y = true → value32 x = 0 → value32 y = 0 → isNaN32 (fdiv32 x y) = true) ∧
  (∀ x y : F64, isFinite64 x = true → isFinite64 y = true → value64 x = 0 → value64 y = 0 → isNaN64 (ddiv64 x y) = true) ∧
  (∀ x : F32, isInf32 x = true → isNaN32 (fsub32 x x) = true ∧ isNaN32 (fadd32 x (fneg32 x)) = true)

/-- R8: the comparisons of finite words are those of their values, and a comparison with a NaN is false. -/
def Obligations.ComparisonsAreOrder : Prop :=
  ∀ x y : F32,
    (isFinite32 x = true → isFinite32 y = true →
      (flt32 x y = true ↔ value32 x < value32 y) ∧ (fgt32 x y = true ↔ value32 x > value32 y) ∧
      (fle32 x y = true ↔ value32 x ≤ value32 y)) ∧
    (isNaN32 x = true ∨ isNaN32 y = true → flt32 x y = false ∧ fgt32 x y = false ∧ fle32 x y = false)

/-- R206 (c): the conversions are exact where it says so: `u2f` up to 2^24, `i2d` up to 2^53 in magnitude, `f2d` for every finite
word, `s2f` for both signs; the codecs of `B32` are bit for bit. Under `REAL` (R9) `dec32` maps a finite operand word to the real
number its pattern denotes. -/
def Obligations.ConversionsExact : Prop :=
  (∀ n : U32, n.toNat ≤ 2 ^ 24 → isFinite32 (u2f32 n) = true ∧ value32 (u2f32 n) = (n.toNat : ℚ)) ∧
  (∀ p : U64, p.toInt.natAbs ≤ 2 ^ 53 → isFinite64 (i2d64 p) = true ∧ value64 (i2d64 p) = (p.toInt : ℚ)) ∧
  (∀ x : F32, isFinite32 x = true → isFinite64 (f2d64 x) = true ∧ value64 (f2d64 x) = value32 x) ∧
  (∀ d : Sign, isFinite32 (s2f32 d) = true ∧ value32 (s2f32 d) = (d.toInt : ℚ)) ∧
  (∀ x : U32, dec32 x = x ∧ enc32 x = x) ∧ (∀ x : U64, enc64 x = x) ∧
  (∀ x : U32, isFinite32 x = true → real.dec32 x = ((value32 x : ℚ) : ℝ))
end

