-- ==== Sys2Proof/Laws/Binary32.lean ====
section
/-! SUPPORT. What a binary32 word is (sign and magnitude), what the comparisons and the sign operations do to it, how magnitudes
count units, and what rounding can do: it is monotone, exact on what the format holds, and nearest. -/

namespace Sys2Proof.Machine

/-! Words and magnitudes. -/

theorem mag32_lt (x : F32) : mag32 x < 2 ^ 31 := Nat.mod_lt _ (by norm_num)

theorem sign32_eq (x : F32) : sign32 x = decide (2 ^ 31 ≤ x.toNat) := by
  rw [sign32, BitVec.msb_eq_decide]

theorem toNat_eq (x : F32) : x.toNat = (if sign32 x then 2 ^ 31 else 0) + mag32 x := by
  have h := x.isLt
  rw [sign32_eq, mag32]
  by_cases hx : 2 ^ 31 ≤ x.toNat
  · simp only [hx, decide_true, if_true]
    omega
  · simp only [hx, decide_false]
    simp
    omega

/-- A word is its sign and its magnitude. -/
theorem word_ext {x y : F32} (hs : sign32 x = sign32 y) (hm : mag32 x = mag32 y) : x = y := by
  apply BitVec.eq_of_toNat_eq
  rw [toNat_eq x, toNat_eq y, hs, hm]

theorem pack32_toNat (neg : Bool) {m : Nat} (h : m < 2 ^ 31) : (pack32 neg m).toNat = (if neg then 2 ^ 31 else 0) + m := by
  rw [pack32, BitVec.toNat_ofNat]
  cases neg <;> simp <;> omega

@[simp] theorem sign32_pack32 (neg : Bool) {m : Nat} (h : m < 2 ^ 31) : sign32 (pack32 neg m) = neg := by
  rw [sign32_eq, pack32_toNat neg h]
  cases neg <;> simp
  omega

@[simp] theorem mag32_pack32 (neg : Bool) {m : Nat} (h : m < 2 ^ 31) : mag32 (pack32 neg m) = m := by
  rw [mag32, pack32_toNat neg h]
  cases neg <;> simp <;> omega

theorem pack32_sign_mag (x : F32) : pack32 (sign32 x) (mag32 x) = x :=
  word_ext (sign32_pack32 _ (mag32_lt x)) (mag32_pack32 _ (mag32_lt x))

@[simp] theorem sign32_fneg (x : F32) : sign32 (fneg32 x) = !sign32 x := by
  rw [sign32, fneg32, BitVec.msb_xor, show (0x80000000#32).msb = true from by decide, Bool.xor_true]
  rfl

@[simp] theorem mag32_fneg (x : F32) : mag32 (fneg32 x) = mag32 x := by
  have h : (fneg32 x) &&& 0x7FFFFFFF#32 = x &&& 0x7FFFFFFF#32 := by
    ext i hi
    simp only [fneg32, BitVec.getElem_and, BitVec.getElem_xor]
    interval_cases i <;> simp
  have key : ∀ y : F32, (y &&& 0x7FFFFFFF#32).toNat = mag32 y := by
    intro y
    rw [BitVec.toNat_and, mag32]
    exact Nat.and_two_pow_sub_one_eq_mod y.toNat 31
  rw [← key, h, key]

@[simp] theorem mag32_fabs (x : F32) : mag32 (fabs32 x) = mag32 x := by
  have key : (x &&& 0x7FFFFFFF#32).toNat = mag32 x := by
    rw [BitVec.toNat_and, mag32]
    exact Nat.and_two_pow_sub_one_eq_mod x.toNat 31
  rw [fabs32, mag32, key, Nat.mod_eq_of_lt (mag32_lt x)]

@[simp] theorem sign32_fabs (x : F32) : sign32 (fabs32 x) = false := by
  rw [sign32, fabs32, BitVec.msb_and, show (0x7FFFFFFF#32).msb = false from by decide, Bool.and_false]

@[simp] theorem isNaN32_fneg (x : F32) : isNaN32 (fneg32 x) = isNaN32 x := by simp [isNaN32]
@[simp] theorem isNaN32_fabs (x : F32) : isNaN32 (fabs32 x) = isNaN32 x := by simp [isNaN32]
@[simp] theorem isFinite32_fneg (x : F32) : isFinite32 (fneg32 x) = isFinite32 x := by simp [isFinite32]
@[simp] theorem key32_fneg (x : F32) : key32 (fneg32 x) = -key32 x := by
  cases h : sign32 x <;> simp [key32, h]
@[simp] theorem key32_fabs (x : F32) : key32 (fabs32 x) = mag32 x := by simp [key32]
@[simp] theorem units32_fneg (x : F32) : units32 (fneg32 x) = -units32 x := by
  cases h : sign32 x <;> simp [units32, h]

theorem isNaN32_of_finite {x : F32} (h : isFinite32 x = true) : isNaN32 x = false := by
  simp only [isFinite32, isNaN32, decide_eq_true_eq, decide_eq_false_iff_not] at *
  omega

/-! The comparisons: on words that are not NaN, the order of the keys. -/

theorem flt32_iff {x y : F32} : flt32 x y = true ↔ isNaN32 x = false ∧ isNaN32 y = false ∧ key32 x < key32 y := by
  simp [flt32, and_assoc]

theorem fgt32_iff {x y : F32} : fgt32 x y = true ↔ isNaN32 x = false ∧ isNaN32 y = false ∧ key32 y < key32 x := by
  simp [fgt32, and_assoc]

theorem fle32_iff {x y : F32} : fle32 x y = true ↔ isNaN32 x = false ∧ isNaN32 y = false ∧ key32 x ≤ key32 y := by
  simp [fle32, and_assoc]

theorem fle32_of_not_fgt {x y : F32} (hx : isNaN32 x = false) (hy : isNaN32 y = false) (h : fgt32 x y = false) :
    fle32 x y = true := by
  rw [fle32_iff]
  refine ⟨hx, hy, ?_⟩
  by_contra hc
  rw [(fgt32_iff (x := x) (y := y)).2 ⟨hx, hy, by omega⟩] at h
  cases h

theorem fle32_of_not_flt {x y : F32} (hx : isNaN32 x = false) (hy : isNaN32 y = false) (h : flt32 x y = false) :
    fle32 y x = true := by
  rw [fle32_iff]
  refine ⟨hy, hx, ?_⟩
  by_contra hc
  rw [(flt32_iff (x := x) (y := y)).2 ⟨hx, hy, by omega⟩] at h
  cases h

/-! Units: strictly increasing in the magnitude bits. -/

theorem unitsOf_step (f : FloatFormat) (m : Nat) : unitsOf f m < unitsOf f (m + 1) := by
  have hp : 0 < 2 ^ f.fracBits := Nat.two_pow_pos _
  simp only [unitsOf]
  rcases Nat.lt_or_ge (m % 2 ^ f.fracBits + 1) (2 ^ f.fracBits) with h | h
  · have h1 : (m + 1) / 2 ^ f.fracBits = m / 2 ^ f.fracBits := by
      rw [Nat.add_div hp, if_neg]
      · have : 1 / 2 ^ f.fracBits = 0 := Nat.div_eq_of_lt (by omega)
        omega
      · have : 1 % 2 ^ f.fracBits ≤ 1 := Nat.mod_le _ _
        omega
    have h2 : (m + 1) % 2 ^ f.fracBits = m % 2 ^ f.fracBits + 1 := by
      have a := Nat.div_add_mod (m + 1) (2 ^ f.fracBits)
      have b := Nat.div_add_mod m (2 ^ f.fracBits)
      rw [h1] at a
      omega
    rw [h1, h2]
    split
    · omega
    · exact Nat.mul_lt_mul_of_pos_right (by omega) (Nat.two_pow_pos _)
  · have hlt := Nat.mod_lt m hp
    have heq : m % 2 ^ f.fracBits = 2 ^ f.fracBits - 1 := by omega
    have hm : m + 1 = 2 ^ f.fracBits * (m / 2 ^ f.fracBits + 1) := by
      have b := Nat.div_add_mod m (2 ^ f.fracBits)
      rw [Nat.mul_add]
      omega
    have h1 : (m + 1) / 2 ^ f.fracBits = m / 2 ^ f.fracBits + 1 := by
      rw [hm, Nat.mul_div_cancel_left _ hp]
    have h2 : (m + 1) % 2 ^ f.fracBits = 0 := by
      rw [hm, Nat.mul_mod_right]
    rw [h1, h2, heq]
    split
    · rename_i h0
      simp [h0]
    · rename_i h0
      obtain ⟨e, he⟩ := Nat.exists_eq_succ_of_ne_zero h0
      rw [he]
      simp only [Nat.succ_eq_add_one, Nat.add_sub_cancel, if_neg (Nat.succ_ne_zero _), Nat.zero_add]
      rw [Nat.pow_succ]
      calc (2 ^ f.fracBits - 1 + 2 ^ f.fracBits) * 2 ^ e < (2 * 2 ^ f.fracBits) * 2 ^ e :=
            Nat.mul_lt_mul_of_pos_right (by omega) (Nat.two_pow_pos _)
        _ = 2 ^ f.fracBits * (2 ^ e * 2) := by ring

theorem unitsOf_strictMono (f : FloatFormat) : StrictMono (unitsOf f) := strictMono_nat_of_lt_succ (unitsOf_step f)

theorem unitsOf_zero (f : FloatFormat) : unitsOf f 0 = 0 := by simp [unitsOf]

/-! Rounding. -/

/-- `divNearestEven n d` is a nearest integer to `n / d`: at most half away, and even when exactly half away. -/
theorem divNearestEven_spec (n : Nat) {d : Nat} (hd : 0 < d) :
    2 * n ≤ (2 * divNearestEven n d + 1) * d ∧ (2 * divNearestEven n d) * d ≤ 2 * n + d ∧
    (2 * n = (2 * divNearestEven n d + 1) * d ∨ (2 * divNearestEven n d) * d = 2 * n + d → divNearestEven n d % 2 = 0) := by
  have h := Nat.div_add_mod n d
  have hr := Nat.mod_lt n hd
  unfold divNearestEven
  simp only
  generalize n / d = q at *
  generalize n % d = r at *
  subst h
  have e1 : ∀ a : Nat, (2 * a + 1) * d = 2 * (d * a) + d := fun a => by ring
  have e2 : ∀ a : Nat, 2 * a * d = 2 * (d * a) := fun a => by ring
  have e3 : d * (q + 1) = d * q + d := by ring
  split
  · rw [e1, e2]
    omega
  · split
    · rw [e1, e2, e3]
      omega
    · split
      · rw [e1, e2]
        omega
      · rw [e1, e2, e3]
        omega

theorem divNearestEven_mono {n d n' d' : Nat} (hd : 0 < d) (hd' : 0 < d') (h : n * d' ≤ n' * d) :
    divNearestEven n d ≤ divNearestEven n' d' := by
  by_contra hc
  obtain ⟨-, h2, h3⟩ := divNearestEven_spec n hd
  obtain ⟨h1', -, h3'⟩ := divNearestEven_spec n' hd'
  generalize divNearestEven n d = a at *
  generalize divNearestEven n' d' = b at *
  have hab : b + 1 ≤ a := by omega
  have i1 : (2 * a * d) * d' ≤ (2 * n + d) * d' := Nat.mul_le_mul_right _ h2
  have i2 : (2 * n') * d ≤ ((2 * b + 1) * d') * d := Nat.mul_le_mul_right _ h1'
  have i3 : 2 * (b + 1) * (d * d') ≤ 2 * a * (d * d') := Nat.mul_le_mul_right _ (by omega)
  have p : 0 < d * d' := Nat.mul_pos hd hd'
  have j1 : (2 * b + 2) * (d * d') ≤ (2 * b + 2) * (d * d') := le_refl _
  have k1 : 2 * a * (d * d') = (2 * b + 2) * (d * d') := by nlinarith
  have hA : 2 * a = 2 * b + 2 := Nat.eq_of_mul_eq_mul_right p k1
  have k2 : (2 * a * d) * d' = (2 * n + d) * d' := by nlinarith
  have k3 : (2 * n') * d = ((2 * b + 1) * d') * d := by nlinarith
  have m2 := h3 (.inr (Nat.eq_of_mul_eq_mul_right hd' k2))
  have m3 := h3' (.inl (Nat.eq_of_mul_eq_mul_right hd k3))
  omega

theorem divNearestEven_mul (a : Nat) {d : Nat} (hd : 0 < d) : divNearestEven (a * d) d = a := by
  simp [divNearestEven, Nat.mul_div_cancel _ hd, hd]

/-- The shift chosen for `q` whole units: none below `2 ^ (fracBits + 1)`, otherwise it brings the quotient to `fracBits + 1`
bits. -/
theorem shiftFor_spec (f : FloatFormat) (q : Nat) :
    q < 2 ^ (f.fracBits + 1) * 2 ^ shiftFor f q ∧ (0 < shiftFor f q → 2 ^ f.fracBits * 2 ^ shiftFor f q ≤ q) := by
  unfold shiftFor
  constructor
  · rw [← Nat.pow_add]
    exact Nat.lt_of_lt_of_le Nat.lt_log2_self (Nat.pow_le_pow_right (by norm_num) (by omega))
  · intro h
    have hq : q ≠ 0 := by
      rintro rfl
      simp at h
    rw [← Nat.pow_add]
    exact Nat.le_trans (Nat.pow_le_pow_right (by norm_num) (by omega)) (Nat.log2_self_le hq)

theorem shiftFor_mono (f : FloatFormat) {q q' : Nat} (h : q ≤ q') : shiftFor f q ≤ shiftFor f q' := by
  unfold shiftFor
  have : q.log2 ≤ q'.log2 := by
    simp only [Nat.log2_eq_log_two]
    exact Nat.log_mono_right h
  omega

/-- The shift and the significand of a rounding. -/
def roundShift (f : FloatFormat) (n d : Nat) : Nat := shiftFor f (n / d)

/-- The significand: a nearest integer to the fraction at that shift. -/
def roundSig (f : FloatFormat) (n d : Nat) : Nat := divNearestEven n (d * 2 ^ roundShift f n d)

theorem roundUnits_eq (f : FloatFormat) (n d : Nat) :
    roundUnits f n d = min (roundShift f n d * 2 ^ f.fracBits + roundSig f n d) f.infBits := rfl

theorem roundSig_bounds (f : FloatFormat) (n : Nat) {d : Nat} (hd : 0 < d) :
    roundSig f n d ≤ 2 ^ (f.fracBits + 1) ∧ (0 < roundShift f n d → 2 ^ f.fracBits ≤ roundSig f n d) := by
  have hp : 0 < d * 2 ^ roundShift f n d := Nat.mul_pos hd (Nat.two_pow_pos _)
  obtain ⟨h1, h2⟩ := shiftFor_spec f (n / d)
  constructor
  · have := divNearestEven_mono (n := n) (d := d * 2 ^ roundShift f n d) (n' := 2 ^ (f.fracBits + 1) * 1) (d' := 1) hp one_pos (by
      have h3 : n < d * (n / d + 1) := Nat.lt_mul_div_succ n hd
      have h4 : d * (n / d + 1) ≤ d * (2 ^ (f.fracBits + 1) * 2 ^ shiftFor f (n / d)) := Nat.mul_le_mul_left _ h1
      have h5 : d * (2 ^ (f.fracBits + 1) * 2 ^ shiftFor f (n / d)) = 2 ^ (f.fracBits + 1) * 1 * (d * 2 ^ roundShift f n d) := by
        unfold roundShift
        ring
      omega)
    rwa [divNearestEven_mul _ one_pos] at this
  · intro hk
    have := divNearestEven_mono (n := 2 ^ f.fracBits * 1) (d := 1) (n' := n) (d' := d * 2 ^ roundShift f n d) one_pos hp (by
      have h3 : d * (n / d) ≤ n := Nat.mul_div_le n d
      have h4 : d * (2 ^ f.fracBits * 2 ^ shiftFor f (n / d)) ≤ d * (n / d) := Nat.mul_le_mul_left _ (h2 hk)
      have h5 : d * (2 ^ f.fracBits * 2 ^ shiftFor f (n / d)) = 2 ^ f.fracBits * 1 * (d * 2 ^ roundShift f n d) := by
        unfold roundShift
        ring
      omega)
    rwa [divNearestEven_mul _ one_pos] at this

/-- The units of a shift and a significand. -/
theorem unitsOf_shift (f : FloatFormat) {k m : Nat} (h : m ≤ 2 ^ (f.fracBits + 1)) (hk : 0 < k → 2 ^ f.fracBits ≤ m) :
    unitsOf f (k * 2 ^ f.fracBits + m) = m * 2 ^ k := by
  have hp : 0 < 2 ^ f.fracBits := Nat.two_pow_pos _
  rw [Nat.pow_succ] at h
  have hdiv : (k * 2 ^ f.fracBits + m) / 2 ^ f.fracBits = k + m / 2 ^ f.fracBits := by
    rw [Nat.add_comm, Nat.add_mul_div_right _ _ hp, Nat.add_comm]
  have hmod : (k * 2 ^ f.fracBits + m) % 2 ^ f.fracBits = m % 2 ^ f.fracBits := by
    rw [Nat.add_comm, Nat.add_mul_mod_self_right]
  simp only [unitsOf, hdiv, hmod]
  rcases Nat.lt_or_ge m (2 ^ f.fracBits) with h1 | h1
  · have hk0 : k = 0 := by
      by_contra hc
      have := hk (by omega)
      omega
    simp [hk0, Nat.div_eq_of_lt h1, Nat.mod_eq_of_lt h1]
  · rcases Nat.lt_or_ge m (2 * 2 ^ f.fracBits) with h2 | h2
    · have hd1 : m / 2 ^ f.fracBits = 1 := Nat.div_eq_of_lt_le (by omega) (by omega)
      have hm1 : m % 2 ^ f.fracBits = m - 2 ^ f.fracBits := by
        rw [Nat.mod_eq_sub_mod h1, Nat.mod_eq_of_lt (by omega)]
      rw [hd1, hm1, if_neg (by omega), Nat.sub_add_cancel h1, Nat.add_sub_cancel]
    · have hm : m = 2 * 2 ^ f.fracBits := by omega
      rw [hm, Nat.mul_div_cancel _ hp, Nat.mul_mod_left, if_neg (by omega), Nat.zero_add]
      rw [show k + 2 - 1 = k + 1 from rfl, Nat.pow_succ]
      ring

/-- What a rounding gives, before the bound of the format: the units of the significand at its shift. -/
theorem unitsOf_round (f : FloatFormat) (n : Nat) {d : Nat} (hd : 0 < d) :
    unitsOf f (roundShift f n d * 2 ^ f.fracBits + roundSig f n d) = roundSig f n d * 2 ^ roundShift f n d :=
  unitsOf_shift f (roundSig_bounds f n hd).1 (roundSig_bounds f n hd).2

theorem roundUnits_mono (f : FloatFormat) {n d n' d' : Nat} (hd : 0 < d) (hd' : 0 < d') (h : n * d' ≤ n' * d) :
    roundUnits f n d ≤ roundUnits f n' d' := by
  rw [roundUnits_eq, roundUnits_eq]
  apply min_le_min_right
  have hq : n / d ≤ n' / d' := by
    rw [Nat.le_div_iff_mul_le hd']
    have h1 : n / d * d ≤ n := Nat.div_mul_le_self n d
    have h2 : (n / d * d') * d ≤ n' * d := by
      calc (n / d * d') * d = (n / d * d) * d' := by ring
        _ ≤ n * d' := Nat.mul_le_mul_right _ h1
        _ ≤ n' * d := h
    exact Nat.le_of_mul_le_mul_right h2 hd
  have hk : roundShift f n d ≤ roundShift f n' d' := shiftFor_mono f hq
  obtain ⟨b1, -⟩ := roundSig_bounds f n hd
  obtain ⟨-, b2⟩ := roundSig_bounds f n' hd'
  rcases Nat.lt_or_ge (roundShift f n d) (roundShift f n' d') with hlt | hge
  · have h2 := b2 (by omega)
    have h3 : (roundShift f n d + 1) * 2 ^ f.fracBits ≤ roundShift f n' d' * 2 ^ f.fracBits := Nat.mul_le_mul_right _ hlt
    rw [Nat.pow_succ] at b1
    rw [Nat.add_mul] at h3
    omega
  · have he : roundShift f n d = roundShift f n' d' := by omega
    have := divNearestEven_mono (n := n) (d := d * 2 ^ roundShift f n d) (n' := n') (d' := d' * 2 ^ roundShift f n' d')
      (Nat.mul_pos hd (Nat.two_pow_pos _)) (Nat.mul_pos hd' (Nat.two_pow_pos _)) (by
        rw [he]
        calc n * (d' * 2 ^ roundShift f n' d') = (n * d') * 2 ^ roundShift f n' d' := by ring
          _ ≤ (n' * d) * 2 ^ roundShift f n' d' := Nat.mul_le_mul_right _ h
          _ = n' * (d * 2 ^ roundShift f n' d') := by ring)
    have h3 : roundShift f n d * 2 ^ f.fracBits = roundShift f n' d' * 2 ^ f.fracBits := by rw [he]
    unfold roundSig
    omega

/-- A magnitude is its shift and its significand. -/
theorem mag_split (f : FloatFormat) (m : Nat) :
    ∃ k c, m = k * 2 ^ f.fracBits + c ∧ c < 2 ^ (f.fracBits + 1) ∧ (0 < k → 2 ^ f.fracBits ≤ c) := by
  have hp : 0 < 2 ^ f.fracBits := Nat.two_pow_pos _
  rcases Nat.lt_or_ge m (2 ^ (f.fracBits + 1)) with h | h
  · exact ⟨0, m, by simp, h, by simp⟩
  · rw [Nat.pow_succ] at *
    have h1 := Nat.div_add_mod m (2 ^ f.fracBits)
    have h2 := Nat.mod_lt m hp
    have h3 : 2 ≤ m / 2 ^ f.fracBits := by
      rw [Nat.le_div_iff_mul_le hp]
      omega
    refine ⟨m / 2 ^ f.fracBits - 1, m % 2 ^ f.fracBits + 2 ^ f.fracBits, ?_, by omega, by omega⟩
    rw [Nat.sub_mul, Nat.one_mul]
    have h4 : 1 * 2 ^ f.fracBits ≤ m / 2 ^ f.fracBits * 2 ^ f.fracBits := Nat.mul_le_mul_right _ (by omega)
    rw [Nat.mul_comm] at h1
    omega

/-- Rounding is exact on what the format holds. -/
theorem roundUnits_exact (f : FloatFormat) (m : Nat) {d : Nat} (hd : 0 < d) :
    roundUnits f (unitsOf f m * d) d = min m f.infBits := by
  obtain ⟨k, c, rfl, hc, hk⟩ := mag_split f m
  have hu := unitsOf_shift f (Nat.le_of_lt hc) hk
  have hs : roundShift f (c * 2 ^ k * d) d = k := by
    rw [roundShift, Nat.mul_div_cancel _ hd, shiftFor]
    rcases Nat.eq_zero_or_pos k with rfl | hk0
    · rw [Nat.pow_zero, Nat.mul_one]
      rcases Nat.eq_zero_or_pos c with rfl | hc0
      · simp
      · have := (Nat.log2_lt (by omega)).2 hc
        omega
    · have h1 := hk hk0
      have hpos : 0 < 2 ^ k := Nat.two_pow_pos _
      have hp : 0 < 2 ^ f.fracBits := Nat.two_pow_pos _
      have hne : c * 2 ^ k ≠ 0 := by
        have := Nat.mul_pos (Nat.lt_of_lt_of_le hp h1) hpos
        omega
      have h2 : (c * 2 ^ k).log2 < f.fracBits + 1 + k := by
        rw [Nat.log2_lt hne, Nat.pow_add]
        exact Nat.mul_lt_mul_of_pos_right hc hpos
      have h3 : f.fracBits + k ≤ (c * 2 ^ k).log2 := by
        rw [Nat.le_log2 hne, Nat.pow_add]
        exact Nat.mul_le_mul_right _ h1
      omega
  rw [hu, roundUnits_eq, roundSig, hs, show c * 2 ^ k * d = c * (d * 2 ^ k) by ring,
    divNearestEven_mul _ (Nat.mul_pos hd (Nat.two_pow_pos _))]

/-- A fraction at most the units of a magnitude rounds to at most that magnitude. -/
theorem roundUnits_le (f : FloatFormat) {n d m : Nat} (hd : 0 < d) (h : n ≤ unitsOf f m * d) : roundUnits f n d ≤ m := by
  have := roundUnits_mono f (n := n) (d := d) (n' := unitsOf f m * d) (d' := d) hd hd (Nat.mul_le_mul_right _ h)
  rw [roundUnits_exact f m hd] at this
  omega

/-- A fraction at least the units of a magnitude rounds to at least that magnitude, up to infinity. -/
theorem le_roundUnits (f : FloatFormat) {n d m : Nat} (hd : 0 < d) (hm : m ≤ f.infBits) (h : unitsOf f m * d ≤ n) :
    m ≤ roundUnits f n d := by
  have := roundUnits_mono f (n := unitsOf f m * d) (d := d) (n' := n) (d' := d) hd hd (Nat.mul_le_mul_right _ h)
  rw [roundUnits_exact f m hd] at this
  omega

theorem roundUnits_le_inf (f : FloatFormat) (n d : Nat) : roundUnits f n d ≤ f.infBits := by
  rw [roundUnits_eq]
  exact min_le_right _ _

/-- The magnitude that rounding forms before it is cut at infinity is nearest to the fraction among all magnitudes, and even when
another is as near. -/
theorem roundUncut_nearest (f : FloatFormat) (n : Nat) {d : Nat} (hd : 0 < d) (hf : 0 < f.fracBits) :
    let r := roundShift f n d * 2 ^ f.fracBits + roundSig f n d
    ∀ m : Nat, |((unitsOf f r * d : Nat) : Int) - n| ≤ |((unitsOf f m * d : Nat) : Int) - n| ∧
      (|((unitsOf f m * d : Nat) : Int) - n| = |((unitsOf f r * d : Nat) : Int) - n| → m ≠ r → r % 2 = 0) := by
  intro r m
  have hp : 0 < d * 2 ^ roundShift f n d := Nat.mul_pos hd (Nat.two_pow_pos _)
  obtain ⟨h1, h2⟩ := roundSig_bounds f n hd
  obtain ⟨e1, e2, e3⟩ := divNearestEven_spec n hp
  obtain ⟨-, s2⟩ := shiftFor_spec f (n / d)
  change 0 < roundShift f n d → 2 ^ f.fracBits * 2 ^ roundShift f n d ≤ n / d at s2
  change 2 * n ≤ (2 * roundSig f n d + 1) * _ at e1
  change (2 * roundSig f n d) * _ ≤ 2 * n + _ at e2
  change 2 * n = (2 * roundSig f n d + 1) * _ ∨ (2 * roundSig f n d) * _ = 2 * n + _ → roundSig f n d % 2 = 0 at e3
  have hu : unitsOf f r = roundSig f n d * 2 ^ roundShift f n d := unitsOf_shift f h1 h2
  have hup : ∀ m, r < m → roundSig f n d * 2 ^ roundShift f n d + 2 ^ roundShift f n d ≤ unitsOf f m := by
    intro m hm
    refine Nat.le_trans ?_ ((unitsOf_strictMono f).monotone (Nat.succ_le_of_lt hm))
    rcases Nat.lt_or_ge (roundSig f n d) (2 ^ (f.fracBits + 1)) with hlt | hge
    · have := unitsOf_shift f (k := roundShift f n d) (m := roundSig f n d + 1) (by omega) (fun h => by have := h2 h; omega)
      rw [show r.succ = roundShift f n d * 2 ^ f.fracBits + (roundSig f n d + 1) from rfl, this, Nat.add_mul, Nat.one_mul]
    · have he : roundSig f n d = 2 ^ (f.fracBits + 1) := by omega
      have hq : 2 ≤ 2 ^ f.fracBits := by
        calc 2 = 2 ^ 1 := rfl
          _ ≤ _ := Nat.pow_le_pow_right (by norm_num) hf
      have := unitsOf_shift f (k := roundShift f n d + 1) (m := 2 ^ f.fracBits + 1) (by rw [Nat.pow_succ]; omega) (fun _ => by omega)
      have hr : r.succ = (roundShift f n d + 1) * 2 ^ f.fracBits + (2 ^ f.fracBits + 1) := by
        show roundShift f n d * 2 ^ f.fracBits + roundSig f n d + 1 = _
        rw [he, Nat.pow_succ]; ring
      rw [hr, this, he, Nat.pow_succ, Nat.pow_succ]
      have := Nat.two_pow_pos (roundShift f n d)
      nlinarith
  have hdn : ∀ m, m < r → unitsOf f m + 2 ^ roundShift f n d ≤ roundSig f n d * 2 ^ roundShift f n d ∨
      (unitsOf f m < roundSig f n d * 2 ^ roundShift f n d ∧ roundSig f n d * 2 ^ roundShift f n d * d ≤ n) := by
    intro m hm
    have hle : m ≤ r - 1 := by omega
    have hmono := (unitsOf_strictMono f).monotone hle
    rcases Nat.lt_or_ge (roundSig f n d) (2 ^ f.fracBits + 1) with hlt | hge
    · rcases Nat.eq_zero_or_pos (roundShift f n d) with h0 | h0
      · left
        have hs := (unitsOf_strictMono f) hm
        rw [hu] at hs
        rw [h0, Nat.pow_zero] at *
        omega
      · right
        have hs := (unitsOf_strictMono f) hm
        rw [hu] at hs
        refine ⟨hs, ?_⟩
        have h3 := h2 h0
        have h4 : roundSig f n d = 2 ^ f.fracBits := by omega
        rw [h4]
        calc _ ≤ n / d * d := Nat.mul_le_mul_right _ (s2 h0)
          _ ≤ n := Nat.div_mul_le_self n d
    · left
      have := unitsOf_shift f (k := roundShift f n d) (m := roundSig f n d - 1) (by omega) (fun h => by omega)
      have hr : r - 1 = roundShift f n d * 2 ^ f.fracBits + (roundSig f n d - 1) := by
        show roundShift f n d * 2 ^ f.fracBits + roundSig f n d - 1 = _
        omega
      rw [hr, this] at hmono
      have h5 : (roundSig f n d - 1) * 2 ^ roundShift f n d + 2 ^ roundShift f n d = roundSig f n d * 2 ^ roundShift f n d := by
        rw [← Nat.succ_mul]; congr 1; omega
      omega
  have hpar : roundSig f n d % 2 = 0 → r % 2 = 0 := by
    intro h
    obtain ⟨c, hc⟩ := Nat.exists_eq_succ_of_ne_zero (Nat.pos_iff_ne_zero.1 hf)
    show (roundShift f n d * 2 ^ f.fracBits + roundSig f n d) % 2 = 0
    rw [hc, Nat.pow_succ, ← Nat.mul_assoc]
    omega
  have hm3 : m = r ∨ r < m ∨ m < r := by omega
  have hY : 0 < d * 2 ^ roundShift f n d := hp
  have f1 : (2 * roundSig f n d + 1) * (d * 2 ^ roundShift f n d) =
      2 * (roundSig f n d * 2 ^ roundShift f n d * d) + d * 2 ^ roundShift f n d := by ring
  have f2 : 2 * roundSig f n d * (d * 2 ^ roundShift f n d) = 2 * (roundSig f n d * 2 ^ roundShift f n d * d) := by ring
  rw [f1] at e1 e3
  rw [f2] at e2 e3
  rcases hm3 with rfl | hm | hm
  · exact ⟨le_refl _, fun _ h => absurd rfl h⟩
  · have h5 := Nat.mul_le_mul_right d (hup m hm)
    rw [Nat.add_mul, Nat.mul_comm (2 ^ _) d] at h5
    rw [hu]
    rw [abs_of_nonneg (a := ((unitsOf f m * d : Nat) : Int) - n) (by omega)]
    refine ⟨?_, fun he _ => hpar (e3 ?_)⟩
    · rw [abs_le]; constructor <;> omega
    · rcases abs_cases (((roundSig f n d * 2 ^ roundShift f n d * d : Nat) : Int) - n) with h | h <;> omega
  · rcases hdn m hm with h5 | ⟨h5, h6⟩
    · have h5 := Nat.mul_le_mul_right d h5
      rw [Nat.add_mul, Nat.mul_comm (2 ^ _) d] at h5
      rw [hu]
      rw [abs_of_nonpos (a := ((unitsOf f m * d : Nat) : Int) - n) (by omega)]
      refine ⟨?_, fun he _ => hpar (e3 ?_)⟩
      · rw [abs_le]; constructor <;> omega
      · rcases abs_cases (((roundSig f n d * 2 ^ roundShift f n d * d : Nat) : Int) - n) with h | h <;> omega
    · have h5 := Nat.mul_lt_mul_of_pos_right h5 hd
      rw [hu]
      rw [abs_of_nonpos (a := ((unitsOf f m * d : Nat) : Int) - n) (by omega),
        abs_of_nonpos (a := ((roundSig f n d * 2 ^ roundShift f n d * d : Nat) : Int) - n) (by omega)]
      exact ⟨by omega, fun he => by omega⟩

/-- What rounding can do: the result is finite exactly below the middle of the largest finite magnitude and infinity; a finite result
is nearest to the fraction, and even when another magnitude is as near. -/
theorem roundUnits_spec (f : FloatFormat) (n : Nat) {d : Nat} (hd : 0 < d) (hf : 0 < f.fracBits) (he : 0 < f.expBits) :
    (roundUnits f n d < f.infBits ↔ 2 * n < (unitsOf f (f.infBits - 1) + unitsOf f f.infBits) * d) ∧
    (roundUnits f n d < f.infBits → ∀ m : Nat,
      |((unitsOf f (roundUnits f n d) * d : Nat) : Int) - n| ≤ |((unitsOf f m * d : Nat) : Int) - n| ∧
      (|((unitsOf f m * d : Nat) : Int) - n| = |((unitsOf f (roundUnits f n d) * d : Nat) : Int) - n| → m ≠ roundUnits f n d →
        roundUnits f n d % 2 = 0)) := by
  have h := roundUncut_nearest f n hd hf
  simp only at h
  rw [roundUnits_eq]
  generalize roundShift f n d * 2 ^ f.fracBits + roundSig f n d = r at *
  have hpos : 0 < f.infBits := by
    refine Nat.mul_pos ?_ (Nat.two_pow_pos _)
    have : 2 ^ 1 ≤ 2 ^ f.expBits := Nat.pow_le_pow_right (by norm_num) he
    omega
  have heven : f.infBits % 2 = 0 := by
    obtain ⟨c, hc⟩ := Nat.exists_eq_succ_of_ne_zero (Nat.pos_iff_ne_zero.1 hf)
    rw [FloatFormat.infBits, hc, Nat.pow_succ, ← Nat.mul_assoc]
    omega
  refine ⟨?_, fun hlt => ?_⟩
  · have hmono := (unitsOf_strictMono f)
    have g1 := Nat.mul_lt_mul_of_pos_right (hmono (show f.infBits - 1 < f.infBits by omega)) hd
    rw [Nat.add_mul]
    constructor
    · intro hlt
      have hr : r ≤ f.infBits - 1 := by omega
      have g2 := Nat.mul_le_mul_right d (hmono.monotone hr)
      by_contra hc
      obtain ⟨k1, k2⟩ := h f.infBits
      obtain ⟨k3, -⟩ := h (f.infBits - 1)
      have hne : f.infBits ≠ r := by omega
      have htie : |((unitsOf f f.infBits * d : Nat) : Int) - n| = |((unitsOf f r * d : Nat) : Int) - n| := by
        apply le_antisymm _ k1
        rw [abs_le]
        rcases abs_cases (((unitsOf f r * d : Nat) : Int) - n) with h | h <;> constructor <;> omega
      have hodd := k2 htie hne
      have hrr : r = f.infBits - 1 := by
        by_contra hne2
        have g3 := Nat.mul_lt_mul_of_pos_right (hmono (show r < f.infBits - 1 by omega)) hd
        rcases abs_cases (((unitsOf f r * d : Nat) : Int) - n) with h | h <;>
          rcases abs_cases (((unitsOf f f.infBits * d : Nat) : Int) - n) with h' | h' <;> omega
      omega
    · intro hlt
      by_contra hc
      have hr : f.infBits ≤ r := by omega
      have g2 := Nat.mul_le_mul_right d (hmono.monotone hr)
      obtain ⟨k1, -⟩ := h (f.infBits - 1)
      rcases abs_cases (((unitsOf f r * d : Nat) : Int) - n) with h | h <;>
        rcases abs_cases (((unitsOf f (f.infBits - 1) * d : Nat) : Int) - n) with h' | h' <;> omega
  · rw [Nat.min_eq_left (by omega)]
    exact h

/-- The overflow thresholds of the two formats, in units: twice the middle of the largest finite magnitude and infinity. -/
theorem single_threshold :
    unitsOf single (single.infBits - 1) + unitsOf single single.infBits = 2 * ((2 ^ 128 - 2 ^ 103) * 2 ^ 149) := by decide +kernel

theorem double_threshold :
    unitsOf double (double.infBits - 1) + unitsOf double double.infBits = 2 * ((2 ^ 1024 - 2 ^ 970) * 2 ^ 1074) := by decide +kernel

/-! Rounding to a binary32 word. -/

theorem single_infBits : single.infBits = 2139095040 := by norm_num [single, FloatFormat.infBits]

theorem roundUnits_single_lt (n d : Nat) : roundUnits single n d < 2 ^ 31 := by
  have := roundUnits_le_inf single n d
  rw [single_infBits] at this
  omega

theorem isNaN32_false_iff {x : F32} : isNaN32 x = false ↔ mag32 x ≤ single.infBits := by simp [isNaN32]

theorem isFinite32_iff {x : F32} : isFinite32 x = true ↔ mag32 x < single.infBits := by simp [isFinite32]

theorem isInf32_of_finite {x : F32} (h : isFinite32 x = true) : isInf32 x = false := by
  rw [isFinite32_iff] at h
  simp [isInf32]
  omega

@[simp] theorem sign32_round32 (neg : Bool) (n d : Nat) : sign32 (round32 neg n d) = neg :=
  sign32_pack32 neg (roundUnits_single_lt n d)

@[simp] theorem mag32_round32 (neg : Bool) (n d : Nat) : mag32 (round32 neg n d) = roundUnits single n d :=
  mag32_pack32 neg (roundUnits_single_lt n d)

@[simp] theorem isNaN32_round32 (neg : Bool) (n d : Nat) : isNaN32 (round32 neg n d) = false := by
  rw [isNaN32_false_iff, mag32_round32]
  exact roundUnits_le_inf single n d

theorem key32_round32 (neg : Bool) (n d : Nat) :
    key32 (round32 neg n d) = if neg then -(roundUnits single n d : Int) else (roundUnits single n d : Int) := by
  simp [key32]

/-- The rounded magnitude of a signed number of units, with its sign. -/
def roundSigned (s : Int) (d : Nat) : Int :=
  if s < 0 then -(roundUnits single s.natAbs d : Int) else (roundUnits single s.natAbs d : Int)

theorem roundSigned_le {s : Int} {d : Nat} {z : F32} (hd : 0 < d) (hz : isNaN32 z = false) (h : s ≤ units32 z * d) :
    roundSigned s d ≤ key32 z := by
  rw [isNaN32_false_iff] at hz
  unfold roundSigned key32
  unfold units32 at h
  have hu : (0 : Int) ≤ (unitsOf single (mag32 z) : Int) * d := by positivity
  split at h
  · rename_i hs
    rw [Int.neg_mul] at h
    rw [if_pos hs]
    have hle : mag32 z ≤ roundUnits single s.natAbs d := by
      refine le_roundUnits single hd hz ?_
      zify
      rw [abs_of_nonpos (by omega)]
      linarith
    rcases lt_or_ge s 0 with h0 | h0
    · rw [if_pos h0]
      omega
    · have h2 : s = 0 := by omega
      have h3 : (unitsOf single (mag32 z) : Int) * d = 0 := by omega
      have h4 : roundUnits single s.natAbs d ≤ 0 := by
        refine roundUnits_le single hd ?_
        simp [h2]
      rw [if_neg (by omega)]
      omega
  · rename_i hs
    rw [if_neg hs]
    rcases lt_or_ge s 0 with h0 | h0
    · rw [if_pos h0]
      omega
    · rw [if_neg (by omega)]
      have : roundUnits single s.natAbs d ≤ mag32 z := by
        refine roundUnits_le single hd ?_
        zify
        rwa [abs_of_nonneg h0]
      omega

theorem roundSigned_neg (s : Int) (d : Nat) : roundSigned (-s) d = -roundSigned s d := by
  unfold roundSigned
  rw [Int.natAbs_neg]
  rcases lt_trichotomy s 0 with h | h | h
  · rw [if_neg (by omega), if_pos h]
    omega
  · subst h
    have h4 : roundUnits single 0 d = 0 := by
      rcases Nat.eq_zero_or_pos d with rfl | hd
      · rw [roundUnits_eq]
        simp [roundShift, roundSig, shiftFor, divNearestEven]
      · have : roundUnits single 0 d ≤ 0 := roundUnits_le single hd (by simp)
        omega
    simp [h4]
  · rw [if_pos (by omega), if_neg (by omega)]

theorem le_roundSigned {s : Int} {d : Nat} {z : F32} (hd : 0 < d) (hz : isNaN32 z = false) (h : units32 z * d ≤ s) :
    key32 z ≤ roundSigned s d := by
  have := roundSigned_le (s := -s) (z := fneg32 z) hd (by simpa using hz) (by
    rw [units32_fneg, Int.neg_mul]
    omega)
  rw [roundSigned_neg, key32_fneg] at this
  omega

/-! The sum and the difference of finite words. -/

theorem fadd32_finite {x y : F32} (hx : isFinite32 x = true) (hy : isFinite32 y = true) :
    isNaN32 (fadd32 x y) = false ∧ key32 (fadd32 x y) = roundSigned (units32 x + units32 y) 1 := by
  unfold fadd32 sum32
  simp only [isNaN32_of_finite hx, isNaN32_of_finite hy, isInf32_of_finite hx, isInf32_of_finite hy, Bool.or_self, Bool.false_eq_true,
    if_false]
  split
  · rename_i h0
    rw [h0]
    have hp : mag32 (pack32 (sign32 x && sign32 y) 0) = 0 := mag32_pack32 _ (by norm_num)
    have h4 : roundUnits single 0 1 ≤ 0 := roundUnits_le single one_pos (by simp)
    refine ⟨by simp [isNaN32_false_iff, hp], ?_⟩
    simp only [key32, hp, roundSigned, Int.natAbs_zero]
    split <;> simp <;> omega
  · refine ⟨isNaN32_round32 _ _ _, ?_⟩
    rw [key32_round32, roundSigned]
    simp

theorem fsub32_finite {x y : F32} (hx : isFinite32 x = true) (hy : isFinite32 y = true) :
    isNaN32 (fsub32 x y) = false ∧ key32 (fsub32 x y) = roundSigned (units32 x - units32 y) 1 := by
  have hy' : isFinite32 (fneg32 y) = true := by simpa using hy
  have h := fadd32_finite hx hy'
  unfold fadd32 sum32 at h
  unfold fsub32 sum32
  simp only [isNaN32_of_finite hx, isNaN32_of_finite hy', isInf32_of_finite hx, isInf32_of_finite hy', Bool.or_self,
    Bool.false_eq_true, if_false] at h ⊢
  rw [units32_fneg, ← sub_eq_add_neg] at h
  exact (by simpa [sub_eq_add_neg] using h)

/-- A sum of two finite words is at most every word that is at least the exact sum. -/
theorem fadd32_le {x y z : F32} (hx : isFinite32 x = true) (hy : isFinite32 y = true) (hz : isNaN32 z = false)
    (h : units32 x + units32 y ≤ units32 z) : key32 (fadd32 x y) ≤ key32 z := by
  rw [(fadd32_finite hx hy).2]
  exact roundSigned_le one_pos hz (by simpa using h)

/-- A sum of two finite words is at least every word that is at most the exact sum. -/
theorem le_fadd32 {x y z : F32} (hx : isFinite32 x = true) (hy : isFinite32 y = true) (hz : isNaN32 z = false)
    (h : units32 z ≤ units32 x + units32 y) : key32 z ≤ key32 (fadd32 x y) := by
  rw [(fadd32_finite hx hy).2]
  exact le_roundSigned one_pos hz (by simpa using h)

/-- A difference of two finite words is at most every word that is at least the exact difference. -/
theorem fsub32_le {x y z : F32} (hx : isFinite32 x = true) (hy : isFinite32 y = true) (hz : isNaN32 z = false)
    (h : units32 x - units32 y ≤ units32 z) : key32 (fsub32 x y) ≤ key32 z := by
  rw [(fsub32_finite hx hy).2]
  exact roundSigned_le one_pos hz (by simpa using h)

/-- A difference of two finite words is at least every word that is at most the exact difference. -/
theorem le_fsub32 {x y z : F32} (hx : isFinite32 x = true) (hy : isFinite32 y = true) (hz : isNaN32 z = false)
    (h : units32 z ≤ units32 x - units32 y) : key32 z ≤ key32 (fsub32 x y) := by
  rw [(fsub32_finite hx hy).2]
  exact le_roundSigned one_pos hz (by simpa using h)

/-- The keys order the words as the units do. -/
theorem units32_le_iff {x y : F32} : units32 x ≤ units32 y ↔ key32 x ≤ key32 y := by
  have hm := unitsOf_strictMono single
  have h1 := hm.le_iff_le (a := mag32 x) (b := mag32 y)
  have h2 := hm.le_iff_le (a := mag32 y) (b := mag32 x)
  have h3 := hm.le_iff_le (a := mag32 x) (b := 0)
  have h4 := hm.le_iff_le (a := mag32 y) (b := 0)
  rw [unitsOf_zero] at h3 h4
  unfold units32 key32
  cases sign32 x <;> cases sign32 y <;> simp only [if_true, if_false, Bool.false_eq_true] <;> omega

theorem units32_lt_iff {x y : F32} : units32 x < units32 y ↔ key32 x < key32 y := by
  have := units32_le_iff (x := y) (y := x)
  omega

/-- A binary32 word has the value zero exactly when it counts no units. -/
theorem value32_eq_zero_iff {x : F32} : value32 x = 0 ↔ units32 x = 0 := by simp [value32]

/-- A binary64 word has the value zero exactly when it counts no units. -/
theorem value64_eq_zero_iff {x : F64} : value64 x = 0 ↔ units64 x = 0 := by simp [value64]

end Sys2Proof.Machine
end

