-- ==== Sys2Proof/Laws/Numeric.lean ====
section
/-! SUPPORT. The fields of the two numeric instances, one lemma each: `simp` turns a rule written over `Num` into the primitives of
`B32` or of `REAL` with these. -/

namespace Sys2Proof.Machine

@[simp] theorem b32_fadd : b32.fadd = fadd32 := (rfl)
@[simp] theorem b32_fsub : b32.fsub = fsub32 := (rfl)
@[simp] theorem b32_fmul : b32.fmul = fmul32 := (rfl)
@[simp] theorem b32_fdiv : b32.fdiv = fdiv32 := (rfl)
@[simp] theorem b32_fneg : b32.fneg = fneg32 := (rfl)
@[simp] theorem b32_fabs : b32.fabs = fabs32 := (rfl)
@[simp] theorem b32_flt : b32.flt = flt32 := (rfl)
@[simp] theorem b32_fgt : b32.fgt = fgt32 := (rfl)
@[simp] theorem b32_fle : b32.fle = fle32 := (rfl)
@[simp] theorem b32_fcos : b32.fcos = fcos32 := (rfl)
@[simp] theorem b32_fsin : b32.fsin = fsin32 := (rfl)
@[simp] theorem b32_u2f : b32.u2f = u2f32 := (rfl)
@[simp] theorem b32_s2f : b32.s2f = s2f32 := (rfl)
@[simp] theorem b32_i2d : b32.i2d = i2d64 := (rfl)
@[simp] theorem b32_f2d : b32.f2d = f2d64 := (rfl)
@[simp] theorem b32_d2f : b32.d2f = d2f32 := (rfl)
@[simp] theorem b32_dmul : b32.dmul = dmul64 := (rfl)
@[simp] theorem b32_ddiv : b32.ddiv = ddiv64 := (rfl)
@[simp] theorem b32_zero : b32.zero = zero32 := (rfl)
@[simp] theorem b32_one : b32.one = one32 := (rfl)
@[simp] theorem b32_two : b32.two = two32 := (rfl)
@[simp] theorem b32_negOne : b32.negOne = negOne32 := (rfl)
@[simp] theorem b32_piF : b32.piF = pi32 := (rfl)
@[simp] theorem b32_twoPiF : b32.twoPiF = twoPi32 := (rfl)
@[simp] theorem b32_twoPiD : b32.twoPiD = twoPi64 := (rfl)
@[simp] theorem b32_dec32 : b32.dec32 = dec32 := (rfl)
@[simp] theorem b32_enc32 : b32.enc32 = enc32 := (rfl)
@[simp] theorem b32_enc64 : b32.enc64 = enc64 := (rfl)

@[simp] theorem real_fadd (x y : ℝ) : real.fadd x y = x + y := (rfl)
@[simp] theorem real_fsub (x y : ℝ) : real.fsub x y = x - y := (rfl)
@[simp] theorem real_fmul (x y : ℝ) : real.fmul x y = x * y := (rfl)
@[simp] theorem real_fdiv (x : ℝ) {y : ℝ} (h : y ≠ 0) : real.fdiv x y = x / y := if_neg h
@[simp] theorem real_dmul (x y : ℝ) : real.dmul x y = x * y := (rfl)
@[simp] theorem real_ddiv (x : ℝ) {y : ℝ} (h : y ≠ 0) : real.ddiv x y = x / y := if_neg h
@[simp] theorem real_flt (x y : ℝ) : real.flt x y = decide (x < y) := (rfl)
@[simp] theorem real_fgt (x y : ℝ) : real.fgt x y = decide (y < x) := (rfl)
@[simp] theorem real_fle (x y : ℝ) : real.fle x y = decide (x ≤ y) := (rfl)
@[simp] theorem real_fneg (x : ℝ) : real.fneg x = -x := (rfl)
@[simp] theorem real_fabs (x : ℝ) : real.fabs x = |x| := (rfl)
@[simp] theorem real_fcos (x : ℝ) : real.fcos x = Real.cos x := (rfl)
@[simp] theorem real_fsin (x : ℝ) : real.fsin x = Real.sin x := (rfl)
@[simp] theorem real_f2d (x : ℝ) : real.f2d x = x := (rfl)
@[simp] theorem real_d2f (x : ℝ) : real.d2f x = x := (rfl)
@[simp] theorem real_u2f (n : U32) : real.u2f n = (n.toNat : ℝ) := (rfl)
@[simp] theorem real_s2f (d : Sign) : real.s2f d = (d.toInt : ℝ) := (rfl)
@[simp] theorem real_i2d (p : U64) : real.i2d p = (p.toInt : ℝ) := (rfl)
@[simp] theorem real_zero : real.zero = 0 := (rfl)
@[simp] theorem real_one : real.one = 1 := (rfl)
@[simp] theorem real_two : real.two = 2 := (rfl)
@[simp] theorem real_negOne : real.negOne = -1 := (rfl)
@[simp] theorem real_piF : real.piF = Real.pi := (rfl)
@[simp] theorem real_twoPiF : real.twoPiF = 2 * Real.pi := (rfl)
@[simp] theorem real_twoPiD : real.twoPiD = 2 * Real.pi := (rfl)
@[simp] theorem real_dec32 (word : U32) : real.dec32 word = realOfWord word := (rfl)
@[simp] theorem real_enc32 (x : ℝ) : real.enc32 x = Config.realEnc32 x := (rfl)
@[simp] theorem real_enc64 (x : ℝ) : real.enc64 x = Config.realEnc64 x := (rfl)

/-- A finite operand word stands for its value under `REAL`. -/
theorem realOfWord_finite {word : U32} (h : isFinite32 word = true) : realOfWord word = ((value32 word : ℚ) : ℝ) := if_pos h

/-! The transport codecs are the identity on words (R8). -/

@[simp] theorem dec32_eq (x : U32) : dec32 x = x := (rfl)
@[simp] theorem enc32_eq (x : F32) : enc32 x = x := (rfl)
@[simp] theorem enc64_eq (x : F64) : enc64 x = x := (rfl)

/-! The two branches of the odometry update (R181) under `B32`. -/

theorem headingAfter_straight {n : Nat} {eps th0 dTh : F32} (h : flt32 (fabs32 dTh) eps = true) :
    headingAfter b32 n eps th0 dTh = some th0 :=
  if_pos h

theorem headingAfter_arc {n : Nat} {eps th0 dTh : F32} (h : flt32 (fabs32 dTh) eps = false) :
    headingAfter b32 n eps th0 dTh = normalize b32 n (fadd32 th0 dTh) :=
  if_neg (fun hc => Bool.false_ne_true (h.symm.trans hc))

theorem travelHeading_straight {eps th0 dTh : F32} (h : flt32 (fabs32 dTh) eps = true) : travelHeading b32 eps th0 dTh = th0 :=
  if_pos h

theorem travelHeading_arc {eps th0 dTh : F32} (h : flt32 (fabs32 dTh) eps = false) :
    travelHeading b32 eps th0 dTh = fadd32 th0 (fdiv32 dTh two32) :=
  if_neg (fun hc => Bool.false_ne_true (h.symm.trans hc))

end Sys2Proof.Machine
end

