-- ==== Sys2Proof/Laws/State.lean ====
section
/-! SUPPORT. One lemma per field per update of the state, each true by `rfl`, and the laws of the wheel banks: no later proof unfolds
a record update. -/

namespace Sys2Proof.Machine

section banks

variable {α : Type} (b : Bank α) (w : Wheel) (x y : α)

@[simp] theorem bank_get_left : b.get .left = b.left := rfl
@[simp] theorem bank_get_right : b.get .right = b.right := rfl
@[simp] theorem bank_set_left : b.set .left x = { left := x, right := b.right } := rfl
@[simp] theorem bank_set_right : b.set .right x = { left := b.left, right := x } := rfl
@[simp] theorem bank_both_get : (Bank.both x).get w = x := by cases w <;> rfl
@[simp] theorem bank_get_set : (b.set w x).get w = x := by cases w <;> rfl
@[simp] theorem bank_get_set_other : (b.set w x).get w.other = b.get w.other := by cases w <;> rfl
@[simp] theorem bank_set_set : (b.set w x).set w y = b.set w y := by cases w <;> rfl
@[simp] theorem bank_set_get : b.set w (b.get w) = b := by cases w <;> rfl
@[simp] theorem wheel_other_other : w.other.other = w := by cases w <;> rfl
theorem wheel_other_ne : w.other ≠ w := by cases w <;> decide
theorem bank_get_set_of_ne (v : Wheel) (h : v ≠ w) : (b.set w x).get v = b.get v := by
  cases v <;> cases w <;> first | rfl | exact absurd rfl h
theorem bank_ext (c : Bank α) (h : ∀ w : Wheel, b.get w = c.get w) : b = c := by
  cases b; cases c; exact congr (congrArg _ (h .left)) (h .right)

end banks

section updates

variable (s : State)

@[simp] theorem reply_enc (r : Response) : (s.reply r).enc = s.enc := rfl
@[simp] theorem reply_spd (r : Response) : (s.reply r).spd = s.spd := rfl
@[simp] theorem reply_kf (r : Response) : (s.reply r).kf = s.kf := rfl
@[simp] theorem reply_pid (r : Response) : (s.reply r).pid = s.pid := rfl
@[simp] theorem reply_duty (r : Response) : (s.reply r).duty = s.duty := rfl
@[simp] theorem reply_pose (r : Response) : (s.reply r).pose = s.pose := rfl
@[simp] theorem reply_odo (r : Response) : (s.reply r).odo = s.odo := rfl
@[simp] theorem reply_geo (r : Response) : (s.reply r).geo = s.geo := rfl
@[simp] theorem reply_cfg (r : Response) : (s.reply r).cfg = s.cfg := rfl
@[simp] theorem reply_resetPort (r : Response) : (s.reply r).resetPort = s.resetPort := rfl
@[simp] theorem reply_evtPort (r : Response) : (s.reply r).evtPort = s.evtPort := rfl
@[simp] theorem reply_cmdPort (r : Response) : (s.reply r).cmdPort = s.cmdPort := rfl
@[simp] theorem reply_response (r : Response) : (s.reply r).response = some r := rfl
@[simp] theorem reply_emitted (r : Response) : (s.reply r).emitted = [] := rfl
@[simp] theorem reply_hung (r : Response) : (s.reply r).hung = s.hung := rfl
@[simp] theorem reply_illTimed (r : Response) : (s.reply r).illTimed = s.illTimed := rfl
@[simp] theorem reply_accepted (r : Response) : (s.reply r).accepted = s.accepted := rfl
@[simp] theorem reply_session (r : Response) : (s.reply r).session = s.session := rfl

@[simp] theorem silent_enc : (s.silent).enc = s.enc := rfl
@[simp] theorem silent_spd : (s.silent).spd = s.spd := rfl
@[simp] theorem silent_kf : (s.silent).kf = s.kf := rfl
@[simp] theorem silent_pid : (s.silent).pid = s.pid := rfl
@[simp] theorem silent_duty : (s.silent).duty = s.duty := rfl
@[simp] theorem silent_pose : (s.silent).pose = s.pose := rfl
@[simp] theorem silent_odo : (s.silent).odo = s.odo := rfl
@[simp] theorem silent_geo : (s.silent).geo = s.geo := rfl
@[simp] theorem silent_cfg : (s.silent).cfg = s.cfg := rfl
@[simp] theorem silent_resetPort : (s.silent).resetPort = s.resetPort := rfl
@[simp] theorem silent_evtPort : (s.silent).evtPort = s.evtPort := rfl
@[simp] theorem silent_cmdPort : (s.silent).cmdPort = s.cmdPort := rfl
@[simp] theorem silent_response : (s.silent).response = none := rfl
@[simp] theorem silent_emitted : (s.silent).emitted = [] := rfl
@[simp] theorem silent_hung : (s.silent).hung = s.hung := rfl
@[simp] theorem silent_illTimed : (s.silent).illTimed = s.illTimed := rfl
@[simp] theorem silent_accepted : (s.silent).accepted = s.accepted := rfl
@[simp] theorem silent_session : (s.silent).session = s.session := rfl

@[simp] theorem hang_enc : (s.hang).enc = s.enc := rfl
@[simp] theorem hang_spd : (s.hang).spd = s.spd := rfl
@[simp] theorem hang_kf : (s.hang).kf = s.kf := rfl
@[simp] theorem hang_pid : (s.hang).pid = s.pid := rfl
@[simp] theorem hang_duty : (s.hang).duty = s.duty := rfl
@[simp] theorem hang_pose : (s.hang).pose = s.pose := rfl
@[simp] theorem hang_odo : (s.hang).odo = s.odo := rfl
@[simp] theorem hang_geo : (s.hang).geo = s.geo := rfl
@[simp] theorem hang_cfg : (s.hang).cfg = s.cfg := rfl
@[simp] theorem hang_resetPort : (s.hang).resetPort = s.resetPort := rfl
@[simp] theorem hang_evtPort : (s.hang).evtPort = s.evtPort := rfl
@[simp] theorem hang_cmdPort : (s.hang).cmdPort = s.cmdPort := rfl
@[simp] theorem hang_response : (s.hang).response = none := rfl
@[simp] theorem hang_emitted : (s.hang).emitted = [] := rfl
@[simp] theorem hang_hung : (s.hang).hung = true := rfl
@[simp] theorem hang_illTimed : (s.hang).illTimed = s.illTimed := rfl
@[simp] theorem hang_accepted : (s.hang).accepted = s.accepted := rfl
@[simp] theorem hang_session : (s.hang).session = s.session := rfl

@[simp] theorem filterStep_enc (w : Wheel) (z : F32) : (s.filterStep w z).enc = s.enc := rfl
@[simp] theorem filterStep_spd (w : Wheel) (z : F32) : (s.filterStep w z).spd = s.spd := rfl
@[simp] theorem filterStep_kf (w : Wheel) (z : F32) : (s.filterStep w z).kf = s.kf.set w (kalmanUpdate b32 (s.kf.get w) z) := rfl
@[simp] theorem filterStep_pid (w : Wheel) (z : F32) : (s.filterStep w z).pid = s.pid := rfl
@[simp] theorem filterStep_duty (w : Wheel) (z : F32) : (s.filterStep w z).duty = s.duty := rfl
@[simp] theorem filterStep_pose (w : Wheel) (z : F32) : (s.filterStep w z).pose = s.pose := rfl
@[simp] theorem filterStep_odo (w : Wheel) (z : F32) : (s.filterStep w z).odo = s.odo := rfl
@[simp] theorem filterStep_geo (w : Wheel) (z : F32) : (s.filterStep w z).geo = s.geo := rfl
@[simp] theorem filterStep_cfg (w : Wheel) (z : F32) : (s.filterStep w z).cfg = s.cfg := rfl
@[simp] theorem filterStep_resetPort (w : Wheel) (z : F32) : (s.filterStep w z).resetPort = s.resetPort := rfl
@[simp] theorem filterStep_evtPort (w : Wheel) (z : F32) : (s.filterStep w z).evtPort = s.evtPort := rfl
@[simp] theorem filterStep_cmdPort (w : Wheel) (z : F32) : (s.filterStep w z).cmdPort = s.cmdPort := rfl
@[simp] theorem filterStep_response (w : Wheel) (z : F32) : (s.filterStep w z).response = s.response := rfl
@[simp] theorem filterStep_emitted (w : Wheel) (z : F32) : (s.filterStep w z).emitted = s.emitted := rfl
@[simp] theorem filterStep_hung (w : Wheel) (z : F32) : (s.filterStep w z).hung = s.hung := rfl
@[simp] theorem filterStep_illTimed (w : Wheel) (z : F32) : (s.filterStep w z).illTimed = s.illTimed := rfl
@[simp] theorem filterStep_accepted (w : Wheel) (z : F32) : (s.filterStep w z).accepted = s.accepted := rfl
@[simp] theorem filterStep_session (w : Wheel) (z : F32) : (s.filterStep w z).session = s.session := rfl

@[simp] theorem controlStep_enc (w : Wheel) (m : F32) : (s.controlStep w m).enc = s.enc := rfl
@[simp] theorem controlStep_spd (w : Wheel) (m : F32) : (s.controlStep w m).spd = s.spd := rfl
@[simp] theorem controlStep_kf (w : Wheel) (m : F32) : (s.controlStep w m).kf = s.kf := rfl
@[simp] theorem controlStep_pid (w : Wheel) (m : F32) : (s.controlStep w m).pid = s.pid.set w (pidAfter b32 s.cfg.maxSumError (s.pid.get w) m) := rfl
@[simp] theorem controlStep_duty (w : Wheel) (m : F32) : (s.controlStep w m).duty = s.duty := rfl
@[simp] theorem controlStep_pose (w : Wheel) (m : F32) : (s.controlStep w m).pose = s.pose := rfl
@[simp] theorem controlStep_odo (w : Wheel) (m : F32) : (s.controlStep w m).odo = s.odo := rfl
@[simp] theorem controlStep_geo (w : Wheel) (m : F32) : (s.controlStep w m).geo = s.geo := rfl
@[simp] theorem controlStep_cfg (w : Wheel) (m : F32) : (s.controlStep w m).cfg = s.cfg := rfl
@[simp] theorem controlStep_resetPort (w : Wheel) (m : F32) : (s.controlStep w m).resetPort = s.resetPort := rfl
@[simp] theorem controlStep_evtPort (w : Wheel) (m : F32) : (s.controlStep w m).evtPort = s.evtPort := rfl
@[simp] theorem controlStep_cmdPort (w : Wheel) (m : F32) : (s.controlStep w m).cmdPort = s.cmdPort := rfl
@[simp] theorem controlStep_response (w : Wheel) (m : F32) : (s.controlStep w m).response = s.response := rfl
@[simp] theorem controlStep_emitted (w : Wheel) (m : F32) : (s.controlStep w m).emitted = s.emitted := rfl
@[simp] theorem controlStep_hung (w : Wheel) (m : F32) : (s.controlStep w m).hung = s.hung := rfl
@[simp] theorem controlStep_illTimed (w : Wheel) (m : F32) : (s.controlStep w m).illTimed = s.illTimed := rfl
@[simp] theorem controlStep_accepted (w : Wheel) (m : F32) : (s.controlStep w m).accepted = s.accepted := rfl
@[simp] theorem controlStep_session (w : Wheel) (m : F32) : (s.controlStep w m).session = s.session := rfl

@[simp] theorem setSetpoint_enc (w : Wheel) (x : F32) : (s.setSetpoint w x).enc = s.enc := rfl
@[simp] theorem setSetpoint_spd (w : Wheel) (x : F32) : (s.setSetpoint w x).spd = s.spd := rfl
@[simp] theorem setSetpoint_kf (w : Wheel) (x : F32) : (s.setSetpoint w x).kf = s.kf := rfl
@[simp] theorem setSetpoint_pid (w : Wheel) (x : F32) : (s.setSetpoint w x).pid = s.pid.set w { s.pid.get w with setpoint := x } := rfl
@[simp] theorem setSetpoint_duty (w : Wheel) (x : F32) : (s.setSetpoint w x).duty = s.duty := rfl
@[simp] theorem setSetpoint_pose (w : Wheel) (x : F32) : (s.setSetpoint w x).pose = s.pose := rfl
@[simp] theorem setSetpoint_odo (w : Wheel) (x : F32) : (s.setSetpoint w x).odo = s.odo := rfl
@[simp] theorem setSetpoint_geo (w : Wheel) (x : F32) : (s.setSetpoint w x).geo = s.geo := rfl
@[simp] theorem setSetpoint_cfg (w : Wheel) (x : F32) : (s.setSetpoint w x).cfg = s.cfg := rfl
@[simp] theorem setSetpoint_resetPort (w : Wheel) (x : F32) : (s.setSetpoint w x).resetPort = s.resetPort := rfl
@[simp] theorem setSetpoint_evtPort (w : Wheel) (x : F32) : (s.setSetpoint w x).evtPort = s.evtPort := rfl
@[simp] theorem setSetpoint_cmdPort (w : Wheel) (x : F32) : (s.setSetpoint w x).cmdPort = s.cmdPort := rfl
@[simp] theorem setSetpoint_response (w : Wheel) (x : F32) : (s.setSetpoint w x).response = s.response := rfl
@[simp] theorem setSetpoint_emitted (w : Wheel) (x : F32) : (s.setSetpoint w x).emitted = s.emitted := rfl
@[simp] theorem setSetpoint_hung (w : Wheel) (x : F32) : (s.setSetpoint w x).hung = s.hung := rfl
@[simp] theorem setSetpoint_illTimed (w : Wheel) (x : F32) : (s.setSetpoint w x).illTimed = s.illTimed := rfl
@[simp] theorem setSetpoint_accepted (w : Wheel) (x : F32) : (s.setSetpoint w x).accepted = s.accepted := rfl
@[simp] theorem setSetpoint_session (w : Wheel) (x : F32) : (s.setSetpoint w x).session = s.session := rfl

@[simp] theorem setDuty_enc (w : Wheel) (d : F32) : (s.setDuty w d).enc = s.enc := rfl
@[simp] theorem setDuty_spd (w : Wheel) (d : F32) : (s.setDuty w d).spd = s.spd := rfl
@[simp] theorem setDuty_kf (w : Wheel) (d : F32) : (s.setDuty w d).kf = s.kf := rfl
@[simp] theorem setDuty_pid (w : Wheel) (d : F32) : (s.setDuty w d).pid = s.pid := rfl
@[simp] theorem setDuty_duty (w : Wheel) (d : F32) : (s.setDuty w d).duty = s.duty.set w d := rfl
@[simp] theorem setDuty_pose (w : Wheel) (d : F32) : (s.setDuty w d).pose = s.pose := rfl
@[simp] theorem setDuty_odo (w : Wheel) (d : F32) : (s.setDuty w d).odo = s.odo := rfl
@[simp] theorem setDuty_geo (w : Wheel) (d : F32) : (s.setDuty w d).geo = s.geo := rfl
@[simp] theorem setDuty_cfg (w : Wheel) (d : F32) : (s.setDuty w d).cfg = s.cfg := rfl
@[simp] theorem setDuty_resetPort (w : Wheel) (d : F32) : (s.setDuty w d).resetPort = s.resetPort := rfl
@[simp] theorem setDuty_evtPort (w : Wheel) (d : F32) : (s.setDuty w d).evtPort = s.evtPort := rfl
@[simp] theorem setDuty_cmdPort (w : Wheel) (d : F32) : (s.setDuty w d).cmdPort = s.cmdPort := rfl
@[simp] theorem setDuty_response (w : Wheel) (d : F32) : (s.setDuty w d).response = s.response := rfl
@[simp] theorem setDuty_emitted (w : Wheel) (d : F32) : (s.setDuty w d).emitted = s.emitted ++ [{ wheel := w, duty := d }] := rfl
@[simp] theorem setDuty_hung (w : Wheel) (d : F32) : (s.setDuty w d).hung = s.hung := rfl
@[simp] theorem setDuty_illTimed (w : Wheel) (d : F32) : (s.setDuty w d).illTimed = s.illTimed := rfl
@[simp] theorem setDuty_accepted (w : Wheel) (d : F32) : (s.setDuty w d).accepted = s.accepted := rfl
@[simp] theorem setDuty_session (w : Wheel) (d : F32) : (s.setDuty w d).session = s.session := rfl

@[simp] theorem capture_enc (w : Wheel) (d : Sign) (cnt : U32) : (s.capture w d cnt).enc = s.enc.set w (captureEncoder (s.enc.get w) d cnt) := rfl
@[simp] theorem capture_spd (w : Wheel) (d : Sign) (cnt : U32) : (s.capture w d cnt).spd = s.spd.set w (captureSample (completesInterval (s.enc.get w) cnt) (captureSpeed s w d cnt) (s.spd.get w)) := rfl
@[simp] theorem capture_kf (w : Wheel) (d : Sign) (cnt : U32) : (s.capture w d cnt).kf = s.kf := rfl
@[simp] theorem capture_pid (w : Wheel) (d : Sign) (cnt : U32) : (s.capture w d cnt).pid = s.pid := rfl
@[simp] theorem capture_duty (w : Wheel) (d : Sign) (cnt : U32) : (s.capture w d cnt).duty = s.duty := rfl
@[simp] theorem capture_pose (w : Wheel) (d : Sign) (cnt : U32) : (s.capture w d cnt).pose = s.pose := rfl
@[simp] theorem capture_odo (w : Wheel) (d : Sign) (cnt : U32) : (s.capture w d cnt).odo = s.odo := rfl
@[simp] theorem capture_geo (w : Wheel) (d : Sign) (cnt : U32) : (s.capture w d cnt).geo = s.geo := rfl
@[simp] theorem capture_cfg (w : Wheel) (d : Sign) (cnt : U32) : (s.capture w d cnt).cfg = s.cfg := rfl
@[simp] theorem capture_resetPort (w : Wheel) (d : Sign) (cnt : U32) : (s.capture w d cnt).resetPort = s.resetPort := rfl
@[simp] theorem capture_evtPort (w : Wheel) (d : Sign) (cnt : U32) : (s.capture w d cnt).evtPort = s.evtPort := rfl
@[simp] theorem capture_cmdPort (w : Wheel) (d : Sign) (cnt : U32) : (s.capture w d cnt).cmdPort = s.cmdPort := rfl
@[simp] theorem capture_response (w : Wheel) (d : Sign) (cnt : U32) : (s.capture w d cnt).response = s.response := rfl
@[simp] theorem capture_emitted (w : Wheel) (d : Sign) (cnt : U32) : (s.capture w d cnt).emitted = s.emitted := rfl
@[simp] theorem capture_hung (w : Wheel) (d : Sign) (cnt : U32) : (s.capture w d cnt).hung = s.hung := rfl
@[simp] theorem capture_illTimed (w : Wheel) (d : Sign) (cnt : U32) : (s.capture w d cnt).illTimed = s.illTimed.set w (!captureWellTimed s.cfg.timerPeriod (s.enc.get w).lastCaptureCounter cnt) := rfl
@[simp] theorem capture_accepted (w : Wheel) (d : Sign) (cnt : U32) : (s.capture w d cnt).accepted = s.accepted := rfl
@[simp] theorem capture_session (w : Wheel) (d : Sign) (cnt : U32) : (s.capture w d cnt).session = s.session := rfl

@[simp] theorem overflow_enc (w : Wheel) : (s.overflow w).enc = s.enc.set w (overflowEncoder s.cfg.timerPeriod s.cfg.stallMult (s.enc.get w)) := rfl
@[simp] theorem overflow_spd (w : Wheel) : (s.overflow w).spd = s.spd.set w (overflowSample b32 (stalls s.cfg.timerPeriod s.cfg.stallMult (s.enc.get w)) (s.spd.get w)) := rfl
@[simp] theorem overflow_kf (w : Wheel) : (s.overflow w).kf = s.kf := rfl
@[simp] theorem overflow_pid (w : Wheel) : (s.overflow w).pid = s.pid := rfl
@[simp] theorem overflow_duty (w : Wheel) : (s.overflow w).duty = s.duty := rfl
@[simp] theorem overflow_pose (w : Wheel) : (s.overflow w).pose = s.pose := rfl
@[simp] theorem overflow_odo (w : Wheel) : (s.overflow w).odo = s.odo := rfl
@[simp] theorem overflow_geo (w : Wheel) : (s.overflow w).geo = s.geo := rfl
@[simp] theorem overflow_cfg (w : Wheel) : (s.overflow w).cfg = s.cfg := rfl
@[simp] theorem overflow_resetPort (w : Wheel) : (s.overflow w).resetPort = s.resetPort := rfl
@[simp] theorem overflow_evtPort (w : Wheel) : (s.overflow w).evtPort = s.evtPort := rfl
@[simp] theorem overflow_cmdPort (w : Wheel) : (s.overflow w).cmdPort = s.cmdPort := rfl
@[simp] theorem overflow_response (w : Wheel) : (s.overflow w).response = s.response := rfl
@[simp] theorem overflow_emitted (w : Wheel) : (s.overflow w).emitted = s.emitted := rfl
@[simp] theorem overflow_hung (w : Wheel) : (s.overflow w).hung = s.hung := rfl
@[simp] theorem overflow_illTimed (w : Wheel) : (s.overflow w).illTimed = s.illTimed := rfl
@[simp] theorem overflow_accepted (w : Wheel) : (s.overflow w).accepted = s.accepted := rfl
@[simp] theorem overflow_session (w : Wheel) : (s.overflow w).session = s.session := rfl

@[simp] theorem dropRequest_enc (p : Port) : (s.dropRequest p).enc = s.enc := by cases p <;> rfl
@[simp] theorem dropRequest_spd (p : Port) : (s.dropRequest p).spd = s.spd := by cases p <;> rfl
@[simp] theorem dropRequest_kf (p : Port) : (s.dropRequest p).kf = s.kf := by cases p <;> rfl
@[simp] theorem dropRequest_pid (p : Port) : (s.dropRequest p).pid = s.pid := by cases p <;> rfl
@[simp] theorem dropRequest_duty (p : Port) : (s.dropRequest p).duty = s.duty := by cases p <;> rfl
@[simp] theorem dropRequest_pose (p : Port) : (s.dropRequest p).pose = s.pose := by cases p <;> rfl
@[simp] theorem dropRequest_odo (p : Port) : (s.dropRequest p).odo = s.odo := by cases p <;> rfl
@[simp] theorem dropRequest_geo (p : Port) : (s.dropRequest p).geo = s.geo := by cases p <;> rfl
@[simp] theorem dropRequest_cfg (p : Port) : (s.dropRequest p).cfg = s.cfg := by cases p <;> rfl
@[simp] theorem dropRequest_resetPort (p : Port) : (s.dropRequest p).resetPort = s.resetPort := by cases p <;> rfl
@[simp] theorem dropRequest_response (p : Port) : (s.dropRequest p).response = s.response := by cases p <;> rfl
@[simp] theorem dropRequest_emitted (p : Port) : (s.dropRequest p).emitted = s.emitted := by cases p <;> rfl
@[simp] theorem dropRequest_hung (p : Port) : (s.dropRequest p).hung = s.hung := by cases p <;> rfl
@[simp] theorem dropRequest_illTimed (p : Port) : (s.dropRequest p).illTimed = s.illTimed := by cases p <;> rfl
@[simp] theorem dropRequest_session (p : Port) : (s.dropRequest p).session = s.session := by cases p <;> rfl
@[simp] theorem dropRequest_accepted (p : Port) : (s.dropRequest p).accepted = s.accepted + 1 := by cases p <;> rfl
@[simp] theorem dropRequest_evt_evtPort : (s.dropRequest .evt).evtPort = s.evtPort.tail := rfl
@[simp] theorem dropRequest_evt_cmdPort : (s.dropRequest .evt).cmdPort = s.cmdPort := rfl
@[simp] theorem dropRequest_cmd_evtPort : (s.dropRequest .cmd).evtPort = s.evtPort := rfl
@[simp] theorem dropRequest_cmd_cmdPort : (s.dropRequest .cmd).cmdPort = s.cmdPort.tail := rfl

@[simp] theorem boot_enc (read : Nat → U32) (n k : Nat) : (State.boot read n k).enc = Bank.both Encoder.atReset := rfl
@[simp] theorem boot_spd (read : Nat → U32) (n k : Nat) : (State.boot read n k).spd = Bank.both (SpeedSample.stopped b32) := rfl
@[simp] theorem boot_kf (read : Nat → U32) (n k : Nat) : (State.boot read n k).kf = kalmanAtReset (loadCfg read) := rfl
@[simp] theorem boot_pid (read : Nat → U32) (n k : Nat) : (State.boot read n k).pid = pidAtReset (loadCfg read) := rfl
@[simp] theorem boot_duty (read : Nat → U32) (n k : Nat) : (State.boot read n k).duty = Bank.both b32.zero := rfl
@[simp] theorem boot_pose (read : Nat → U32) (n k : Nat) : (State.boot read n k).pose = Pose.origin b32 := rfl
@[simp] theorem boot_odo (read : Nat → U32) (n k : Nat) : (State.boot read n k).odo = Odometry.atReset b32 := rfl
@[simp] theorem boot_geo (read : Nat → U32) (n k : Nat) : (State.boot read n k).geo = Geometry.ofCfg (loadCfg read) := rfl
@[simp] theorem boot_cfg (read : Nat → U32) (n k : Nat) : (State.boot read n k).cfg = loadCfg read := rfl
@[simp] theorem boot_resetPort (read : Nat → U32) (n k : Nat) : (State.boot read n k).resetPort = false := rfl
@[simp] theorem boot_evtPort (read : Nat → U32) (n k : Nat) : (State.boot read n k).evtPort = [] := rfl
@[simp] theorem boot_cmdPort (read : Nat → U32) (n k : Nat) : (State.boot read n k).cmdPort = [] := rfl
@[simp] theorem boot_response (read : Nat → U32) (n k : Nat) : (State.boot read n k).response = none := rfl
@[simp] theorem boot_emitted (read : Nat → U32) (n k : Nat) : (State.boot read n k).emitted = [] := rfl
@[simp] theorem boot_hung (read : Nat → U32) (n k : Nat) : (State.boot read n k).hung = false := rfl
@[simp] theorem boot_illTimed (read : Nat → U32) (n k : Nat) : (State.boot read n k).illTimed = Bank.both false := rfl
@[simp] theorem boot_accepted (read : Nat → U32) (n k : Nat) : (State.boot read n k).accepted = n := rfl
@[simp] theorem boot_session (read : Nat → U32) (n k : Nat) : (State.boot read n k).session = k := rfl

end updates

section elements

variable {F D : Type} (N : Num F D)

@[simp] theorem captureEncoder_position (e : Encoder) (d : Sign) (cnt : U32) :
    (captureEncoder e d cnt).position = e.position + BitVec.ofInt 64 d.toInt := rfl
@[simp] theorem captureEncoder_lastCaptureCounter (e : Encoder) (d : Sign) (cnt : U32) :
    (captureEncoder e d cnt).lastCaptureCounter = cnt := rfl
@[simp] theorem captureEncoder_intervalAccumulator (e : Encoder) (d : Sign) (cnt : U32) :
    (captureEncoder e d cnt).intervalAccumulator = 0#32 := rfl
@[simp] theorem captureEncoder_direction (e : Encoder) (d : Sign) (cnt : U32) : (captureEncoder e d cnt).direction = d := rfl
@[simp] theorem captureEncoder_intervalValid (e : Encoder) (d : Sign) (cnt : U32) : (captureEncoder e d cnt).intervalValid = true :=
  rfl
@[simp] theorem overflowEncoder_position (tp sm : U32) (e : Encoder) : (overflowEncoder tp sm e).position = e.position := by
  unfold overflowEncoder; split <;> rfl
@[simp] theorem overflowEncoder_direction (tp sm : U32) (e : Encoder) : (overflowEncoder tp sm e).direction = e.direction := by
  unfold overflowEncoder; split <;> rfl
@[simp] theorem overflowEncoder_lastCaptureCounter (tp sm : U32) (e : Encoder) :
    (overflowEncoder tp sm e).lastCaptureCounter = 0#32 := by
  unfold overflowEncoder; split <;> rfl
@[simp] theorem kalmanUpdate_gain (k : Kalman F) (z : F) : (kalmanUpdate N k z).gain = N.fdiv k.p (N.fadd k.p k.r) := rfl
@[simp] theorem kalmanUpdate_r (k : Kalman F) (z : F) : (kalmanUpdate N k z).r = k.r := rfl
@[simp] theorem kalmanUpdate_q (k : Kalman F) (z : F) : (kalmanUpdate N k z).q = k.q := rfl
@[simp] theorem pidAfter_kP (M : F) (c : Pid F) (m : F) : (pidAfter N M c m).kP = c.kP := rfl
@[simp] theorem pidAfter_kI (M : F) (c : Pid F) (m : F) : (pidAfter N M c m).kI = c.kI := rfl
@[simp] theorem pidAfter_kD (M : F) (c : Pid F) (m : F) : (pidAfter N M c m).kD = c.kD := rfl
@[simp] theorem pidAfter_setpoint (M : F) (c : Pid F) (m : F) : (pidAfter N M c m).setpoint = c.setpoint := rfl
@[simp] theorem pidAfter_integral (M : F) (c : Pid F) (m : F) : (pidAfter N M c m).integral = pidIntegral N M c m := rfl
@[simp] theorem pidAfter_lastError (M : F) (c : Pid F) (m : F) : (pidAfter N M c m).lastError = N.fsub c.setpoint m := rfl
@[simp] theorem poseAfter_theta (eps : F) (p : Pose F) (dS dTh dt th1 : F) : (poseAfter N eps p dS dTh dt th1).theta = th1 := rfl
@[simp] theorem odometryAfter_available (lin : Bank F) : (odometryAfter lin).available = true := rfl
@[simp] theorem odometryAfter_baselined (lin : Bank F) : (odometryAfter lin).baselined = true := rfl
@[simp] theorem odometryAfter_lastLin (lin : Bank F) : (odometryAfter lin).lastLin = lin := rfl

end elements

end Sys2Proof.Machine
end

