-- ==== Sys2Proof/Laws/Ops.lean ====
section
/-! SUPPORT. What each shared operation can do, said once: wheel ids, accepting a request, the step, the clamp, the encoder, the
heading and the odometry update. Later proofs cite these and do not unfold the operations. -/

namespace Sys2Proof.Machine

/-! Wheel ids (R12, R87). -/

@[simp] theorem wheelOf_zero : wheelOf 0#8 = some .left := rfl
@[simp] theorem wheelOf_one : wheelOf 1#8 = some .right := rfl
@[simp] theorem wheelOf_widOf (w : Wheel) : wheelOf (widOf w) = some w := by cases w <;> rfl

theorem validWheel_iff {wid : U8} : validWheel wid = true ↔ wid = 0#8 ∨ wid = 1#8 := by
  unfold validWheel
  rw [Bool.or_eq_true, beq_iff_eq, beq_iff_eq]

theorem wheelOf_out_of_range {wid : U8} (h0 : wid ≠ 0#8) (h1 : wid ≠ 1#8) : wheelOf wid = none :=
  if_neg fun h => (validWheel_iff.1 h).elim h0 h1

theorem wheelOf_some {wid : U8} {w : Wheel} (h : wheelOf wid = some w) : wid = widOf w := by
  unfold wheelOf at h
  split at h
  · rename_i hv
    split at h
    · cases h
      assumption
    · rename_i h0
      cases h
      exact (validWheel_iff.1 hv).resolve_left h0
  · cases h

theorem wheelOf_none {wid : U8} (h : wheelOf wid = none) : wid ≠ 0#8 ∧ wid ≠ 1#8 := by
  constructor <;> rintro rfl <;> cases h

/-! Accepting a request (R66). -/

theorem accept_some {s t : State} {p : Port} {r : Request} (h : s.accept = some (p, r, t)) :
    p = s.nextPort ∧ (∃ rest, s.waiting p = r :: rest) ∧ t = s.dropRequest p := by
  unfold State.accept at h
  split at h
  · cases h
  · rename_i hw
    cases h
    exact ⟨rfl, ⟨_, hw⟩, rfl⟩

theorem accept_none {s : State} (h : s.accept = none) : s.evtPort = [] ∧ s.cmdPort = [] := by
  unfold State.accept at h
  split at h
  · rename_i hw
    unfold State.nextPort at hw
    split at hw
    · rename_i he
      exact ⟨he, hw⟩
    · rename_i he _
      rw [State.waiting, he] at hw
      cases hw
    · rename_i he hc
      split at hw
      · rw [State.waiting, he] at hw
        cases hw
      · rw [State.waiting, hc] at hw
        cases hw
  · cases h

theorem accept_idle {s : State} (he : s.evtPort = []) (hc : s.cmdPort = []) : s.accept = none := by
  simp [State.accept, State.nextPort, State.waiting, he, hc]

theorem accept_evt {s : State} {r : Request} {rest : List Request} (he : s.evtPort = r :: rest) (hc : s.cmdPort = []) :
    s.accept = some (.evt, r, { s with evtPort := rest, accepted := s.accepted + 1 }) := by
  simp [State.accept, State.nextPort, State.waiting, State.dropRequest, he, hc]

theorem accept_cmd {s : State} {r : Request} {rest : List Request} (he : s.evtPort = []) (hc : s.cmdPort = r :: rest) :
    s.accept = some (.cmd, r, { s with cmdPort := rest, accepted := s.accepted + 1 }) := by
  simp [State.accept, State.nextPort, State.waiting, State.dropRequest, he, hc]

/-- With both ports waiting one of the two heads is accepted. -/
theorem accept_both {s : State} {re rc : Request} {es cs : List Request} (he : s.evtPort = re :: es) (hc : s.cmdPort = rc :: cs) :
    s.accept = some (.evt, re, { s with evtPort := es, accepted := s.accepted + 1 }) ∨
    s.accept = some (.cmd, rc, { s with cmdPort := cs, accepted := s.accepted + 1 }) := by
  cases h : Config.eventFirst s.accepted <;>
    simp [State.accept, State.nextPort, State.waiting, State.dropRequest, he, hc, h]

/-! The step: everything it can do. -/

theorem step_cases {s t : State} (h : step s = .next t) :
    (s.resetPort = true ∧ t = s.hardwareReset) ∨
    (s.resetPort = false ∧ s.hung = false ∧
      ((s.evtPort = [] ∧ s.cmdPort = [] ∧ t = s.silent) ∨
       ∃ p r rest, s.waiting p = r :: rest ∧
         ((∃ e, decode p r = .error e ∧ t = (s.dropRequest p).answerIllegal p) ∨
          (∃ i, decode p r = .ok i ∧ exec i (s.dropRequest p) = .next t)))) := by
  unfold step at h
  split at h
  · rename_i hr
    cases h
    exact .inl ⟨hr, rfl⟩
  · rename_i hr
    split at h
    · cases h
    · rename_i hh
      refine .inr ⟨by simpa using hr, by simpa using hh, ?_⟩
      split at h
      · rename_i ha
        cases h
        exact .inl ⟨(accept_none ha).1, (accept_none ha).2, rfl⟩
      · rename_i p r u ha
        obtain ⟨-, ⟨rest, hw⟩, rfl⟩ := accept_some ha
        refine .inr ⟨p, r, rest, hw, ?_⟩
        split at h
        · rename_i i hd
          exact .inr ⟨i, hd, h⟩
        · rename_i e hd
          cases h
          exact .inl ⟨e, hd, rfl⟩

/-- The step that accepts a legal word. -/
theorem step_legal {s t : State} {p : Port} {r : Request} {i : Instr} (h1 : s.resetPort = false) (h2 : s.hung = false)
    (ha : s.accept = some (p, r, t)) (hd : decode p r = .ok i) : step s = exec i t := by
  unfold step
  rw [h1, h2, ha]
  simp only [hd, Bool.false_eq_true, if_false]

/-- The step that accepts an illegal word. -/
theorem step_illegal {s t : State} {p : Port} {r : Request} {e : Illegal} (h1 : s.resetPort = false) (h2 : s.hung = false)
    (ha : s.accept = some (p, r, t)) (hd : decode p r = .error e) : step s = .next (t.answerIllegal p) := by
  unfold step
  rw [h1, h2, ha]
  simp only [hd, Bool.false_eq_true, if_false]

/-! Decoding. -/

theorem decode_ok {p : Port} {r : Request} {i : Instr} (h : decode p r = .ok i) :
    ∃ m, rowOf r.op = some m ∧ m.port = p ∧ i = assemble m r := by
  unfold decode at h
  split at h
  · cases h
  · rename_i m hm
    split at h
    · rename_i hp
      cases h
      exact ⟨m, hm, hp, rfl⟩
    · cases h

theorem assemble_port (m : Mnemonic) (r : Request) : (assemble m r).port = m.port := by cases m <;> rfl

theorem decode_port {p : Port} {r : Request} {i : Instr} (h : decode p r = .ok i) : i.port = p := by
  obtain ⟨m, -, hp, rfl⟩ := decode_ok h
  exact (assemble_port m r).trans hp

theorem rowOf_some {x : U32} {m : Mnemonic} (h : rowOf x = some m) : x &&& m.mask = m.matchWord := by
  have := List.find?_some h
  simpa [Mnemonic.selects] using this

theorem rowOf_none {x : U32} (h : rowOf x = none) (m : Mnemonic) : x &&& m.mask ≠ m.matchWord := by
  have hall : m ∈ Mnemonic.all := by cases m <;> decide
  have := List.find?_eq_none.1 h m hall
  simpa [Mnemonic.selects] using this

/-- A word that matches no row of the port is illegal there (R88). -/
theorem decode_illegal {p : Port} {r : Request} (hm : ∀ m : Mnemonic, m.port = p → r.op &&& m.mask ≠ m.matchWord) :
    ∃ e, decode p r = .error e := by
  cases hd : decode p r with
  | error e => exact ⟨e, rfl⟩
  | ok i =>
    obtain ⟨m, h, hp, -⟩ := decode_ok hd
    exact absurd (rowOf_some h) (hm m hp)

/-! The clamp (R12). -/

theorem clampF_cases {F D : Type} (N : Num F D) (v lo hi : F) :
    (N.fgt v hi = true ∧ clampF N v lo hi = hi) ∨
    (N.fgt v hi = false ∧ N.flt v lo = true ∧ clampF N v lo hi = lo) ∨
    (N.fgt v hi = false ∧ N.flt v lo = false ∧ clampF N v lo hi = v) := by
  cases h1 : N.fgt v hi <;> cases h2 : N.flt v lo <;> simp [clampF, h1, h2]

/-! The encoder (R112, R113). -/

theorem overflowEncoder_stall {tp sm : U32} {e : Encoder} (h : sm.toNat * tp.toNat < (overflowSum tp e).toNat) :
    stalls tp sm e = true ∧
    overflowEncoder tp sm e = { e with lastCaptureCounter := 0#32, intervalAccumulator := overflowSum tp e - tp,
                                       intervalValid := false } := by
  have hs : stalls tp sm e = true := by simp [stalls, h]
  exact ⟨hs, by simp [overflowEncoder, hs]⟩

theorem overflowEncoder_no_stall {tp sm : U32} {e : Encoder} (h : (overflowSum tp e).toNat ≤ sm.toNat * tp.toNat) :
    stalls tp sm e = false ∧
    overflowEncoder tp sm e = { e with lastCaptureCounter := 0#32, intervalAccumulator := overflowSum tp e } := by
  have hs : stalls tp sm e = false := by simp [stalls]; omega
  exact ⟨hs, by simp [overflowEncoder, hs]⟩

/-! The heading (R183) and the odometry update (R181). -/

theorem normalizeDown_some {F D : Type} (N : Num F D) : ∀ (n : Nat) (t r : F), normalizeDown N n t = some r → N.fgt r N.piF = false
  | 0, t, r, h => by
    simp only [normalizeDown] at h
    split at h
    · cases h
    · cases h
      simp_all
  | n + 1, t, r, h => by
    simp only [normalizeDown] at h
    split at h
    · split at h
      · exact normalizeDown_some N n _ r h
      · cases h
    · cases h
      simp_all

theorem normalizeUp_some {F D : Type} (N : Num F D) :
    ∀ (n : Nat) (t r : F), normalizeUp N n t = some r → N.fle r (N.fneg N.piF) = false
  | 0, t, r, h => by
    simp only [normalizeUp] at h
    split at h
    · cases h
    · cases h
      simp_all
  | n + 1, t, r, h => by
    simp only [normalizeUp] at h
    split at h
    · split at h
      · exact normalizeUp_some N n _ r h
      · cases h
    · cases h
      simp_all

theorem normalize_some {F D : Type} {N : Num F D} {n : Nat} {t r : F} (h : normalize N n t = some r) :
    ∃ u, normalizeDown N n t = some u ∧ normalizeUp N n u = some r := by
  unfold normalize at h
  split at h
  · cases h
  · exact ⟨_, by assumption, h⟩

theorem odoUpdate_some {s t : State} {p0 p1 dt : F32} (h : s.odoUpdate p0 p1 dt = some t) :
    ∃ th1, headingAfter b32 normalizeFuel s.cfg.odoEps s.pose.theta
        (headingChange b32 s.geo s.odo (linearDistances b32 s.geo p0 p1)) = some th1 ∧
      t = { s with
        pose := poseAfter b32 s.cfg.odoEps s.pose (travel b32 s.odo (linearDistances b32 s.geo p0 p1))
          (headingChange b32 s.geo s.odo (linearDistances b32 s.geo p0 p1)) dt th1
        odo := odometryAfter (linearDistances b32 s.geo p0 p1) } := by
  unfold State.odoUpdate Sys2Proof.Machine.odoUpdate at h
  cases hh : headingAfter b32 normalizeFuel s.cfg.odoEps s.pose.theta
      (headingChange b32 s.geo s.odo (linearDistances b32 s.geo p0 p1)) with
  | none => rw [hh] at h; cases h
  | some th1 =>
    rw [hh] at h
    cases h
    exact ⟨th1, rfl, rfl⟩

theorem odoUpdate_of_heading {s : State} {p0 p1 dt th1 : F32}
    (h : headingAfter b32 normalizeFuel s.cfg.odoEps s.pose.theta
        (headingChange b32 s.geo s.odo (linearDistances b32 s.geo p0 p1)) = some th1) :
    s.odoUpdate p0 p1 dt = some { s with
        pose := poseAfter b32 s.cfg.odoEps s.pose (travel b32 s.odo (linearDistances b32 s.geo p0 p1))
          (headingChange b32 s.geo s.odo (linearDistances b32 s.geo p0 p1)) dt th1
        odo := odometryAfter (linearDistances b32 s.geo p0 p1) } := by
  unfold State.odoUpdate Sys2Proof.Machine.odoUpdate
  rw [h]

theorem odoUpdate_none {s : State} {p0 p1 dt : F32}
    (h : headingAfter b32 normalizeFuel s.cfg.odoEps s.pose.theta
        (headingChange b32 s.geo s.odo (linearDistances b32 s.geo p0 p1)) = none) :
    s.odoUpdate p0 p1 dt = none := by
  unfold State.odoUpdate Sys2Proof.Machine.odoUpdate
  rw [h]

/-- What an odometry operation gives: the updated state when the heading is found, the block hung when it is not. -/
theorem execOdoupd_cases (p0 p1 dt : U32) (s : State) :
    (∃ t, s.odoUpdate p0 p1 dt = some t ∧ exec (.odoupd p0 p1 dt) s = .next (t.reply (Response.bare .ok))) ∨
    (s.odoUpdate p0 p1 dt = none ∧ exec (.odoupd p0 p1 dt) s = .next s.hang) := by
  cases h : s.odoUpdate p0 p1 dt with
  | none => exact .inr ⟨rfl, by simp [exec, execOdoupd, dec32, h]⟩
  | some t => exact .inl ⟨t, rfl, by simp [exec, execOdoupd, dec32, h]⟩

/-- The same for the odometry tick. -/
theorem execOtick_cases (s : State) :
    (∃ t, s.odoUpdate (wheelAngle b32 s.cfg.epr s.enc.left.position) (wheelAngle b32 s.cfg.epr s.enc.right.position) s.cfg.odoDt =
        some t ∧ exec .otick s = .next t.silent) ∨
    (s.odoUpdate (wheelAngle b32 s.cfg.epr s.enc.left.position) (wheelAngle b32 s.cfg.epr s.enc.right.position) s.cfg.odoDt = none ∧
      exec .otick s = .next s.hang) := by
  cases h : s.odoUpdate (wheelAngle b32 s.cfg.epr s.enc.left.position) (wheelAngle b32 s.cfg.epr s.enc.right.position)
      s.cfg.odoDt with
  | none => exact .inr ⟨rfl, by simp [exec, execOtick, h]⟩
  | some t => exact .inl ⟨t, rfl, by simp [exec, execOtick, h]⟩

end Sys2Proof.Machine
end

