-- ==== Sys2Proof/Laws/PerInstr.lean ====
section
/-! SUPPORT. One family of statements about every operation as syntax: the operation word its encoder writes selects its row of the
opcode map, and the row's port is its own (spec/30_encoding.md R86). -/

namespace Sys2Proof.Laws

/-- The operation word of `i` matches the row of `i`, and that row's port is the port of `i`. -/
def EncodedRow.Statement (i : Instr) : Prop := (encode i).op &&& i.row.mask = i.row.matchWord ∧ i.row.port = i.port

/-- Format W: the mask leaves the opcode of `m` and zeros, whatever the wheel id. -/
theorem opWordW_row : ∀ (m : Mnemonic) (_ : m.format = .W) (wid : U8), opWordW m.opcode wid &&& m.mask = m.matchWord := by
  intro m hm
  cases m <;> first | exact absurd hm (by decide) | decide +kernel

/-- Format Q: the mask leaves the opcode and zeros, whatever the wheel id and the three bits. -/
theorem opWordQ_row : ∀ (wid : U8) (ch edge pair : Bool),
    opWordQ Mnemonic.CAP.opcode wid ch edge pair &&& Mnemonic.CAP.mask = Mnemonic.CAP.matchWord := by
  decide +kernel

/-- Format N: the operation word is the row's match word and the mask is all ones. -/
theorem opWordN_row : ∀ (m : Mnemonic) (_ : m.format = .N), opWordN m.opcode &&& m.mask = m.matchWord := by
  intro m hm
  cases m <;> first | exact absurd hm (by decide) | decide

theorem EncodedRow.cap (wid : U8) (ch edge pair : Bool) (cnt : U32) : EncodedRow.Statement (.cap wid ch edge pair cnt) :=
  ⟨opWordQ_row wid ch edge pair, rfl⟩
theorem EncodedRow.ovf (wid : U8) : EncodedRow.Statement (.ovf wid) := ⟨opWordW_row .OVF rfl wid, rfl⟩
theorem EncodedRow.tick : EncodedRow.Statement .tick := ⟨opWordN_row .TICK rfl, rfl⟩
theorem EncodedRow.otick : EncodedRow.Statement .otick := ⟨opWordN_row .OTICK rfl, rfl⟩
theorem EncodedRow.setsp (wid : U8) (x : U32) : EncodedRow.Statement (.setsp wid x) := ⟨opWordW_row .SETSP rfl wid, rfl⟩
theorem EncodedRow.setvel (v om : U32) : EncodedRow.Statement (.setvel v om) := ⟨opWordN_row .SETVEL rfl, rfl⟩
theorem EncodedRow.getspd (wid : U8) : EncodedRow.Statement (.getspd wid) := ⟨opWordW_row .GETSPD rfl wid, rfl⟩
theorem EncodedRow.getrev (wid : U8) : EncodedRow.Statement (.getrev wid) := ⟨opWordW_row .GETREV rfl wid, rfl⟩
theorem EncodedRow.getodo : EncodedRow.Statement .getodo := ⟨opWordN_row .GETODO rfl, rfl⟩
theorem EncodedRow.rstodo : EncodedRow.Statement .rstodo := ⟨opWordN_row .RSTODO rfl, rfl⟩
theorem EncodedRow.rdpos (wid : U8) : EncodedRow.Statement (.rdpos wid) := ⟨opWordW_row .RDPOS rfl wid, rfl⟩
theorem EncodedRow.kfupd (wid : U8) (z : U32) : EncodedRow.Statement (.kfupd wid z) := ⟨opWordW_row .KFUPD rfl wid, rfl⟩
theorem EncodedRow.pidcmp (wid : U8) (m : U32) : EncodedRow.Statement (.pidcmp wid m) := ⟨opWordW_row .PIDCMP rfl wid, rfl⟩
theorem EncodedRow.kininv (v om : U32) : EncodedRow.Statement (.kininv v om) := ⟨opWordN_row .KININV rfl, rfl⟩
theorem EncodedRow.kinfwd (l r : U32) : EncodedRow.Statement (.kinfwd l r) := ⟨opWordN_row .KINFWD rfl, rfl⟩
theorem EncodedRow.odoupd (p0 p1 dt : U32) : EncodedRow.Statement (.odoupd p0 p1 dt) := ⟨opWordN_row .ODOUPD rfl, rfl⟩

end Sys2Proof.Laws
end

