-- ==== Sys2Proof/Laws/Steps.lean ====
section
/-! SUPPORT. Runs of operations, writes to one bank, and the one induction over what a step can do: a property that answering, taking
a request and every operation keep is kept by a step without a reset. -/

namespace Sys2Proof.Machine

theorem runOps_cons {i : Instr} {is : List Instr} {s t : State} (h : exec i s = .next t) : runOps (i :: is) s = runOps is t := by
  simp [runOps, h]

theorem runOps_append {is js : List Instr} {s t : State} (h : runOps is s = .next t) : runOps (is ++ js) s = runOps js t := by
  induction is generalizing s with
  | nil => cases h; rfl
  | cons i is ih =>
    simp only [runOps, List.cons_append] at h ⊢
    split at h
    · exact ih h
    · cases h
    · cases h

theorem otherBanks_self {α : Type} (wid : U8) (b : Bank α) : otherBanks wid b b := ⟨fun _ => rfl, fun _ => rfl⟩

theorem otherBanks_set {α : Type} (w : Wheel) (b : Bank α) (x : α) : otherBanks (widOf w) b (b.set w x) := by
  cases w <;> simp [otherBanks, widOf]

theorem otherBanks_get {α : Type} {wid : U8} {b b' : Bank α} {w : Wheel} (h : otherBanks wid b b') (hw : wid ≠ widOf w) :
    b'.get w = b.get w := by
  cases w
  · exact h.1 hw
  · exact h.2 hw

theorem step_keeps {P : State → Prop} {s t : State} (h0 : s.resetPort = false) (h : step s = .next t) (hs : P s)
    (hsilent : ∀ u, P u → P u.silent) (hreply : ∀ u r, P u → P (u.reply r)) (hdrop : ∀ u p, P u → P (u.dropRequest p))
    (hexec : ∀ i u v, P u → exec i u = .next v → P v) : P t := by
  rcases step_cases h with ⟨h1, -⟩ | ⟨-, -, ⟨-, -, rfl⟩ | ⟨p, r, rest, -, ⟨e, -, rfl⟩ | ⟨i, -, hx⟩⟩⟩
  · simp [h0] at h1
  · exact hsilent _ hs
  · cases p
    · exact hsilent _ (hdrop _ _ hs)
    · exact hreply _ _ (hdrop _ _ hs)
  · exact hexec _ _ _ (hdrop _ _ hs) hx

end Sys2Proof.Machine
end

