-- ==== Sys2Proof/Tests/Slice0.lean ====
section
/-! SUPPORT. The author's tests. Expected words are those of spec/95_test_vectors.md (the vector is named in each comment) or of the
worked example of the rule named; none was taken from the model. The last part shows, for each obligation with hypotheses, values
that meet them, each clause at a boundary of its range. -/

open Sys2Proof Sys2Proof.Machine

namespace Sys2Proof.Tests

-- The tests are kernel evaluations: one at a time, so that no thread of the compiler waits for another.
set_option Elab.async false

/-- The words of configuration V (spec/95_test_vectors.md, part 1). -/
def wordsV (i : Nat) : U32 :=
  ([0x00010000#32, 0x00000002#32, 0x49742400#32, 0x44800000#32, 0x3D000000#32, 0x3E000000#32, 0x42C80000#32, 0x358637BD#32,
    0x3C800000#32] ++
   [0x3F000000#32, 0x3E800000#32, 0x3E000000#32, 0x3F000000#32, 0x3E800000#32, 0x3E000000#32] ++
   [0x3F800000#32, 0x3F800000#32, 0x3F000000#32, 0x3F800000#32, 0x3F800000#32, 0x3F000000#32]).getD i 0#32

/-- The reset state with configuration V. -/
def stV : State := State.boot wordsV 0 0

/-- Configuration V. -/
def cfgV : Cfg := stV.cfg

/-- The state an operation leaves; `s` where it stops, which no test expects. -/
def after (i : Instr) (s : State) : State :=
  match exec i s with
  | .next t => t
  | .fault _ => s
  | .refused _ => s

/-- The state a step leaves, likewise. -/
def stepped (s : State) : State :=
  match step s with
  | .next t => t
  | .fault _ => s
  | .refused _ => s

/-- Whether a step gives a next state. -/
def goesOn (s : State) : Bool :=
  match step s with
  | .next _ => true
  | .fault _ => false
  | .refused _ => false

/-- The encoder of the left wheel replaced. -/
def withEnc (e : Encoder) : State := { stV with enc := { left := e, right := stV.enc.right } }

/-- A left encoder with a running interval. -/
def running (pos : U64) (last acc : U32) : Encoder :=
  { position := pos, lastCaptureCounter := last, intervalAccumulator := acc, direction := .pos, intervalValid := true }

/-- A decode outcome: the operation, or none for an illegal word. -/
def dec (p : Port) (op a b c : U32) : Option Instr :=
  match decode p { op := op, a := a, b := b, c := c } with
  | .ok i => some i
  | .error _ => none

/-! WellFormed: each check accepts configuration V, and refuses one ill-formed term (spec/00_scope.md R5; spec/30_encoding.md R88). -/

theorem test_cfgV_wellFormed : cfgV.wellFormed = true := by decide +kernel

theorem test_wrong_port_refused :
    Instr.wellFormedOn .cmd .tick = false ∧ Instr.wellFormedOn .evt (.setsp 0#8 0x41800000#32) = false ∧
    Instr.wellFormedOn .evt .tick = true := by decide

theorem test_period_refused : ({ cfgV with timerPeriod := 0#32 } : Cfg).periodOk = false := by decide +kernel

theorem test_stallMult_refused : ({ cfgV with stallMult := 0#32 } : Cfg).stallMultOk = false := by decide +kernel

/-- R5 (c) at its edge: `65535 * 65537 = 2^32 - 1` is accepted, one period more is refused. -/
theorem test_interval_refused :
    ({ cfgV with timerPeriod := 65537#32, stallMult := 65534#32 } : Cfg).intervalOk = true ∧
    ({ cfgV with timerPeriod := 65537#32, stallMult := 65535#32 } : Cfg).intervalOk = false := by decide +kernel

theorem test_divisors_refused :
    ({ cfgV with tickFreq := 0#32 } : Cfg).divisorsOk = false ∧ ({ cfgV with epr := 0xC4800000#32 } : Cfg).divisorsOk = false ∧
    ({ cfgV with wheelRadius := 0x7F800000#32 } : Cfg).divisorsOk = false ∧
    ({ cfgV with trackWidth := 0x80000000#32 } : Cfg).divisorsOk = false ∧
    ({ cfgV with odoDt := 0x7FC00000#32 } : Cfg).divisorsOk = false := by decide +kernel

theorem test_maxSumError_refused :
    ({ cfgV with maxSumError := 0xBF800000#32 } : Cfg).maxSumErrorOk = false ∧
    ({ cfgV with maxSumError := 0#32 } : Cfg).maxSumErrorOk = true := by decide +kernel

theorem test_odoEps_refused : ({ cfgV with odoEps := 0#32 } : Cfg).odoEpsOk = false := by decide +kernel

theorem test_variances_refused :
    ({ cfgV with r := { left := 0x3F800000#32, right := 0#32 } } : Cfg).variancesOk .right = false ∧
    ({ cfgV with p0 := { left := 0xBF800000#32, right := 0#32 } } : Cfg).variancesOk .left = false ∧
    ({ cfgV with q := { left := 0x7F800000#32, right := 0#32 } } : Cfg).variancesOk .left = false := by decide +kernel

theorem test_gains_refused :
    ({ cfgV with kp := { left := 0x7FC00000#32, right := 0#32 } } : Cfg).gainsOk .left = false ∧
    ({ cfgV with kd := { left := 0#32, right := 0xFF800000#32 } } : Cfg).gainsOk .right = false := by decide +kernel

/-! Decoding: one word per operation, written out from the trace syntax of R90. -/

/-- R90, example: `CAP 0, 0, 1, 0, 1000`; V30-13: `CAP 1, 1, 0, 1, 2000`. -/
theorem test_decode_cap :
    dec .evt 0x01000002#32 0x000003E8#32 0#32 0#32 = some (.cap 0#8 false true false 1000#32) ∧
    dec .evt 0x01010005#32 0x000007D0#32 0#32 0#32 = some (.cap 1#8 true false true 2000#32) := by decide +kernel
theorem test_decode_ovf : dec .evt 0x02FF0000#32 0#32 0#32 0#32 = some (.ovf 255#8) := by decide +kernel
theorem test_decode_tick : dec .evt 0x03000000#32 0#32 0#32 0#32 = some .tick := by decide +kernel
theorem test_decode_otick : dec .evt 0x04000000#32 0#32 0#32 0#32 = some .otick := by decide +kernel
theorem test_decode_setsp : dec .cmd 0x10010000#32 0x41200000#32 0#32 0#32 = some (.setsp 1#8 0x41200000#32) := by decide +kernel
/-- V30-15: the third operand word takes no part. -/
theorem test_decode_setvel :
    dec .cmd 0x11000000#32 0x3F000000#32 0#32 0x12345678#32 = some (.setvel 0x3F000000#32 0#32) := by decide +kernel
theorem test_decode_getspd : dec .cmd 0x12010000#32 0#32 0#32 0#32 = some (.getspd 1#8) := by decide +kernel
theorem test_decode_getrev : dec .cmd 0x13000000#32 0#32 0#32 0#32 = some (.getrev 0#8) := by decide +kernel
/-- V30-14: no operand word takes part. -/
theorem test_decode_getodo : dec .cmd 0x14000000#32 0xDEADBEEF#32 0xFFFFFFFF#32 0x7FC00000#32 = some .getodo := by decide +kernel
theorem test_decode_rstodo : dec .cmd 0x15000000#32 0#32 0#32 0#32 = some .rstodo := by decide +kernel
theorem test_decode_rdpos : dec .cmd 0x20010000#32 0#32 0#32 0#32 = some (.rdpos 1#8) := by decide +kernel
theorem test_decode_kfupd : dec .cmd 0x21010000#32 0xC0000000#32 0#32 0#32 = some (.kfupd 1#8 0xC0000000#32) := by decide +kernel
theorem test_decode_pidcmp : dec .cmd 0x22000000#32 0x40000000#32 0#32 0#32 = some (.pidcmp 0#8 0x40000000#32) := by decide +kernel
theorem test_decode_kininv :
    dec .cmd 0x23000000#32 0x3F000000#32 0x40000000#32 0#32 = some (.kininv 0x3F000000#32 0x40000000#32) := by decide +kernel
theorem test_decode_kinfwd :
    dec .cmd 0x24000000#32 0x41400000#32 0x41A00000#32 0#32 = some (.kinfwd 0x41400000#32 0x41A00000#32) := by decide +kernel
theorem test_decode_odoupd :
    dec .cmd 0x25000000#32 0x42400000#32 0x42500000#32 0x3C800000#32 =
      some (.odoupd 0x42400000#32 0x42500000#32 0x3C800000#32) := by decide +kernel

/-- V30-4 to V30-11: illegal words. -/
theorem test_decode_illegal :
    dec .cmd 0x12000001#32 0#32 0#32 0#32 = none ∧ dec .cmd 0x12008000#32 0#32 0#32 0#32 = none ∧
    dec .cmd 0x14010000#32 0#32 0#32 0#32 = none ∧ dec .cmd 0x00000000#32 0#32 0#32 0#32 = none ∧
    dec .cmd 0x05000000#32 0#32 0#32 0#32 = none ∧ dec .cmd 0x16000000#32 0#32 0#32 0#32 = none ∧
    dec .cmd 0x1F000000#32 0#32 0#32 0#32 = none ∧ dec .cmd 0x26000000#32 0#32 0#32 0#32 = none ∧
    dec .cmd 0xFF000000#32 0#32 0#32 0#32 = none ∧ dec .cmd 0x03000000#32 0#32 0#32 0#32 = none ∧
    dec .evt 0x10000000#32 0x41800000#32 0#32 0#32 = none ∧ dec .evt 0x01000008#32 0x000003E8#32 0#32 0#32 = none := by
  decide +kernel

/-! The step. -/

/-- V30-9 and V30-11: an illegal word is answered on the command port and dropped on the event port. -/
theorem test_step_illegal :
    (stepped { stV with cmdPort := [{ op := 0x03000000#32, a := 0#32, b := 0#32, c := 0#32 }] }).response =
      some { s := 2#32, r0 := 0#32, r1 := 0#32, r2 := 0#32, r3 := 0#32, r4 := 0#32 } ∧
    stepped { stV with evtPort := [{ op := 0x01000008#32, a := 0x000003E8#32, b := 0#32, c := 0#32 }] } =
      { stV with accepted := 1 } := by
  decide +kernel

/-- The first instruction after reset, placed by `withFetchWord`: `SETSP 1, 10.0` (R150). -/
theorem test_withFetchWord :
    decodeTableWord 128 0x4120000010010000 = some (.setsp 1#8 0x41200000#32) ∧
    (stepped (State.reset.withFetchWord 128 0x4120000010010000)).pid.right.setpoint = 0x41200000#32 ∧
    decodeTableWord 32 0x12000001 = none := by decide +kernel

/-- R240: a reset discards what waits and the operation in progress. -/
theorem test_hardwareReset :
    stepped { stV with resetPort := true, hung := true, cmdPort := [{ op := 0x14000000#32, a := 0#32, b := 0#32, c := 0#32 }] } =
      State.boot (Config.cfgRead 1) 0 1 := rfl

/-! The operations. -/

/-- Program P1, steps 2 and 5: `el = 2000`, both directions. -/
theorem test_cap :
    (after (.cap 0#8 true true true 3000#32) (withEnc (running 1#64 1000#32 0#32))).spd.left =
      { angularVelocity := 0x4044597C#32, timestampValidity := true } ∧
    (after (.cap 0#8 false true true 2500#32) (withEnc (running 3#64 500#32 0#32))).spd.left.angularVelocity = 0xC044597C#32 ∧
    (after (.cap 0#8 false true true 2500#32) (withEnc (running 3#64 500#32 0#32))).enc.left =
      { position := 2#64, lastCaptureCounter := 2500#32, intervalAccumulator := 0#32, direction := .neg, intervalValid := true } := by
  decide +kernel

/-- V40-5: a zero interval leaves the sample; corner case (a) of R112: so does the first capture. -/
theorem test_cap_guard :
    (after (.cap 0#8 false true false 2000#32) (withEnc (running 2#64 2000#32 0#32))).spd = stV.spd ∧
    (after (.cap 0#8 false false false 1000#32) stV).spd = stV.spd ∧
    (after (.cap 0#8 false false false 1000#32) stV).enc.left.position = 0xFFFFFFFFFFFFFFFF#64 := by decide +kernel

/-- Program P1, steps 3 and 8. -/
theorem test_ovf :
    (after (.ovf 0#8) (withEnc (running 2#64 3000#32 0#32))).enc.left = running 2#64 0#32 62536#32 ∧
    (after (.ovf 0#8) (withEnc (running 2#64 0#32 128572#32))).enc.left =
      { running 2#64 0#32 128572#32 with intervalValid := false } := by decide +kernel

/-- V40-7 and R114: position -3, low word first. -/
theorem test_rdpos :
    (after (.rdpos 0#8) (withEnc (running (-3#64) 0#32 0#32))).response =
      some { s := 0#32, r0 := 0xFFFFFFFD#32, r1 := 0xFFFFFFFF#32, r2 := 0#32, r3 := 0#32, r4 := 0#32 } := by decide +kernel

/-- R115: positions 1536 and -3. -/
theorem test_getrev :
    (after (.getrev 0#8) (withEnc (running 1536#64 0#32 0#32))).response =
      some { s := 0#32, r0 := 0#32, r1 := 0x3FF80000#32, r2 := 0#32, r3 := 0#32, r4 := 0#32 } ∧
    (after (.getrev 0#8) (withEnc (running (-3#64) 0#32 0#32))).response =
      some { s := 0#32, r0 := 0#32, r1 := 0xBF680000#32, r2 := 0#32, r3 := 0#32, r4 := 0#32 } := by decide +kernel

/-- V42-2, first update, and V42-4. -/
theorem test_kfupd :
    (after (.kfupd 0#8 0x40800000#32) { stV with kf := { stV.kf with left := { stV.kf.left with p := 0x40400000#32 } } }).kf.left =
      { gain := 0x3F400000#32, p := 0x3FA00000#32, r := 0x3F800000#32, q := 0x3F000000#32, lastEstimate := 0x40400000#32 } ∧
    (after (.kfupd 1#8 0xC0000000#32) stV).response =
      some { s := 0#32, r0 := 0xBF800000#32, r1 := 0#32, r2 := 0#32, r3 := 0#32, r4 := 0#32 } := by decide +kernel

/-- R143: the estimate of the wheel asked for. -/
theorem test_getspd :
    (after (.getspd 1#8) { stV with kf := { stV.kf with right := { stV.kf.right with lastEstimate := 0x40000000#32 } } }).response =
      some { s := 0#32, r0 := 0x40000000#32, r1 := 0#32, r2 := 0#32, r3 := 0#32, r4 := 0#32 } := by decide +kernel

/-- R150, worked example; P5, step 5: wheel id 7 writes nothing. -/
theorem test_setsp :
    (after (.setsp 1#8 0x41200000#32) stV).pid.right.setpoint = 0x41200000#32 ∧ (after (.setsp 7#8 0x40A00000#32) stV).pid = stV.pid := by
  decide +kernel

/-- V43-1, second row, and V43-3, first step (the clamp at the lower bound). -/
theorem test_pidcmp :
    (after (.pidcmp 0#8 0x40C00000#32) { stV with pid := { stV.pid with left := { stV.pid.left with
        setpoint := 0x41200000#32, integral := 0x41000000#32, lastError := 0x41000000#32 } } }).response =
      some { s := 0#32, r0 := 0x40900000#32, r1 := 0#32, r2 := 0#32, r3 := 0#32, r4 := 0#32 } ∧
    (after (.pidcmp 0#8 0#32) { stV with pid := { stV.pid with left := { stV.pid.left with
        setpoint := 0xC47A0000#32, integral := 0x42C80000#32, lastError := 0x447A0000#32 } } }).pid.left.integral = 0xC2C80000#32 := by
  decide +kernel

/-- V44-1, third row. -/
theorem test_kininv :
    (after (.kininv 0x3F000000#32 0x40000000#32) stV).response =
      some { s := 0#32, r0 := 0x41400000#32, r1 := 0x41A00000#32, r2 := 0#32, r3 := 0#32, r4 := 0#32 } := by decide +kernel

/-- V44-2, configuration L. -/
theorem test_kinfwd :
    (after (.kinfwd 0x41320000#32 0x40F40000#32)
        { stV with geo := { stV.geo with r := 0x3D03126F#32, w := 0x3E23D70A#32 } }).response =
      some { s := 0#32, r0 := 0x3E99999A#32, r1 := 0xBF333332#32, r2 := 0#32, r3 := 0#32, r4 := 0#32 } := by decide +kernel

/-- X2, configuration L: `SETVEL 0.0, 1.0`. -/
theorem test_setvel :
    (after (.setvel 0#32 0x3F800000#32) { stV with geo := { stV.geo with r := 0x3D03126F#32, w := 0x3E23D70A#32 } }).pid =
      { left := { stV.pid.left with setpoint := 0xC01FFFFF#32 }, right := { stV.pid.right with setpoint := 0x401FFFFF#32 } } := by
  decide +kernel

/-- V46-2: the first `TICK`. -/
theorem test_tick :
    (after .tick { stV with
        spd := { stV.spd with left := { angularVelocity := 0x4044597C#32, timestampValidity := true } }
        pid := { left := { stV.pid.left with setpoint := 0x41800000#32 },
                 right := { stV.pid.right with setpoint := 0x3F800000#32 } } }).emitted =
      [{ wheel := .left, duty := 0x3F800000#32 }, { wheel := .right, duty := 0x3F600000#32 }] := by decide +kernel

/-- The odometry state of V45-2: baselined at 1 metre on both wheels, `x = 1`. -/
def stOdo : State :=
  { stV with
    pose := { stV.pose with x := 0x3F800000#32 }
    odo := { lastLin := { left := 0x3F800000#32, right := 0x3F800000#32 }, baselined := true, available := true } }

/-- X3, second update, and V45-3 where no cosine enters. -/
theorem test_odoupd :
    (after (.odoupd 0x42800000#32 0x42800000#32 0x3C800000#32) stOdo).pose =
      { x := 0x40000000#32, y := 0#32, theta := 0#32, velocity := 0x42800000#32, omega := 0#32 } ∧
    (after (.odoupd 0x42400000#32 0x42500000#32 0x3C800000#32) stOdo).pose.theta = 0x3F800000#32 ∧
    (after (.odoupd 0x42400000#32 0x42500000#32 0x3C800000#32) stOdo).pose.velocity = 0x42100000#32 ∧
    (after (.odoupd 0x42400000#32 0x42500000#32 0x3C800000#32) stOdo).pose.omega = 0x42800000#32 := by decide +kernel

/-- V45-6: `Normalize`. -/
theorem test_normalize :
    normalize b32 normalizeFuel 0xC0490FDB#32 = some 0x40490FDB#32 ∧ normalize b32 normalizeFuel 0x40490FDC#32 = some 0xC0490FDA#32 ∧
    normalize b32 normalizeFuel 0x42C80000#32 = some 0xBF07EDF0#32 ∧ normalize b32 normalizeFuel 0x4D000001#32 = none := by
  decide +kernel

/-- V45-8, second row. -/
theorem test_otick :
    (after .otick { withEnc (running 1024#64 0#32 0#32) with
        enc := { left := running 1024#64 0#32 0#32, right := running 1024#64 0#32 0#32 }
        odo := { stV.odo with baselined := true } }).pose =
      { x := 0x3E490FDB#32, y := 0#32, theta := 0#32, velocity := 0x41490FDB#32, omega := 0#32 } := by decide +kernel

/-- V45-1; program P3, step 8. -/
theorem test_getodo :
    (after .getodo stV).response = some { s := 1#32, r0 := 0#32, r1 := 0#32, r2 := 0#32, r3 := 0#32, r4 := 0#32 } ∧
    (after .getodo stOdo).response = some { s := 0#32, r0 := 0x3F800000#32, r1 := 0#32, r2 := 0#32, r3 := 0#32, r4 := 0#32 } := by
  decide +kernel

/-- R186: the availability is kept. -/
theorem test_rstodo :
    (after .rstodo stOdo).pose = stV.pose ∧ (after .rstodo stOdo).odo = { stV.odo with available := true } := by decide +kernel

/-! Witnesses: values that meet the hypotheses of the obligation named, at the edges where its clauses meet. -/

/-- A request with only its operation word and operand `A`. -/
def req (op a : U32) : Request := { op := op, a := a, b := 0#32, c := 0#32 }

theorem witness_DecodeEncode :
    Instr.wellFormedOn .evt (.cap 255#8 true true true 0xFFFFFFFF#32) = true ∧
    Instr.wellFormedOn .cmd (.odoupd 0#32 0x7FC00000#32 0xFFFFFFFF#32) = true := by decide

theorem witness_DecodedWordIsEncoded : dec .cmd 0x12FF0000#32 0#32 1#32 2#32 = some (.getspd 255#8) := by decide +kernel

theorem witness_RowsDisjoint :
    0x01FF0007#32 &&& Mnemonic.CAP.mask = Mnemonic.CAP.matchWord ∧ 0x25000000#32 &&& Mnemonic.ODOUPD.mask = Mnemonic.ODOUPD.matchWord := by
  decide +kernel

/-- One clause each: an event alone, a command alone, both. -/
theorem witness_StepRunsDecoded :
    stV.resetPort = false ∧ stV.hung = false ∧ stV.evtPort = [] ∧ stV.cmdPort = [] ∧
    dec .evt 0x03000000#32 0#32 0#32 0#32 = some .tick ∧ dec .cmd 0x12000000#32 0#32 0#32 0#32 = some (.getspd 0#8) := by
  decide +kernel

/-- A word of no row, and a row of the other port, on each port; a legal head for each port beside it. -/
theorem witness_StatusCodes :
    (∀ m ∈ Mnemonic.all, m.port = .cmd → 0x12000001#32 &&& m.mask ≠ m.matchWord) ∧
    (∀ m ∈ Mnemonic.all, m.port = .cmd → 0x03000000#32 &&& m.mask ≠ m.matchWord) ∧
    (∀ m ∈ Mnemonic.all, m.port = .evt → 0x10000000#32 &&& m.mask ≠ m.matchWord) ∧
    (∀ m ∈ Mnemonic.all, m.port = .evt → 0x01000008#32 &&& m.mask ≠ m.matchWord) ∧
    dec .cmd 0x12000000#32 0#32 0#32 0#32 = some (.getspd 0#8) ∧ dec .evt 0x03000000#32 0#32 0#32 0#32 = some .tick ∧
    stV.resetPort = false ∧ stV.hung = false ∧
    (after .getodo stV).response.isSome = true ∧ (after .getodo stOdo).response.isSome = true ∧
    (after (.setsp 0#8 0#32) stV).response.isSome = true := by decide +kernel

theorem witness_WaitingAndStuck :
    step stV = .next { stV with response := none, emitted := [] } ∧
    step { stV with hung := true } = .fault .operationNeverCompletes := ⟨rfl, rfl⟩

/-- A row with an operand, one without, and a format Q row. -/
theorem witness_FetchWord :
    decodeTableWord 32 0x25000000 = some (.odoupd 0#32 0#32 0#32) ∧ decodeTableWord 32 0x04000000 = some .otick ∧
    decodeTableWord 32 0x01000007 = some (.cap 0#8 true true true 0#32) := by decide +kernel

/-- Each of the two requests that wait can be the one taken; none waiting is the other clause. -/
theorem witness_PortsKeepOrder :
    goesOn { stV with evtPort := [req 0x03000000#32 0#32, req 0x04000000#32 0#32] } = true ∧
    (stepped { stV with evtPort := [req 0x03000000#32 0#32, req 0x04000000#32 0#32] }).evtPort = [req 0x04000000#32 0#32] ∧
    goesOn { stV with cmdPort := [req 0x05000000#32 0#32] } = true ∧ goesOn stV = true := by decide +kernel

theorem witness_HardwareReset : ({ stOdo with resetPort := true, hung := true } : State).resetPort = true := rfl

/-- Timed captures at the edges: the last counter value, and the same value as the capture before; ids out of range. -/
theorem witness_CapResult :
    captureWellTimed cfgV.timerPeriod 65535#32 65535#32 = true ∧ captureWellTimed cfgV.timerPeriod 0#32 65536#32 = false ∧
    captureWellTimed cfgV.timerPeriod 1000#32 999#32 = false ∧ stV.illTimed.get .left = false ∧ 2#8 ≠ 0#8 ∧ 255#8 ≠ 1#8 := by
  decide +kernel

/-- V40-4: the sum equal to the threshold takes the second clause, one above it the first. -/
theorem witness_OvfResult :
    (overflowSum cfgV.timerPeriod (running 0#64 0#32 65536#32)).toNat = cfgV.stallMult.toNat * cfgV.timerPeriod.toNat ∧
    (overflowSum cfgV.timerPeriod (running 0#64 0#32 65537#32)).toNat = cfgV.stallMult.toNat * cfgV.timerPeriod.toNat + 1 := by
  decide +kernel

/-- The wheel ids out of range begin at 2 (for every operation of formats W and Q). -/
theorem witness_outOfRange : 2#8 ≠ 0#8 ∧ 2#8 ≠ 1#8 ∧ wheelOf 2#8 = none ∧ wheelOf 1#8 = some .right := by decide

theorem witness_GetodoResult : stV.odo.available = false ∧ stOdo.odo.available = true := by decide +kernel

/-- V45-5: a heading change equal to the threshold takes the arc, one unit below it the straight branch; and a heading that the
normalisation does not end on (which is `WaitingAndStuck`). -/
theorem witness_OdoupdResult :
    flt32 (fabs32 0x358637BD#32) cfgV.odoEps = false ∧ flt32 (fabs32 0x358637BC#32) cfgV.odoEps = true ∧
    normalize b32 normalizeFuel (fadd32 0#32 0x358637BD#32) = some 0x358637BD#32 ∧
    normalize b32 normalizeFuel (fadd32 0#32 0x4D800000#32) = none := by decide +kernel

/-- The first tick after reset (straight), and one with the wheels apart by one revolution (arc). -/
theorem witness_OtickResult :
    goesOn { stV with evtPort := [req 0x04000000#32 0#32] } = true ∧ flt32 (fabs32 (fdiv32 (fsub32 0#32 0#32) stV.geo.w)) cfgV.odoEps = true ∧
    (after .otick { withEnc (running 1024#64 0#32 0#32) with odo := { stV.odo with baselined := true } }).hung = false ∧
    (after .otick { withEnc (running 1024#64 0#32 0#32) with odo := { stV.odo with baselined := true } }).pose.theta = 0xBFC90FDB#32 := by
  decide +kernel

/-- An operation that is no capture, with a next state. -/
theorem witness_PositionSum : exec (.ovf 0#8) stV = .next (after (.ovf 0#8) stV) := by rfl

/-- V40-3: one wrap from the last counter value to 0; the same with no wrap; and as many overflows as declare no stall. -/
theorem witness_IntervalContinuity :
    IntervalConfig stV.cfg ∧ (65535#32).toNat < stV.cfg.timerPeriod.toNat ∧
    (stV.enc.get .left).lastCaptureCounter.toNat ≤ (65535#32).toNat ∧ 1 ≤ stV.cfg.stallMult.toNat ∧
    (65535#32).toNat < 1 * stV.cfg.timerPeriod.toNat + (0#32).toNat ∧
    (1000#32).toNat < 0 * stV.cfg.timerPeriod.toNat + (2000#32).toNat ∧ 2 ≤ stV.cfg.stallMult.toNat := by
  unfold IntervalConfig
  decide +kernel

/-- The last overflow without a stall and the first with one. -/
theorem witness_StallCount :
    IntervalConfig stV.cfg ∧ (3000#32).toNat < stV.cfg.timerPeriod.toNat ∧ 2 ≤ stV.cfg.stallMult.toNat ∧ stV.cfg.stallMult.toNat < 3 := by
  unfold IntervalConfig
  decide +kernel

/-- The largest accumulator and the largest counter value. -/
theorem witness_IntervalNoWrap :
    IntervalConfig stV.cfg ∧ EncoderInRange (withEnc (running 0#64 65535#32 131072#32)) .left ∧
    (65535#32).toNat < stV.cfg.timerPeriod.toNat := by
  unfold IntervalConfig EncoderInRange
  decide +kernel

/-- The reset state of configuration V is in range and a step from it goes on; so is the state with an overflow waiting. -/
theorem witness_IntervalsInRange : IntervalConfig stV.cfg ∧ IntervalsInRange stV ∧ goesOn stV = true := by
  have hc : IntervalConfig stV.cfg := by
    unfold IntervalConfig
    decide +kernel
  refine ⟨hc, ⟨rfl, hc, fun r hr => absurd hr (List.not_mem_nil), fun w => ?_⟩, by decide +kernel⟩
  cases w <;> (unfold EncoderInRange; decide +kernel)

theorem witness_RestartTakesTwoCaptures :
    (stV.enc.get .left).intervalValid = false ∧ (stV.enc.get .left).lastCaptureCounter.toNat ≤ (0#32).toNat ∧
    (0#32).toNat < (65535#32).toNat ∧ (65535#32).toNat < stV.cfg.timerPeriod.toNat := by decide +kernel

/-- Two states that agree on the left wheel and differ on the right. -/
theorem witness_WheelIndependence :
    AgreeOnWheel .left stV { stV with enc := { left := stV.enc.left, right := running 5#64 7#32 9#32 } } ∧
    stV ≠ { stV with enc := { left := stV.enc.left, right := running 5#64 7#32 9#32 } } ∧
    exec .tick stV = .next (after .tick stV) := by
  refine ⟨⟨rfl, rfl, rfl, rfl, rfl, rfl, rfl, rfl, rfl⟩, by decide +kernel, rfl⟩

/-- Each port alone, with a step that goes on. -/
theorem witness_PortIsolation :
    stV.resetPort = false ∧ goesOn { stV with evtPort := [req 0x03000000#32 0#32] } = true ∧
    goesOn { stV with cmdPort := [req 0x10000000#32 0x41800000#32] } = true := by decide +kernel

/-- Each invariant holds of a state from which a step goes on and touches what it speaks of. -/
theorem witness_invariants :
    fle32 zero32 stV.cfg.maxSumError = true ∧ IntegralBounded stOdo ∧ DutyBounded stOdo ∧ HeadingInRange stOdo ∧ ConfigHeld stOdo ∧
    goesOn { stOdo with evtPort := [req 0x03000000#32 0#32] } = true ∧ goesOn { stOdo with evtPort := [req 0x04000000#32 0#32] } = true := by
  refine ⟨by decide +kernel, fun _ w => .inr ?_, fun w => .inr ?_, .inr ?_, ⟨fun w => ?_, rfl, rfl, rfl⟩, by decide +kernel, by decide +kernel⟩
  · cases w <;> decide +kernel
  · cases w <;> decide +kernel
  · decide +kernel
  · cases w <;> exact ⟨rfl, rfl, rfl, rfl, rfl⟩

/-- An available odometry and a step; an update that completes. -/
theorem witness_AvailabilityStays :
    stOdo.resetPort = false ∧ stOdo.odo.available = true ∧ goesOn { stOdo with cmdPort := [req 0x15000000#32 0#32] } = true ∧
    (after (.odoupd 0#32 0#32 0x3C800000#32) stV).hung = false := by decide +kernel

theorem witness_TickComposition : exec .tick stOdo = .next (after .tick stOdo) := rfl

theorem witness_SetvelComposition :
    exec (.setvel 0x3F000000#32 0x40000000#32) stV = .next (after (.setvel 0x3F000000#32 0x40000000#32) stV) := rfl

/-- Each of the three forms. -/
theorem witness_IdempotentWrites :
    exec (.setsp 1#8 0x41200000#32) stV = .next (after (.setsp 1#8 0x41200000#32) stV) ∧
    exec (.setvel 0#32 0x3F800000#32) stV = .next (after (.setvel 0#32 0x3F800000#32) stV) ∧
    exec .rstodo stOdo = .next (after .rstodo stOdo) := ⟨rfl, rfl, rfl⟩

theorem witness_Rebaseline :
    positiveWord stOdo.geo.w = true ∧ positiveWord stOdo.cfg.odoEps = true ∧ positiveWord 0x3C800000#32 = true := by decide +kernel

/-- X3. -/
theorem witness_StraightLine :
    positiveWord stOdo.geo.w = true ∧ positiveWord stOdo.cfg.odoEps = true ∧ stOdo.odo.baselined = true ∧ stOdo.pose.theta = zero32 ∧
    fsub32 (fmul32 0x42800000#32 stOdo.geo.r) stOdo.odo.lastLin.left = one32 ∧
    fsub32 (fmul32 0x42800000#32 stOdo.geo.r) stOdo.odo.lastLin.right = one32 := by decide +kernel

/-- The three cases and the edge between the first and the last: 2^27, a NaN, the next value above 2^27. -/
theorem witness_NormalizeEnds :
    fle32 (fabs32 0xCD000000#32) 0x4D000000#32 = true ∧ isNaN32 0x7FC00000#32 = true ∧
    fgt32 (fabs32 0x4D000001#32) 0x4D000000#32 = true ∧ fgt32 (fabs32 0x4D000000#32) 0x4D000000#32 = false := by decide +kernel

/-- A geometry of positive radius and width, a filter of positive variances. -/
theorem witness_real :
    (0 : ℝ) < ({ r := 1, w := 2, kSpeed := 0 } : Geometry ℝ).r ∧ (0 : ℝ) < ({ r := 1, w := 2, kSpeed := 0 } : Geometry ℝ).w ∧
    (0 : ℝ) < ({ gain := 0, p := 0, r := 1, q := 1, lastEstimate := 0 } : Kalman ℝ).r ∧
    (0 : ℝ) < ({ gain := 0, p := 0, r := 1, q := 1, lastEstimate := 0 } : Kalman ℝ).q ∧
    (0 : ℝ) ≤ ({ gain := 0, p := 0, r := 1, q := 1, lastEstimate := 0 } : Kalman ℝ).p := by norm_num

/-- The open end of the interval, for which one addition is needed. -/
theorem witness_NormalizeReal : |-Real.pi| ≤ Real.pi + 2 * Real.pi * (0 : Nat) := by
  rw [abs_neg, abs_of_pos Real.pi_pos]
  simp

/-- Finite operands of both formats; a divisor other than zero; NaNs, infinities and zeros; and the edge of overflow (R206 (b)): the
largest finite value and half its spacing make an infinity, and with the word below that half they do not. -/
theorem witness_CorrectlyRounded :
    isFinite32 0x3F800000#32 = true ∧ isFinite32 0x00000001#32 = true ∧ isFinite64 0x0000000000000001#64 = true ∧
    fadd32 0x7F7FFFFF#32 0x73000000#32 = 0x7F800000#32 ∧ fadd32 0x7F7FFFFF#32 0x72FFFFFF#32 = 0x7F7FFFFF#32 ∧
    isNaN32 0x7FC00000#32 = true ∧ isNaN64 0x7FF8000000000000#64 = true ∧ isInf32 0xFF800000#32 = true ∧
    isInf64 0x7FF0000000000000#64 = true ∧ value32 0x40400000#32 ≠ 0 ∧ value64 0x4008000000000000#64 ≠ 0 ∧
    value32 0x80000000#32 = 0 ∧ value64 0x8000000000000000#64 = 0 := by
  rw [ne_eq, ne_eq, value32_eq_zero_iff, value64_eq_zero_iff, value32_eq_zero_iff, value64_eq_zero_iff]
  decide +kernel

/-- A pair of finite words, and a NaN. -/
theorem witness_ComparisonsAreOrder :
    isFinite32 0x80000000#32 = true ∧ isFinite32 0x00000000#32 = true ∧ isNaN32 0x7F800001#32 = true ∧ isNaN32 0x7F800000#32 = false := by
  decide +kernel

/-- The edges of the exact ranges. -/
theorem witness_ConversionsExact :
    (16777216#32).toNat ≤ 2 ^ 24 ∧ (0xFFE0000000000000#64).toInt.natAbs ≤ 2 ^ 53 ∧ isFinite32 0x7F7FFFFF#32 = true := by decide +kernel

/-- R9: under `REAL` the operand word 0x41200000, the pattern of 10.0 (spec/95_test_vectors.md V43-1), is the real number 10. -/
theorem test_real_dec32 : real.dec32 0x41200000#32 = 10 := by
  have hu : units32 0x41200000#32 = 10 * 2 ^ 149 := by decide +kernel
  have hv : value32 0x41200000#32 = 10 := by
    rw [value32, hu]
    norm_num
  change realOfWord 0x41200000#32 = 10
  rw [realOfWord, if_pos (by decide +kernel), hv]
  norm_num

end Sys2Proof.Tests
end

section
/-! PROOF. The reset state read element by element (R38): the elements that come from the configuration registers are given for either
wheel, over any configuration, and the rest are the fields of `State.boot`. -/

namespace Sys2Proof.Machine

/-- The zero of the datapath, as the word it is (R7). -/
theorem b32_zero_word : b32.zero = 0#32 := b32_zero

theorem kalmanAtReset_get (c : Cfg) (w : Wheel) :
    (kalmanAtReset c).get w = { gain := 0#32, p := c.p0.get w, r := c.r.get w, q := c.q.get w, lastEstimate := 0#32 } := by
  cases w <;> simp only [kalmanAtReset, Kalman.atReset, bank_get_left, bank_get_right, b32_zero_word]

theorem pidAtReset_get (c : Cfg) (w : Wheel) :
    (pidAtReset c).get w = { kP := c.kp.get w, kI := c.ki.get w, kD := c.kd.get w, setpoint := 0#32, integral := 0#32,
                             lastError := 0#32 } := by
  cases w <;> simp only [pidAtReset, Pid.atReset, bank_get_left, bank_get_right, b32_zero_word]

/-- R33: the geometry, its speed constant in the binary32 primitives. -/
theorem geometry_ofCfg (c : Cfg) :
    Geometry.ofCfg c = { r := c.wheelRadius, w := c.trackWidth,
                         kSpeed := fmul32 (fmul32 (fdiv32 one32 c.epr) twoPi32) c.tickFreq } := by
  simp only [Geometry.ofCfg, speedConstant, b32_fmul, b32_fdiv, b32_one, b32_twoPiF]

/-- Settles O10: every row of R38's table is a field of `State.boot`, read by its own lemma. -/
theorem resetValues : Obligations.ResetValues := by
  unfold Obligations.ResetValues State.reset
  refine ⟨fun w => ⟨?enc, ?spd, ?kf, ?pid, ?duty, ?lastLin⟩, boot_emitted .., ?pose, ?baselined, ?available, ?geo⟩
  case enc => rw [boot_enc, bank_both_get, Encoder.atReset]
  case spd => rw [boot_spd, bank_both_get, SpeedSample.stopped, b32_zero_word]
  case kf => rw [boot_kf, boot_cfg, kalmanAtReset_get]
  case pid => rw [boot_pid, boot_cfg, pidAtReset_get]
  case duty => rw [boot_duty, bank_both_get, b32_zero_word]
  case lastLin => rw [boot_odo, bank_both_get, b32_zero_word]
  case pose => rw [boot_pose, Pose.origin, b32_zero_word]
  case baselined => rw [boot_odo]
  case available => rw [boot_odo]
  case geo => rw [boot_geo, boot_cfg, geometry_ofCfg]

end Sys2Proof.Machine
end

section
/-! PROOF. The decoder on a word that matches a row (R86, R89): the opcode byte of the word names the row, so the row is the only one, and
decoding assembles its operation. For format W the wheel id is read back as it was written. -/

namespace Sys2Proof.Machine

theorem mask_opcode (m : Mnemonic) : m.mask.extractLsb' 24 8 = BitVec.allOnes 8 := by cases m <;> rfl

theorem opcode_injective : Function.Injective Mnemonic.opcode := by
  intro m n
  cases m <;> cases n <;> decide

/-- No mask covers the opcode, so a matching word carries the row's opcode in bits 31:24. -/
theorem opcode_of_match {x : U32} {m : Mnemonic} (h : x &&& m.mask = m.matchWord) : x.extractLsb' 24 8 = m.opcode := by
  have hbyte := congrArg (BitVec.extractLsb' 24 8) h
  rwa [BitVec.extractLsb'_and, mask_opcode, BitVec.and_allOnes, Mnemonic.matchWord, BitVec.extractLsb'_append_eq_left] at hbyte

theorem row_unique {x : U32} {m n : Mnemonic} (hm : x &&& m.mask = m.matchWord) (hn : x &&& n.mask = n.matchWord) : m = n :=
  opcode_injective ((opcode_of_match hm).symm.trans (opcode_of_match hn))

theorem rowOf_of_match {x : U32} {m : Mnemonic} (h : x &&& m.mask = m.matchWord) : rowOf x = some m := by
  cases hr : rowOf x with
  | none => exact absurd h (rowOf_none hr m)
  | some n => rw [row_unique h (rowOf_some hr)]

theorem decode_of_match {r : Request} {m : Mnemonic} (h : r.op &&& m.mask = m.matchWord) : decode m.port r = .ok (assemble m r) := by
  rw [decode, rowOf_of_match h]
  exact if_pos rfl

@[simp] theorem widField_opWordW (opc wid : U8) : widField (opWordW opc wid) = wid := by
  rw [widField, opWordW, BitVec.extractLsb'_append_eq_of_le (by decide)]
  exact BitVec.extractLsb'_append_eq_right

/-- R83, R89: a word of format W is decoded to its row's operation, whatever the wheel id and the operand words. -/
theorem decode_opWordW {m : Mnemonic} (hm : m.format = .W) (wid : U8) (a b c : U32) :
    decode m.port { op := opWordW m.opcode wid, a := a, b := b, c := c } =
      .ok (assemble m { op := opWordW m.opcode wid, a := a, b := b, c := c }) :=
  decode_of_match (Laws.opWordW_row m hm wid)

end Sys2Proof.Machine
end

section
/-! PROOF. The four operations of the encoder decoder as equations: one for the wheel that a wheel id selects and one for a wheel id out of
range (R87). Later proofs use these and do not unfold `exec`. -/

namespace Sys2Proof.Machine

section equations

variable (w : Wheel) (s : State)

theorem exec_cap_wheel (ch edge pair : Bool) (cnt : U32) :
    exec (.cap (widOf w) ch edge pair cnt) s = .next (s.capture w (direction ch edge pair) cnt).silent := by
  simp only [exec, execCap, wheelOf_widOf]

theorem exec_ovf_wheel : exec (.ovf (widOf w)) s = .next (s.overflow w).silent := by
  simp only [exec, execOvf, wheelOf_widOf]

theorem exec_rdpos_wheel : exec (.rdpos (widOf w)) s = .next (s.reply (Response.wide (s.enc.get w).position)) := by
  simp only [exec, execRdpos, wheelOf_widOf]

theorem exec_getrev_wheel :
    exec (.getrev (widOf w)) s = .next (s.reply (Response.wide (ddiv64 (i2d64 (s.enc.get w).position) (f2d64 s.cfg.epr)))) := by
  simp only [exec, execGetrev, wheelOf_widOf, revolutions, b32_ddiv, b32_i2d, b32_f2d, enc64_eq]

end equations

section outOfRange

variable {wid : U8} (h : wheelOf wid = none) (s : State)
include h

theorem exec_ovf_out_of_range : exec (.ovf wid) s = .next s.silent := by
  simp only [exec, execOvf, h]

theorem exec_rdpos_out_of_range : exec (.rdpos wid) s = .next (s.reply (Response.bare .ok)) := by
  simp only [exec, execRdpos, h]

theorem exec_getrev_out_of_range : exec (.getrev wid) s = .next (s.reply (Response.bare .ok)) := by
  simp only [exec, execGetrev, h]

end outOfRange

/-- R63: the two words of a 64-bit result, joined high to low, are the result. -/
theorem highWord_append_lowWord (v : U64) : highWord v ++ lowWord v = v := BitVec.extractLsb'_append_extractLsb'

theorem response_wide (v : U64) :
    Response.wide v = { s := 0#32, r0 := lowWord v, r1 := highWord v, r2 := 0#32, r3 := 0#32, r4 := 0#32 } := rfl

theorem response_bare_ok : Response.bare .ok = okZero := rfl

end Sys2Proof.Machine
end

section
/-! PROOF. The statements about one operation of the encoder decoder at a time: `OVF`, `RDPOS`, `GETREV` and the direction function. -/

namespace Sys2Proof.Machine

/-- Settles O14: the stall test splits on the exact threshold, and each branch of `overflowEncoder` is the clause of its side. -/
theorem ovfResult : Obligations.OvfResult := by
  unfold Obligations.OvfResult
  refine ⟨fun wid a b c => ?decodes, fun w s => ⟨fun hlt => ?stall, fun hle => ?noStall⟩, fun wid s h0 h1 => ?outOfRange⟩
  case decodes =>
    refine (decode_opWordW (m := .OVF) rfl wid a b c).trans ?_
    rw [assemble, widField_opWordW]
  case stall =>
    obtain ⟨hstalls, henc⟩ := overflowEncoder_stall (e := s.enc.get w) hlt
    rw [exec_ovf_wheel, State.overflow, henc, hstalls]
    rfl
  case noStall =>
    obtain ⟨hstalls, henc⟩ := overflowEncoder_no_stall (e := s.enc.get w) hle
    rw [exec_ovf_wheel, State.overflow, henc, hstalls, overflowSample, if_neg Bool.false_ne_true, bank_set_get]
    rfl
  case outOfRange => exact exec_ovf_out_of_range (wheelOf_out_of_range h0 h1) s

/-- Settles O15: the response of `RDPOS` is the position in two words. -/
theorem rdposResult : Obligations.RdposResult := by
  unfold Obligations.RdposResult
  refine ⟨fun wid a b c => ?decodes, fun w s => ⟨_, _, highWord_append_lowWord _, ?reads⟩, fun wid s h0 h1 => ?outOfRange⟩
  case decodes =>
    refine (decode_opWordW (m := .RDPOS) rfl wid a b c).trans ?_
    rw [assemble, widField_opWordW]
  case reads => rw [exec_rdpos_wheel, response_wide, State.reply]
  case outOfRange => rw [exec_rdpos_out_of_range (wheelOf_out_of_range h0 h1), response_bare_ok, State.reply]

/-- Settles O16: the response of `GETREV` is the binary64 quotient in two words. -/
theorem getrevResult : Obligations.GetrevResult := by
  unfold Obligations.GetrevResult
  refine ⟨fun wid a b c => ?decodes, fun w s => ⟨_, _, highWord_append_lowWord _, ?reads⟩, fun wid s h0 h1 => ?outOfRange⟩
  case decodes =>
    refine (decode_opWordW (m := .GETREV) rfl wid a b c).trans ?_
    rw [assemble, widField_opWordW]
  case reads => rw [exec_getrev_wheel, response_wide, State.reply]
  case outOfRange => rw [exec_getrev_out_of_range (wheelOf_out_of_range h0 h1), response_bare_ok, State.reply]

theorem sgn_eq_pos_iff (b : Bool) : sgn b = .pos ↔ b = true := by cases b <;> decide

theorem signMul_sgn (a b : Bool) : signMul (sgn a) (sgn b) = sgn (!xor a b) := by cases a <;> cases b <;> rfl

/-- R111: the product of the three remapped bits is +1 exactly when their parity is odd. -/
theorem direction_eq_sgn_xor (ch edge pair : Bool) : direction ch edge pair = sgn (xor ch (xor edge pair)) := by
  rw [direction, signMul_sgn, signMul_sgn, Bool.not_xor, Bool.not_not, Bool.xor_assoc]

/-- Settles O29: the eight rows are values of `direction`, and the parity law is `direction_eq_sgn_xor`. -/
theorem directionTable : Obligations.DirectionTable := by
  unfold Obligations.DirectionTable
  refine ⟨rfl, rfl, rfl, rfl, rfl, rfl, rfl, rfl, fun ch edge pair => ?_⟩
  rw [direction_eq_sgn_xor, sgn_eq_pos_iff]

end Sys2Proof.Machine
end

section
/-! PROOF. Positions (R116): a capture adds its direction, and no other operation changes a position. -/

namespace Sys2Proof.Machine

theorem odoUpdate_enc {s t : State} {p0 p1 dt : F32} (h : s.odoUpdate p0 p1 dt = some t) : t.enc = s.enc := by
  obtain ⟨_, -, rfl⟩ := odoUpdate_some h
  rfl

/-- R39: only `CAP` and `OVF` write the encoders. -/
theorem exec_enc {i : Instr} {s t : State} (hcap : ∀ (wid : U8) (ch edge pair : Bool) (cnt : U32), i ≠ .cap wid ch edge pair cnt)
    (hovf : ∀ wid : U8, i ≠ .ovf wid) (h : exec i s = .next t) : t.enc = s.enc := by
  cases i with
  | cap wid ch edge pair cnt => exact absurd rfl (hcap wid ch edge pair cnt)
  | ovf wid => exact absurd rfl (hovf wid)
  | tick | setvel | rstodo | kininv | kinfwd =>
    cases h
    rfl
  | getodo | setsp | getspd | getrev | rdpos | kfupd | pidcmp =>
    simp only [exec, execGetodo, execSetsp, execGetspd, execGetrev, execRdpos, execKfupd, execPidcmp] at h
    split at h <;> cases h <;> rfl
  | otick =>
    obtain ⟨u, hu, hx⟩ | ⟨-, hx⟩ := execOtick_cases s <;> cases hx.symm.trans h
    · exact (silent_enc u).trans (odoUpdate_enc hu)
    · rfl
  | odoupd p0 p1 dt =>
    obtain ⟨u, hu, hx⟩ | ⟨-, hx⟩ := execOdoupd_cases p0 p1 dt s <;> cases hx.symm.trans h
    · exact (reply_enc u _).trans (odoUpdate_enc hu)
    · rfl

theorem overflow_position (s : State) (v w : Wheel) : ((s.overflow v).enc.get w).position = (s.enc.get w).position := by
  rw [overflow_enc]
  rcases eq_or_ne w v with rfl | hne
  · rw [bank_get_set, overflowEncoder_position]
  · rw [bank_get_set_of_ne _ _ _ _ hne]

theorem exec_position {i : Instr} {s t : State}
    (hcap : ∀ (wid : U8) (ch edge pair : Bool) (cnt : U32), i ≠ .cap wid ch edge pair cnt) (h : exec i s = .next t) (w : Wheel) :
    (t.enc.get w).position = (s.enc.get w).position := by
  by_cases hovf : ∃ wid : U8, i = .ovf wid
  · obtain ⟨wid, rfl⟩ := hovf
    cases hw : wheelOf wid with
    | none =>
      cases (exec_ovf_out_of_range hw s).symm.trans h
      rfl
    | some v =>
      obtain rfl := wheelOf_some hw
      cases (exec_ovf_wheel v s).symm.trans h
      exact overflow_position s v w
  · rw [exec_enc hcap (not_exists.1 hovf) h]

theorem captures_position_sum (w : Wheel) (events : List (Bool × Bool × Bool × U32)) (s : State) :
    ∃ t : State, runOps (events.map (fun x => .cap (widOf w) x.1 x.2.1 x.2.2.1 x.2.2.2)) s = .next t ∧
      (t.enc.get w).position =
        (s.enc.get w).position + BitVec.ofInt 64 ((events.map (fun x => (direction x.1 x.2.1 x.2.2.1).toInt)).sum) ∧
      (t.enc.get w.other).position = (s.enc.get w.other).position := by
  induction events generalizing s with
  | nil => exact ⟨s, rfl, (BitVec.add_zero _).symm, rfl⟩
  | cons x xs ih =>
    obtain ⟨ch, edge, pair, cnt⟩ := x
    obtain ⟨t, hrun, hpos, hother⟩ := ih (s.capture w (direction ch edge pair) cnt).silent
    refine ⟨t, (runOps_cons (exec_cap_wheel w s ch edge pair cnt)).trans hrun, ?_, ?_⟩
    · rw [hpos, silent_enc, capture_enc, bank_get_set, captureEncoder_position, List.map_cons, List.sum_cons, BitVec.ofInt_add,
        BitVec.add_assoc]
    · rw [hother, silent_enc, capture_enc, bank_get_set_other]

/-- Settles O30: the sum by induction over the captures, the rest by `exec_position`. -/
theorem positionSum : Obligations.PositionSum := by
  unfold Obligations.PositionSum
  exact ⟨captures_position_sum, fun i s t hcap h w => exec_position hcap h w⟩

end Sys2Proof.Machine
end

section
/-! PROOF. The interval that runs since a capture (R117, R118): what the encoder holds after a capture at `c0` and `k` overflows.
The invariant `IntervalSince` counts exact ticks in `Nat`; the bound of R5 (c) keeps every sum below 2^32. -/

namespace Sys2Proof.Machine

/-- The encoder after a capture at `c0` and `k` overflows: the accumulator counts the ticks from `c0` to the last counter value, over
at most `STALL_MULT` periods, and the interval is valid until the overflow `STALL_MULT + 1`. -/
structure IntervalSince (c : Cfg) (c0 : U32) (k : Nat) (e : Encoder) : Prop where
  last : e.lastCaptureCounter = if k = 0 then c0 else 0#32
  ticks : e.intervalAccumulator.toNat + c0.toNat =
    min k c.stallMult.toNat * c.timerPeriod.toNat + e.lastCaptureCounter.toNat
  valid : e.intervalValid = decide (k ≤ c.stallMult.toNat)

theorem overflowSum_toNat {tp : U32} {e : Encoder} (hlast : e.lastCaptureCounter.toNat ≤ tp.toNat)
    (hfit : e.intervalAccumulator.toNat + (tp.toNat - e.lastCaptureCounter.toNat) < 2 ^ 32) :
    (overflowSum tp e).toNat = e.intervalAccumulator.toNat + (tp.toNat - e.lastCaptureCounter.toNat) := by
  have hsub := BitVec.toNat_sub_of_le (BitVec.le_def.2 hlast)
  rw [overflowSum, BitVec.toNat_add_of_lt (by rwa [hsub]), hsub]

theorem elapsed_toNat {cnt : U32} {e : Encoder} (hlast : e.lastCaptureCounter.toNat ≤ cnt.toNat)
    (hfit : e.intervalAccumulator.toNat + (cnt.toNat - e.lastCaptureCounter.toNat) < 2 ^ 32) :
    (elapsed e cnt).toNat = e.intervalAccumulator.toNat + (cnt.toNat - e.lastCaptureCounter.toNat) := by
  have hsub := BitVec.toNat_sub_of_le (BitVec.le_def.2 hlast)
  rw [elapsed, BitVec.toNat_add_of_lt (by rwa [hsub]), hsub]

theorem intervalSince_capture (c : Cfg) (e : Encoder) (d : Sign) (c0 : U32) : IntervalSince c c0 0 (captureEncoder e d c0) where
  last := rfl
  ticks := by simp
  valid := rfl

section interval

variable {c : Cfg} {c0 : U32} {k : Nat} {e : Encoder}

/-- R5 (c): as many periods as an interval can count fit in 32 bits, with one more period to spare. -/
theorem IntervalConfig.periods_fit (hc : IntervalConfig c) (k : Nat) :
    min k c.stallMult.toNat * c.timerPeriod.toNat + c.timerPeriod.toNat < 2 ^ 32 := by
  obtain ⟨-, -, hfit⟩ := hc
  have hle := Nat.mul_le_mul_right c.timerPeriod.toNat (Nat.min_le_right k c.stallMult.toNat)
  rw [Nat.succ_mul] at hfit
  omega

theorem IntervalSince.last_lt (h : IntervalSince c c0 k e) (h0 : c0.toNat < c.timerPeriod.toNat) :
    e.lastCaptureCounter.toNat < c.timerPeriod.toNat := by
  rw [h.last]
  split
  · exact h0
  · exact Nat.zero_lt_of_lt h0

/-- R118: the next overflow's sum, exact. -/
theorem IntervalSince.overflowSum_ticks (h : IntervalSince c c0 k e) (hc : IntervalConfig c)
    (h0 : c0.toNat < c.timerPeriod.toNat) :
    (overflowSum c.timerPeriod e).toNat + c0.toNat =
      min k c.stallMult.toNat * c.timerPeriod.toNat + c.timerPeriod.toNat := by
  have hticks := h.ticks
  have hlast := h.last_lt h0
  have hfit := hc.periods_fit k
  rw [overflowSum_toNat hlast.le (by omega)]
  omega

/-- R118: the overflow after `k` others declares a stall exactly when those were `STALL_MULT` or more. -/
theorem IntervalSince.stalls_iff (h : IntervalSince c c0 k e) (hc : IntervalConfig c) (h0 : c0.toNat < c.timerPeriod.toNat) :
    stalls c.timerPeriod c.stallMult e = decide (c.stallMult.toNat ≤ k) := by
  have hsum := h.overflowSum_ticks hc h0
  rw [stalls, decide_eq_decide]
  rcases Nat.lt_or_ge k c.stallMult.toNat with hk | hk
  · have hle := Nat.mul_le_mul_right c.timerPeriod.toNat hk
    rw [Nat.min_eq_left hk.le, ← Nat.succ_mul] at hsum
    omega
  · rw [Nat.min_eq_right hk] at hsum
    omega

theorem IntervalSince.overflow (h : IntervalSince c c0 k e) (hc : IntervalConfig c) (h0 : c0.toNat < c.timerPeriod.toNat) :
    IntervalSince c c0 (k + 1) (overflowEncoder c.timerPeriod c.stallMult e) := by
  have hsum := h.overflowSum_ticks hc h0
  rcases Nat.lt_or_ge k c.stallMult.toNat with hk | hk
  · have hle := Nat.mul_le_mul_right c.timerPeriod.toNat hk
    rw [Nat.min_eq_left hk.le, ← Nat.succ_mul] at hsum
    rw [(overflowEncoder_no_stall (by omega)).2]
    exact { last := rfl, ticks := by rw [Nat.min_eq_left hk]; exact hsum,
            valid := h.valid.trans ((decide_eq_true hk.le).trans (decide_eq_true hk).symm) }
  · obtain ⟨-, hsm, -⟩ := hc
    have hone := Nat.mul_le_mul_right c.timerPeriod.toNat hsm
    rw [Nat.min_eq_right hk] at hsum
    have hback := BitVec.toNat_sub_of_le (x := overflowSum c.timerPeriod e) (y := c.timerPeriod) (BitVec.le_def.2 (by omega))
    rw [(overflowEncoder_stall (by omega)).2]
    exact { last := rfl, ticks := by rw [Nat.min_eq_right (by omega), hback, BitVec.toNat_ofNat, Nat.zero_mod]; omega,
            valid := (decide_eq_false (by omega)).symm }

/-- R117: the interval a capture at `c1` closes, exact: the ticks between both captures on a counter that never wrapped. -/
theorem IntervalSince.elapsed_ticks (h : IntervalSince c c0 k e) (hc : IntervalConfig c) {c1 : U32}
    (h1 : c1.toNat < c.timerPeriod.toNat) (hlast : e.lastCaptureCounter.toNat ≤ c1.toNat) (hk : k ≤ c.stallMult.toNat) :
    (elapsed e c1).toNat + c0.toNat = k * c.timerPeriod.toNat + c1.toNat := by
  have hticks := h.ticks
  have hfit := hc.periods_fit k
  rw [Nat.min_eq_left hk] at hticks hfit
  rw [elapsed_toNat hlast (by omega)]
  omega

/-- A capture at `c1` later than the one at `c0` does not lie before the last counter value. -/
theorem IntervalSince.last_le (h : IntervalSince c c0 k e) {c1 : U32} (hlt : c0.toNat < k * c.timerPeriod.toNat + c1.toNat) :
    e.lastCaptureCounter.toNat ≤ c1.toNat := by
  rw [h.last]
  split
  · rename_i hk
    rw [hk, Nat.zero_mul] at hlt
    omega
  · exact Nat.zero_le _

end interval

end Sys2Proof.Machine
end

section
/-! PROOF. Overflows one after another (R117, R118): the state after `k` of them, and from it the continuity of an interval across wraps and
the count at which the stall is declared. -/

namespace Sys2Proof.Machine

/-- The state after `k` overflows of wheel `w`. -/
def State.overflows (s : State) (w : Wheel) : Nat → State
  | 0 => s
  | k + 1 => ((s.overflows w k).overflow w).silent

section overflows

variable (s : State) (w : Wheel)

theorem runOps_replicate_ovf (k : Nat) : runOps (List.replicate k (.ovf (widOf w))) s = .next (s.overflows w k) := by
  induction k with
  | zero => rfl
  | succ k ih => rw [List.replicate_succ', runOps_append ih, runOps_cons (exec_ovf_wheel w _), runOps, State.overflows]

theorem overflows_succ (k : Nat) : s.overflows w (k + 1) = ((s.overflows w k).overflow w).silent := rfl

@[simp] theorem overflows_cfg (k : Nat) : (s.overflows w k).cfg = s.cfg := by
  induction k with
  | zero => rfl
  | succ k ih => rw [overflows_succ, silent_cfg, overflow_cfg, ih]

@[simp] theorem overflows_geo (k : Nat) : (s.overflows w k).geo = s.geo := by
  induction k with
  | zero => rfl
  | succ k ih => rw [overflows_succ, silent_geo, overflow_geo, ih]

@[simp] theorem overflows_illTimed (k : Nat) : (s.overflows w k).illTimed = s.illTimed := by
  induction k with
  | zero => rfl
  | succ k ih => rw [overflows_succ, silent_illTimed, overflow_illTimed, ih]

theorem overflows_enc_succ (k : Nat) :
    (s.overflows w (k + 1)).enc.get w = overflowEncoder s.cfg.timerPeriod s.cfg.stallMult ((s.overflows w k).enc.get w) := by
  rw [overflows_succ, silent_enc, overflow_enc, bank_get_set, overflows_cfg]

theorem overflows_spd_succ (k : Nat) :
    (s.overflows w (k + 1)).spd.get w =
      overflowSample b32 (stalls s.cfg.timerPeriod s.cfg.stallMult ((s.overflows w k).enc.get w)) ((s.overflows w k).spd.get w) := by
  rw [overflows_succ, silent_spd, overflow_spd, bank_get_set, overflows_cfg]

end overflows

section afterCapture

variable {s : State} {c0 : U32} (hc : IntervalConfig s.cfg) (h0 : c0.toNat < s.cfg.timerPeriod.toNat) (w : Wheel) (d : Sign)
include hc h0

theorem intervalSince_capture_overflows (k : Nat) :
    IntervalSince s.cfg c0 k (((s.capture w d c0).silent.overflows w k).enc.get w) := by
  induction k with
  | zero =>
    rw [State.overflows, silent_enc, capture_enc, bank_get_set]
    exact intervalSince_capture s.cfg _ d c0
  | succ k ih =>
    rw [overflows_enc_succ, silent_cfg, capture_cfg]
    exact ih.overflow hc h0

theorem spd_capture_overflows (k : Nat) :
    ((s.capture w d c0).silent.overflows w k).spd.get w =
      if k ≤ s.cfg.stallMult.toNat then (s.capture w d c0).silent.spd.get w else SpeedSample.stopped b32 := by
  induction k with
  | zero => exact (if_pos (Nat.zero_le _)).symm
  | succ k ih =>
    rw [overflows_spd_succ, silent_cfg, capture_cfg, (intervalSince_capture_overflows hc h0 w d k).stalls_iff hc h0]
    rcases Nat.lt_or_ge k s.cfg.stallMult.toNat with hk | hk
    · rw [decide_eq_false (by omega), overflowSample, if_neg Bool.false_ne_true, ih, if_pos hk.le, if_pos (Nat.succ_le_of_lt hk)]
    · rw [decide_eq_true hk, overflowSample, if_pos rfl, if_neg (by omega)]

end afterCapture

theorem speedSample_stopped : SpeedSample.stopped b32 = { angularVelocity := 0#32, timestampValidity := false } := by
  rw [SpeedSample.stopped, b32_zero_word]

/-- R112: the sample of a well-timed capture that closes an interval of at least one tick, begun at a well-timed one. -/
theorem capture_sample {s : State} {w : Wheel} {d : Sign} {cnt : U32} (hvalid : (s.enc.get w).intervalValid = true)
    (hel : elapsed (s.enc.get w) cnt ≠ 0#32)
    (htimed : captureWellTimed s.cfg.timerPeriod (s.enc.get w).lastCaptureCounter cnt = true) (hstart : s.illTimed.get w = false) :
    (s.capture w d cnt).spd.get w =
      { angularVelocity := speedFromInterval b32 s.geo.kSpeed (elapsed (s.enc.get w) cnt) d, timestampValidity := true } := by
  have hcompletes : completesInterval (s.enc.get w) cnt = true := by
    rw [completesInterval, hvalid, Bool.true_and, bne_iff_ne]
    exact hel
  have hspeed : captureSpeed s w d cnt = speedFromInterval b32 s.geo.kSpeed (elapsed (s.enc.get w) cnt) d := by
    rw [captureSpeed, htimed, hstart]
    rfl
  rw [capture_spd, bank_get_set, hcompletes, hspeed, captureSample, if_pos rfl]

theorem captureWellTimed_iff {tp last cnt : U32} :
    captureWellTimed tp last cnt = true ↔ cnt.toNat < tp.toNat ∧ last.toNat ≤ cnt.toNat := by
  rw [captureWellTimed, Bool.and_eq_true, decide_eq_true_iff, decide_eq_true_iff]

/-- R117: the sample of the capture that closes a running interval of `k` overflows, begun at a well-timed capture at `c0`. -/
theorem capture_sample_of_intervalSince {s : State} {w : Wheel} {d : Sign} {c0 c1 : U32} {k : Nat}
    (h : IntervalSince s.cfg c0 k (s.enc.get w)) (hc : IntervalConfig s.cfg) (hstart : s.illTimed.get w = false)
    (h1 : c1.toNat < s.cfg.timerPeriod.toNat) (hk : k ≤ s.cfg.stallMult.toNat)
    (hlt : c0.toNat < k * s.cfg.timerPeriod.toNat + c1.toNat) :
    (s.capture w d c1).spd.get w =
      { angularVelocity :=
          speedFromInterval b32 s.geo.kSpeed (BitVec.ofNat 32 (k * s.cfg.timerPeriod.toNat + c1.toNat - c0.toNat)) d
        timestampValidity := true } := by
  have hlast := h.last_le hlt
  have hticks := h.elapsed_ticks hc h1 hlast hk
  have hne : elapsed (s.enc.get w) c1 ≠ 0#32 := by
    intro hzero
    rw [hzero, BitVec.toNat_ofNat] at hticks
    omega
  rw [capture_sample (h.valid.trans (decide_eq_true hk)) hne (captureWellTimed_iff.2 ⟨h1, hlast⟩) hstart, ← hticks,
    Nat.add_sub_cancel, BitVec.ofNat_toNat, BitVec.setWidth_eq]

/-- Settles O31: the run is a capture, `k` overflows and a capture; the invariant after the overflows gives the sample. -/
theorem intervalContinuity : Obligations.IntervalContinuity := by
  unfold Obligations.IntervalContinuity
  intro w ch edge pair ch' edge' pair' c0 c1 k s hc h0 hlast h1 hk hlt
  have hrunning := intervalSince_capture_overflows hc h0 w (direction ch edge pair) k
  have hcfg : ((s.capture w (direction ch edge pair) c0).silent.overflows w k).cfg = s.cfg := overflows_cfg ..
  have hgeo : ((s.capture w (direction ch edge pair) c0).silent.overflows w k).geo = s.geo := overflows_geo ..
  have hstart : ((s.capture w (direction ch edge pair) c0).silent.overflows w k).illTimed.get w = false := by
    rw [overflows_illTimed, silent_illTimed, capture_illTimed, bank_get_set, captureWellTimed_iff.2 ⟨h0, hlast⟩, Bool.not_true]
  have hrun := runOps_replicate_ovf (s.capture w (direction ch edge pair) c0).silent w k
  generalize (s.capture w (direction ch edge pair) c0).silent.overflows w k = u at *
  rw [← hcfg] at hc hrunning h1 hk hlt
  have hsample := capture_sample_of_intervalSince (d := direction ch' edge' pair') hrunning hc hstart h1 hk hlt
  rw [hcfg, hgeo] at hsample
  refine ⟨(u.capture w (direction ch' edge' pair') c1).silent, ?_, ?_, ?_⟩
  · rw [List.append_assoc, List.singleton_append, runOps_cons (exec_cap_wheel w s ch edge pair c0), runOps_append hrun,
      runOps_cons (exec_cap_wheel w u ch' edge' pair' c1), runOps]
  · rw [silent_spd, hsample]
  · rw [silent_spd, hsample]

/-- Settles O32: both clauses read off the invariant after `k` overflows, on the two sides of `STALL_MULT`. -/
theorem stallCount : Obligations.StallCount := by
  unfold Obligations.StallCount
  intro w ch edge pair c0 s hc h0
  refine ⟨(s.capture w (direction ch edge pair) c0).silent, exec_cap_wheel w s ch edge pair c0, fun k hk1 =>
    ⟨_, runOps_replicate_ovf _ w k, ?_⟩⟩
  have hu := intervalSince_capture_overflows hc h0 w (direction ch edge pair) k
  have hspd := spd_capture_overflows hc h0 w (direction ch edge pair) k
  have hticks := hu.ticks
  rw [hu.last, if_neg (by omega), BitVec.toNat_ofNat, Nat.zero_mod, Nat.add_zero] at hticks
  constructor
  · intro hk
    rw [Nat.min_eq_left hk] at hticks
    exact ⟨Nat.eq_sub_of_add_eq hticks, hu.valid.trans (decide_eq_true hk), hspd.trans (if_pos hk)⟩
  · intro hk
    rw [Nat.min_eq_right hk.le] at hticks
    refine ⟨Nat.eq_sub_of_add_eq hticks, hu.valid.trans (decide_eq_false (by omega)), hspd.trans ?_⟩
    exact (if_neg (Nat.not_le.2 hk)).trans speedSample_stopped

end Sys2Proof.Machine
end

section
/-! PROOF. The Kalman Filter: the rule of R141 in the primitives of `B32`, `KFUPD` and `GETSPD` as equations (one for the wheel that a wheel
id selects and one for a wheel id out of range, R87), and the two statements about them. -/

namespace Sys2Proof.Machine

theorem response_one (v : U32) : Response.one v = { s := 0#32, r0 := v, r1 := 0#32, r2 := 0#32, r3 := 0#32, r4 := 0#32 } := rfl

/-- R141 under `B32`: the variance and the estimate both use the new gain; each uses its own old value. -/
theorem kalmanUpdate_b32 (k : Kalman F32) (z : F32) :
    kalmanUpdate b32 k z =
      { gain := fdiv32 k.p (fadd32 k.p k.r)
        p := fadd32 (fmul32 (fsub32 one32 (fdiv32 k.p (fadd32 k.p k.r))) k.p) k.q
        r := k.r
        q := k.q
        lastEstimate := fadd32 k.lastEstimate (fmul32 (fdiv32 k.p (fadd32 k.p k.r)) (fsub32 z k.lastEstimate)) } := by
  simp only [kalmanUpdate, kalmanGain, b32_fadd, b32_fsub, b32_fmul, b32_fdiv, b32_one]

section equations

variable (w : Wheel) (s : State)

theorem exec_kfupd_wheel (z : U32) :
    exec (.kfupd (widOf w) z) s =
      .next ((s.filterStep w z).reply (Response.one (kalmanUpdate b32 (s.kf.get w) z).lastEstimate)) := by
  simp only [exec, execKfupd, wheelOf_widOf, dec32_eq, enc32_eq]

theorem exec_getspd_wheel : exec (.getspd (widOf w)) s = .next (s.reply (Response.one (s.kf.get w).lastEstimate)) := by
  simp only [exec, execGetspd, wheelOf_widOf, enc32_eq]

end equations

section outOfRange

variable {wid : U8} (h : wheelOf wid = none) (s : State)
include h

theorem exec_kfupd_out_of_range (z : U32) : exec (.kfupd wid z) s = .next (s.reply (Response.bare .ok)) := by
  simp only [exec, execKfupd, h]

theorem exec_getspd_out_of_range : exec (.getspd wid) s = .next (s.reply (Response.bare .ok)) := by
  simp only [exec, execGetspd, h]

end outOfRange

/-- Settles O17: the filter state written is the one of R141 in primitives, and the response is its estimate. -/
theorem kfupdResult : Obligations.KfupdResult := by
  unfold Obligations.KfupdResult
  refine ⟨fun wid z b c => ?decodes, fun w z s => ?updates, fun wid z s h0 h1 => ?outOfRange⟩
  case decodes =>
    refine (decode_opWordW (m := .KFUPD) rfl wid z b c).trans ?_
    rw [assemble, widField_opWordW]
  case updates => rw [exec_kfupd_wheel, State.filterStep, kalmanUpdate_b32, response_one, State.reply]
  case outOfRange => rw [exec_kfupd_out_of_range (wheelOf_out_of_range h0 h1), response_bare_ok, State.reply]

/-- Settles O18: the response of `GETSPD` is the estimate held, in every state. -/
theorem getspdResult : Obligations.GetspdResult := by
  unfold Obligations.GetspdResult
  refine ⟨fun wid a b c => ?decodes, fun w s => ?reads, fun wid s h0 h1 => ?outOfRange⟩
  case decodes =>
    refine (decode_opWordW (m := .GETSPD) rfl wid a b c).trans ?_
    rw [assemble, widField_opWordW]
  case reads => rw [exec_getspd_wheel, response_one, State.reply]
  case outOfRange => rw [exec_getspd_out_of_range (wheelOf_out_of_range h0 h1), response_bare_ok, State.reply]

end Sys2Proof.Machine
end

section
/-! PROOF. The PID Controller: the rule of R152 in the primitives of `B32`, `SETSP` and `PIDCMP` as equations (one for the wheel that a
wheel id selects and one for a wheel id out of range, R87), and the two statements about them. -/

namespace Sys2Proof.Machine

section rule

variable (top : F32) (c : Pid F32) (m : F32)

/-- R152 under `B32`: the clamp tests the upper bound first, and a sum that is not comparable passes (R12). -/
theorem pidIntegral_b32 :
    pidIntegral b32 top c m =
      if fgt32 (fadd32 c.integral (fsub32 c.setpoint m)) top = true then top
      else if flt32 (fadd32 c.integral (fsub32 c.setpoint m)) (fneg32 top) = true then fneg32 top
      else fadd32 c.integral (fsub32 c.setpoint m) := by
  simp only [pidIntegral, pidError, clampF, b32_fadd, b32_fsub, b32_fneg, b32_fgt, b32_flt]

/-- R152 under `B32`: the integral term takes the clamped sum, the derivative term the old last error. -/
theorem pidOutput_b32 :
    pidOutput b32 top c m =
      fadd32 (fadd32 (fmul32 c.kP (fsub32 c.setpoint m)) (fmul32 c.kI (pidIntegral b32 top c m)))
        (fmul32 c.kD (fsub32 (fsub32 c.setpoint m) c.lastError)) := by
  simp only [pidOutput, pidError, b32_fadd, b32_fsub, b32_fmul]

theorem pidAfter_b32 :
    pidAfter b32 top c m =
      { kP := c.kP, kI := c.kI, kD := c.kD, setpoint := c.setpoint, integral := pidIntegral b32 top c m,
        lastError := fsub32 c.setpoint m } := by
  simp only [pidAfter, pidError, b32_fsub]

end rule

section equations

variable (w : Wheel) (s : State)

theorem exec_setsp_wheel (x : U32) : exec (.setsp (widOf w) x) s = .next ((s.setSetpoint w x).reply (Response.bare .ok)) := by
  simp only [exec, execSetsp, wheelOf_widOf, dec32_eq]

theorem exec_pidcmp_wheel (m : U32) :
    exec (.pidcmp (widOf w) m) s =
      .next ((s.controlStep w m).reply (Response.one (pidOutput b32 s.cfg.maxSumError (s.pid.get w) m))) := by
  simp only [exec, execPidcmp, wheelOf_widOf, dec32_eq, enc32_eq]

end equations

section outOfRange

variable {wid : U8} (h : wheelOf wid = none) (s : State)
include h

theorem exec_setsp_out_of_range (x : U32) : exec (.setsp wid x) s = .next (s.reply (Response.bare .ok)) := by
  simp only [exec, execSetsp, h]

theorem exec_pidcmp_out_of_range (m : U32) : exec (.pidcmp wid m) s = .next (s.reply (Response.bare .ok)) := by
  simp only [exec, execPidcmp, h]

end outOfRange

/-- Settles O19: the controller state written is the old one with the setpoint replaced, and the response carries no word. -/
theorem setspResult : Obligations.SetspResult := by
  unfold Obligations.SetspResult
  refine ⟨fun wid x b c => ?decodes, fun w x s => ?writes, fun wid x s h0 h1 => ?outOfRange⟩
  case decodes =>
    refine (decode_opWordW (m := .SETSP) rfl wid x b c).trans ?_
    rw [assemble, widField_opWordW]
  case writes => rw [exec_setsp_wheel, State.setSetpoint, response_bare_ok, State.reply]
  case outOfRange => rw [exec_setsp_out_of_range (wheelOf_out_of_range h0 h1), response_bare_ok, State.reply]

/-- Settles O20: the controller state written and the response are those of R152 in primitives, over the same clamped sum. -/
theorem pidcmpResult : Obligations.PidcmpResult := by
  unfold Obligations.PidcmpResult
  refine ⟨fun wid m b c => ?decodes, fun w m s => ?computes, fun wid m s h0 h1 => ?outOfRange⟩
  case decodes =>
    refine (decode_opWordW (m := .PIDCMP) rfl wid m b c).trans ?_
    rw [assemble, widField_opWordW]
  case computes =>
    rw [exec_pidcmp_wheel, State.controlStep, pidAfter_b32, pidOutput_b32, pidIntegral_b32, response_one, State.reply]
  case outOfRange => rw [exec_pidcmp_out_of_range (wheelOf_out_of_range h0 h1), response_bare_ok, State.reply]

end Sys2Proof.Machine
end

section
/-! PROOF. Kinematics: the decoder on a word of format N, the two maps of R165 and R166 in the primitives of `B32`, `KININV`, `KINFWD` and
`SETVEL` as equations over these maps, and the three statements about them. -/

namespace Sys2Proof.Machine

/-- R83, R89: a word of format N is decoded to its row's operation, whatever the operand words. -/
theorem decode_opWordN {m : Mnemonic} (hm : m.format = .N) (a b c : U32) :
    decode m.port { op := opWordN m.opcode, a := a, b := b, c := c } =
      .ok (assemble m { op := opWordN m.opcode, a := a, b := b, c := c }) :=
  decode_of_match (Laws.opWordN_row m hm)

theorem response_two (v0 v1 : U32) :
    Response.two v0 v1 = { s := 0#32, r0 := v0, r1 := v1, r2 := 0#32, r3 := 0#32, r4 := 0#32 } := rfl

/-- R165 under `B32`: half the track width times the turn rate is taken from the left wheel and given to the right. -/
theorem kinInverse_b32 (g : Geometry F32) (v om : F32) :
    kinInverse b32 g v om =
      (fdiv32 (fsub32 v (fmul32 (fdiv32 g.w two32) om)) g.r, fdiv32 (fadd32 v (fmul32 (fdiv32 g.w two32) om)) g.r) := by
  simp only [kinInverse, b32_fadd, b32_fsub, b32_fmul, b32_fdiv, b32_two]

/-- R166 under `B32`: the mean and the difference of the wheels' linear speeds. -/
theorem kinForward_b32 (g : Geometry F32) (l r : F32) :
    kinForward b32 g l r =
      (fdiv32 (fadd32 (fmul32 l g.r) (fmul32 r g.r)) two32, fdiv32 (fsub32 (fmul32 r g.r) (fmul32 l g.r)) g.w) := by
  simp only [kinForward, b32_fadd, b32_fsub, b32_fmul, b32_fdiv, b32_two]

section equations

variable (s : State)

theorem exec_kininv (v om : U32) :
    exec (.kininv v om) s =
      .next (s.reply (Response.two (kinInverse b32 s.geo v om).1 (kinInverse b32 s.geo v om).2)) := by
  simp only [exec, execKininv, dec32_eq, enc32_eq]

theorem exec_kinfwd (l r : U32) :
    exec (.kinfwd l r) s =
      .next (s.reply (Response.two (kinForward b32 s.geo l r).1 (kinForward b32 s.geo l r).2)) := by
  simp only [exec, execKinfwd, dec32_eq, enc32_eq]

theorem exec_setvel (v om : U32) :
    exec (.setvel v om) s =
      .next (((s.setSetpoint .left (kinInverse b32 s.geo v om).1).setSetpoint .right (kinInverse b32 s.geo v om).2).reply
        (Response.bare .ok)) := by
  simp only [exec, execSetvel, dec32_eq]

/-- R71, R151: writing the two setpoints one after the other replaces both and keeps the rest of either controller. -/
theorem setSetpoint_left_right (x y : F32) :
    (s.setSetpoint .left x).setSetpoint .right y =
      { s with pid := { left := { s.pid.left with setpoint := x }, right := { s.pid.right with setpoint := y } } } := by
  simp only [State.setSetpoint, bank_set_left, bank_set_right, bank_get_left, bank_get_right]

end equations

/-- Settles O21: the response of `KININV` is the pair of R165 in primitives, left wheel first. -/
theorem kininvResult : Obligations.KininvResult := by
  unfold Obligations.KininvResult
  refine ⟨fun v om c => ?decodes, fun v om s => ?computes⟩
  case decodes => exact decode_opWordN (m := .KININV) rfl v om c
  case computes => rw [exec_kininv, kinInverse_b32, response_two, State.reply]

/-- Settles O22: the response of `KINFWD` is the pair of R166 in primitives, body velocity first. -/
theorem kinfwdResult : Obligations.KinfwdResult := by
  unfold Obligations.KinfwdResult
  refine ⟨fun l r c => ?decodes, fun l r s => ?computes⟩
  case decodes => exact decode_opWordN (m := .KINFWD) rfl l r c
  case computes => rw [exec_kinfwd, kinForward_b32, response_two, State.reply]

/-- Settles O23: the two writes of `SETVEL` are one record update of both controllers, and the response carries no word. -/
theorem setvelResult : Obligations.SetvelResult := by
  unfold Obligations.SetvelResult
  refine ⟨fun v om c => ?decodes, fun v om s => ?writes⟩
  case decodes => exact decode_opWordN (m := .SETVEL) rfl v om c
  case writes => rw [exec_setvel, setSetpoint_left_right, kinInverse_b32, response_bare_ok, State.reply]

end Sys2Proof.Machine
end

section
/-! PROOF. The odometry integrator in the primitives of `B32`: the quantities of R181, `ODOUPD`, `OTICK`, `GETODO` and `RSTODO` as
equations, and the statements about one of these operations at a time. -/

namespace Sys2Proof.Machine

theorem response_bare_notAvailable :
    Response.bare .notAvailable = { s := 1#32, r0 := 0#32, r1 := 0#32, r2 := 0#32, r3 := 0#32, r4 := 0#32 } := rfl

theorem poseResponse_eq (p : Pose F32) :
    poseResponse p = { s := 0#32, r0 := p.x, r1 := p.y, r2 := p.theta, r3 := p.velocity, r4 := p.omega } := rfl

section rule

variable (g : Geometry F32) (o : Odometry F32) (p0 p1 : F32)

theorem linearDistances_b32 : linearDistances b32 g p0 p1 = { left := fmul32 p0 g.r, right := fmul32 p1 g.r } := by
  simp only [linearDistances, b32_fmul]

/-- R181 under `B32`: half the sum of the two deltas, each zero while no baseline is held (R187). -/
theorem travel_b32 :
    travel b32 o (linearDistances b32 g p0 p1) =
      fdiv32 (fadd32 (if o.baselined = true then fsub32 (fmul32 p0 g.r) o.lastLin.left else zero32)
        (if o.baselined = true then fsub32 (fmul32 p1 g.r) o.lastLin.right else zero32)) two32 := by
  simp only [travel, wheelDelta, b32_fdiv, b32_fadd, b32_fsub, b32_fmul, b32_two, b32_zero]

/-- R181 under `B32`: the right delta minus the left one, over the track width. -/
theorem headingChange_b32 :
    headingChange b32 g o (linearDistances b32 g p0 p1) =
      fdiv32 (fsub32 (if o.baselined = true then fsub32 (fmul32 p1 g.r) o.lastLin.right else zero32)
        (if o.baselined = true then fsub32 (fmul32 p0 g.r) o.lastLin.left else zero32)) g.w := by
  simp only [headingChange, wheelDelta, b32_fdiv, b32_fsub, b32_fmul, b32_zero]

/-- R181 under `B32`: the travel is applied along the heading of the branch taken. -/
theorem poseAfter_b32 (eps : F32) (p : Pose F32) (dS dTh dt th1 : F32) :
    poseAfter b32 eps p dS dTh dt th1 =
      { x := fadd32 p.x (fmul32 dS (fcos32 (travelHeading b32 eps p.theta dTh)))
        y := fadd32 p.y (fmul32 dS (fsin32 (travelHeading b32 eps p.theta dTh)))
        theta := th1, velocity := fdiv32 dS dt, omega := fdiv32 dTh dt } := by
  simp only [poseAfter, b32_fadd, b32_fmul, b32_fdiv, b32_fcos, b32_fsin]

theorem headingAfter_b32 (n : Nat) (eps th0 dTh : F32) :
    headingAfter b32 n eps th0 dTh =
      if flt32 (fabs32 dTh) eps = true then some th0 else normalize b32 n (fadd32 th0 dTh) := by
  simp only [headingAfter, goesStraight, b32_flt, b32_fabs, b32_fadd]

/-- R184 under `B32`: the quotient and the product are formed in binary64 and narrowed once. -/
theorem wheelAngle_b32 (epr : F32) (position : U64) :
    wheelAngle b32 epr position = d2f32 (dmul64 (ddiv64 (i2d64 position) (f2d64 epr)) twoPi64) := by
  simp only [wheelAngle, revolutions, b32_d2f, b32_dmul, b32_ddiv, b32_i2d, b32_f2d, b32_twoPiD]

end rule

section equations

variable {s t : State} {p0 p1 dt : F32}

theorem exec_odoupd_some (h : s.odoUpdate p0 p1 dt = some t) :
    exec (.odoupd p0 p1 dt) s = .next (t.reply (Response.bare .ok)) := by
  simp only [exec, execOdoupd, dec32_eq, h]

theorem exec_odoupd_none (h : s.odoUpdate p0 p1 dt = none) : exec (.odoupd p0 p1 dt) s = .next s.hang := by
  simp only [exec, execOdoupd, dec32_eq, h]

theorem exec_otick_some
    (h : s.odoUpdate (wheelAngle b32 s.cfg.epr s.enc.left.position) (wheelAngle b32 s.cfg.epr s.enc.right.position) s.cfg.odoDt =
      some t) :
    exec .otick s = .next t.silent := by
  simp only [exec, execOtick, h]

theorem exec_otick_none
    (h : s.odoUpdate (wheelAngle b32 s.cfg.epr s.enc.left.position) (wheelAngle b32 s.cfg.epr s.enc.right.position) s.cfg.odoDt =
      none) :
    exec .otick s = .next s.hang := by
  simp only [exec, execOtick, h]

theorem exec_getodo_available (h : s.odo.available = true) : exec .getodo s = .next (s.reply (poseResponse s.pose)) := by
  simp only [exec, execGetodo, h, if_true]

theorem exec_getodo_not_available (h : s.odo.available = false) :
    exec .getodo s = .next (s.reply (Response.bare .notAvailable)) := by
  simp only [exec, execGetodo, h, Bool.false_eq_true, if_false]

theorem exec_rstodo (s : State) :
    exec .rstodo s =
      .next ({ s with
        pose := Pose.origin b32
        odo := { lastLin := Bank.both b32.zero, baselined := false, available := s.odo.available } }.reply (Response.bare .ok)) := rfl

end equations

/-- R184: on the elements `OTICK` does what `ODOUPD` does with the two wheel angles and the configured period, and both complete or
neither does; they differ in the response alone. -/
theorem exec_otick_as_odoupd (s : State) :
    ∃ u : State,
      exec (.odoupd (wheelAngle b32 s.cfg.epr s.enc.left.position) (wheelAngle b32 s.cfg.epr s.enc.right.position) s.cfg.odoDt) s =
        .next u ∧
      exec .otick s = .next { u with response := none, emitted := [] } := by
  cases h : s.odoUpdate (wheelAngle b32 s.cfg.epr s.enc.left.position) (wheelAngle b32 s.cfg.epr s.enc.right.position)
      s.cfg.odoDt with
  | none => exact ⟨s.hang, exec_odoupd_none h, exec_otick_none h⟩
  | some t => exact ⟨t.reply (Response.bare .ok), exec_odoupd_some h, (exec_otick_some h).trans rfl⟩

/-- Settles O24: the two clauses are the two values of the availability flag. -/
theorem getodoResult : Obligations.GetodoResult := by
  unfold Obligations.GetodoResult
  refine ⟨fun a b c => ?decodes, fun s => ⟨fun h => ?available, fun h => ?notAvailable⟩⟩
  case decodes => exact decode_opWordN (m := .GETODO) rfl a b c
  case available => rw [exec_getodo_available h, poseResponse_eq, State.reply]
  case notAvailable => rw [exec_getodo_not_available h, response_bare_notAvailable, State.reply]

/-- Settles O25: the origin and the cleared references are zero words. -/
theorem rstodoResult : Obligations.RstodoResult := by
  unfold Obligations.RstodoResult
  refine ⟨fun a b c => ?decodes, fun s => ?resets⟩
  case decodes => exact decode_opWordN (m := .RSTODO) rfl a b c
  case resets => rw [exec_rstodo, Pose.origin, Bank.both, b32_zero_word, response_bare_ok, State.reply]

/-- Settles O26: each branch finds its heading, and the pose written is that of R181 in primitives along the branch's direction. -/
theorem odoupdResult : Obligations.OdoupdResult := by
  unfold Obligations.OdoupdResult
  refine ⟨fun p0 p1 dt => ?decodes, fun p0 p1 dt s => ?updates⟩
  case decodes => exact decode_opWordN (m := .ODOUPD) rfl p0 p1 dt
  case updates =>
    dsimp only
    rw [← headingChange_b32, ← travel_b32, ← linearDistances_b32]
    refine ⟨fun h => ?straight, fun h th1 hth1 => ?arc⟩
    case straight =>
      rw [exec_odoupd_some (odoUpdate_of_heading (headingAfter_straight h)), poseAfter_b32, travelHeading_straight h,
        odometryAfter, response_bare_ok, State.reply]
    case arc =>
      rw [exec_odoupd_some (odoUpdate_of_heading ((headingAfter_arc h).trans hth1)), poseAfter_b32, travelHeading_arc h,
        odometryAfter, response_bare_ok, State.reply]

/-- Settles O27: the effect on the elements is that of `ODOUPD`, and the heading found is the one `odoUpdate_of_heading` asks for. -/
theorem otickResult : Obligations.OtickResult := by
  unfold Obligations.OtickResult
  refine ⟨fun a b c => ?decodes, fun s => ?ticks⟩
  case decodes => exact decode_opWordN (m := .OTICK) rfl a b c
  case ticks =>
    simp only [← wheelAngle_b32]
    refine ⟨exec_otick_as_odoupd s, fun th1 hheading => ?_⟩
    rw [← headingChange_b32, ← headingAfter_b32] at hheading
    rw [← headingChange_b32, ← travel_b32, ← linearDistances_b32]
    exact ⟨_, exec_otick_some (odoUpdate_of_heading hheading), rfl, rfl, rfl, rfl, rfl⟩

end Sys2Proof.Machine
end

section
/-! PROOF. Re-baselining (R187): what a positive word is, the primitives on zero operands, and the update that moves nothing. -/

namespace Sys2Proof.Machine

/-- The exponent field of a word with a magnitude from infinity on is all ones. -/
theorem and_exponent_of_infBits_le {x : F32} (h : single.infBits ≤ mag32 x) : x &&& 0x7F800000#32 = 0x7F800000#32 := by
  have hexp : x.extractLsb' 23 8 = BitVec.allOnes 8 := by
    apply BitVec.eq_of_toNat_eq
    have hlt := mag32_lt x
    rw [single_infBits] at h
    rw [BitVec.extractLsb'_toNat, Nat.shiftRight_eq_div_pow, BitVec.toNat_allOnes]
    rw [mag32] at h hlt
    omega
  ext i hi
  have hbit := congrArg (fun y => y.getLsbD (i - 23)) hexp
  simp only [BitVec.getLsbD_extractLsb', BitVec.getLsbD_allOnes] at hbit
  rw [BitVec.getElem_and]
  interval_cases i <;> simp_all [← BitVec.getLsbD_eq_getElem]

theorem isFinite32_of_finiteWord {x : F32} (h : finiteWord x = true) : isFinite32 x = true := by
  rw [isFinite32_iff]
  by_contra hinf
  exact of_decide_eq_true h (and_exponent_of_infBits_le (Nat.not_lt.1 hinf))

/-- A positive word is finite, with the sign bit clear and a magnitude that is not zero. -/
theorem positiveWord_cases {x : F32} (h : positiveWord x = true) :
    isFinite32 x = true ∧ sign32 x = false ∧ 0 < mag32 x := by
  simp only [positiveWord, Bool.and_eq_true, decide_eq_true_eq] at h
  obtain ⟨⟨hfin, hpos⟩, hlt⟩ := h
  refine ⟨isFinite32_of_finiteWord hfin, ?_, ?_⟩
  · rw [sign32_eq, decide_eq_false_iff_not]
    omega
  · rw [mag32]
    omega

theorem flt32_zero_of_positive {x : F32} (h : positiveWord x = true) : flt32 zero32 x = true := by
  obtain ⟨hfin, hsign, hmag⟩ := positiveWord_cases h
  refine flt32_iff.2 ⟨by decide, isNaN32_of_finite hfin, ?_⟩
  rw [show key32 zero32 = 0 by decide, key32, hsign]
  exact Int.natCast_pos.2 hmag

theorem roundUnits_zero (f : FloatFormat) (d : Nat) : roundUnits f 0 d = 0 := by
  simp [roundUnits_eq, roundShift, roundSig, shiftFor, divNearestEven]

theorem round32_zero (d : Nat) : round32 false 0 d = zero32 := by rw [round32, roundUnits_zero, pack32]; rfl

/-- Zero over a positive word is zero, with the sign bit clear. -/
theorem fdiv32_zero_of_positive {x : F32} (h : positiveWord x = true) : fdiv32 zero32 x = zero32 := by
  obtain ⟨hfin, hsign, hmag⟩ := positiveWord_cases h
  have hzero : isFinite32 zero32 = true := by decide
  have hsigns : (sign32 zero32 != sign32 x) = false := by rw [hsign]; decide
  unfold fdiv32
  simp only [isNaN32_of_finite hzero, isNaN32_of_finite hfin, isInf32_of_finite hzero, isInf32_of_finite hfin,
    Nat.pos_iff_ne_zero.1 hmag, hsigns, Bool.or_self, Bool.false_eq_true, if_false]
  rw [show mag32 zero32 = 0 by decide, unitsOf_zero, Nat.zero_mul, round32_zero]

theorem fadd32_zero_zero : fadd32 zero32 zero32 = zero32 := by unfold fadd32; decide

theorem fsub32_zero_zero : fsub32 zero32 zero32 = zero32 := by unfold fsub32; decide

theorem fcos32_zero : fcos32 zero32 = one32 := by unfold fcos32; exact if_pos rfl

theorem fsin32_zero : fsin32 zero32 = zero32 := by unfold fsin32; exact if_pos rfl

theorem fmul32_zero_one : fmul32 zero32 one32 = zero32 := by unfold fmul32; decide

theorem fmul32_zero_zero : fmul32 zero32 zero32 = zero32 := by unfold fmul32; decide

/-- Without a baseline both deltas are zero, and so is the travel. -/
theorem travel_not_baselined {o : Odometry F32} (h : o.baselined = false) (g : Geometry F32) (p0 p1 : F32) :
    travel b32 o (linearDistances b32 g p0 p1) = zero32 := by
  rw [travel_b32, h, if_neg Bool.false_ne_true, if_neg Bool.false_ne_true, fadd32_zero_zero, fdiv32_zero_of_positive (by decide)]

/-- Without a baseline the heading does not change, for a positive track width. -/
theorem headingChange_not_baselined {o : Odometry F32} (h : o.baselined = false) {g : Geometry F32} (hw : positiveWord g.w = true)
    (p0 p1 : F32) : headingChange b32 g o (linearDistances b32 g p0 p1) = zero32 := by
  rw [headingChange_b32, h, if_neg Bool.false_ne_true, if_neg Bool.false_ne_true, fsub32_zero_zero, fdiv32_zero_of_positive hw]

/-- With T0 (R10) for the cosine and the sine of a zero heading, no travel leaves every word of the pose zero. -/
theorem poseAfter_origin_of_no_motion {eps dt : F32} (heps : positiveWord eps = true) (hdt : positiveWord dt = true) :
    poseAfter b32 eps (Pose.origin b32) zero32 zero32 dt zero32 = Pose.origin b32 := by
  have hstraight : flt32 (fabs32 zero32) eps = true := flt32_zero_of_positive heps
  rw [poseAfter_b32, travelHeading_straight hstraight, Pose.origin, b32_zero, fcos32_zero, fsin32_zero, fmul32_zero_one,
    fmul32_zero_zero, fadd32_zero_zero, fdiv32_zero_of_positive hdt]

/-- R187: from the origin and without a baseline, an update leaves the pose at the origin and records the references. -/
theorem recordsReferencesOnly_of_origin {s : State} {dt : F32} (hpose : s.pose = Pose.origin b32)
    (hbase : s.odo.baselined = false) (hw : positiveWord s.geo.w = true) (heps : positiveWord s.cfg.odoEps = true)
    (hdt : positiveWord dt = true) (p0 p1 : F32) : RecordsReferencesOnly p0 p1 dt s := by
  have hheading : headingAfter b32 normalizeFuel s.cfg.odoEps s.pose.theta
      (headingChange b32 s.geo s.odo (linearDistances b32 s.geo p0 p1)) = some zero32 := by
    rw [headingChange_not_baselined hbase hw, hpose]
    exact headingAfter_straight (flt32_zero_of_positive heps)
  refine ⟨_, exec_odoupd_some (odoUpdate_of_heading hheading), ?pose, ?odo⟩
  case pose =>
    rw [reply_pose, travel_not_baselined hbase, headingChange_not_baselined hbase hw, hpose,
      poseAfter_origin_of_no_motion heps hdt, Pose.origin, b32_zero_word]
  case odo => rw [reply_odo, linearDistances_b32, odometryAfter]

/-- Settles O52: `RSTODO` and a hardware reset both leave the pose at the origin and no baseline. -/
theorem rebaseline : Obligations.Rebaseline := by
  unfold Obligations.Rebaseline
  intro p0 p1 dt s hw heps hdt
  refine ⟨⟨_, exec_rstodo s, ?afterRstodo⟩, fun read n k hs => ?afterReset⟩
  case afterRstodo =>
    refine recordsReferencesOnly_of_origin ?_ ?_ ?_ ?_ hdt p0 p1
    · rfl
    · rfl
    · exact hw
    · exact heps
  case afterReset =>
    subst hs
    exact recordsReferencesOnly_of_origin (boot_pose read n k) (by rfl) hw heps hdt p0 p1

end Sys2Proof.Machine
end

section
/-! PROOF. When the heading normalisation ends (R183, R252). The two loops over any `Num` as equations; then, under `B32`, one turn: it
moves a heading strictly towards the interval up to 2^27 in magnitude, where words lie at most 8 apart, and leaves it where it is
above, where they lie at least 16 apart. -/

namespace Sys2Proof.Machine

section loops

variable {F D : Type} {N : Num F D} {n : Nat} {t : F}

theorem normalizeDown_done (h : N.fgt t N.piF = false) : normalizeDown N n t = some t := by
  cases n <;> simp [normalizeDown, h]

theorem normalizeDown_turn (h : N.fgt t N.piF = true) (hlt : N.flt (N.fsub t N.twoPiF) t = true) :
    normalizeDown N (n + 1) t = normalizeDown N n (N.fsub t N.twoPiF) := by
  simp [normalizeDown, h, hlt]

theorem normalizeDown_stuck (h : N.fgt t N.piF = true) (hlt : N.flt (N.fsub t N.twoPiF) t = false) :
    normalizeDown N n t = none := by
  cases n <;> simp [normalizeDown, h, hlt]

theorem normalizeUp_done (h : N.fle t (N.fneg N.piF) = false) : normalizeUp N n t = some t := by
  cases n <;> simp [normalizeUp, h]

theorem normalizeUp_turn (h : N.fle t (N.fneg N.piF) = true) (hlt : N.flt t (N.fadd t N.twoPiF) = true) :
    normalizeUp N (n + 1) t = normalizeUp N n (N.fadd t N.twoPiF) := by
  simp [normalizeUp, h, hlt]

theorem normalizeUp_stuck (h : N.fle t (N.fneg N.piF) = true) (hlt : N.flt t (N.fadd t N.twoPiF) = false) :
    normalizeUp N n t = none := by
  cases n <;> simp [normalizeUp, h, hlt]

theorem normalize_of_down {u : F} (h : normalizeDown N n t = some u) : normalize N n t = normalizeUp N n u := by
  unfold normalize
  rw [h]

theorem normalize_of_down_stuck (h : normalizeDown N n t = none) : normalize N n t = none := by
  unfold normalize
  rw [h]

end loops

section spacing

variable (f : FloatFormat)

/-- The spacing of the magnitudes above `m`: a unit, doubled with each exponent after the first. -/
theorem unitsOf_succ (m : Nat) : unitsOf f (m + 1) = unitsOf f m + 2 ^ (m / 2 ^ f.fracBits - 1) := by
  obtain ⟨k, c, rfl, hc, hk⟩ := mag_split f m
  have hp : 0 < 2 ^ f.fracBits := Nat.two_pow_pos _
  have hexp : (k * 2 ^ f.fracBits + c) / 2 ^ f.fracBits - 1 = k := by
    rw [Nat.pow_succ] at hc
    rw [Nat.add_comm, Nat.add_mul_div_right _ _ hp]
    have hlt := Nat.div_lt_of_lt_mul hc
    rcases Nat.eq_zero_or_pos k with rfl | hpos
    · omega
    · have hge := Nat.div_pos (hk hpos) hp
      omega
  rw [hexp, Nat.add_assoc, unitsOf_shift f (m := c + 1) hc (fun h => Nat.le_succ_of_le (hk h)), unitsOf_shift f hc.le hk,
    Nat.succ_mul]

variable {f} {n m : Nat}

/-- A number of units below the middle of two neighbouring magnitudes rounds to the lower one at most. -/
theorem roundUnits_le_of_lt_middle (hf : 0 < f.fracBits) (h : 2 * n < unitsOf f m + unitsOf f (m + 1)) :
    roundUnits f n 1 ≤ m := by
  have hnear := (roundUncut_nearest f n one_pos hf m).1
  rw [roundUnits_eq]
  generalize roundShift f n 1 * 2 ^ f.fracBits + roundSig f n 1 = r at *
  refine (min_le_left _ _).trans (Nat.not_lt.1 fun hlt => ?_)
  have hm := unitsOf_step f m
  have hr := (unitsOf_strictMono f).monotone (Nat.succ_le_of_lt hlt)
  rw [Nat.succ_eq_add_one] at hr
  rw [Nat.mul_one, Nat.mul_one] at hnear
  rcases abs_cases ((unitsOf f r : Int) - n) with h1 | h1 <;> rcases abs_cases ((unitsOf f m : Int) - n) with h2 | h2 <;> omega

/-- A number of units above the middle of two neighbouring magnitudes rounds to the upper one at least. -/
theorem le_roundUnits_of_middle_lt (hf : 0 < f.fracBits) (hm : m + 1 ≤ f.infBits)
    (h : unitsOf f m + unitsOf f (m + 1) < 2 * n) : m + 1 ≤ roundUnits f n 1 := by
  have hnear := (roundUncut_nearest f n one_pos hf (m + 1)).1
  rw [roundUnits_eq]
  generalize roundShift f n 1 * 2 ^ f.fracBits + roundSig f n 1 = r at *
  refine le_min (Nat.not_lt.1 fun hlt => ?_) hm
  have hstep := unitsOf_step f m
  have hr := (unitsOf_strictMono f).monotone (Nat.le_of_lt_succ hlt)
  rw [Nat.mul_one, Nat.mul_one] at hnear
  rcases abs_cases ((unitsOf f r : Int) - n) with h1 | h1 <;>
    rcases abs_cases ((unitsOf f (m + 1) : Int) - n) with h2 | h2 <;> omega

end spacing

/-! One turn under `B32`. The word of 2^27 is `0x4D000000`, which is 154 times 2^23; 2^23 magnitudes share an exponent. -/

section turn

theorem units32_pi : units32 pi32 = 13176795 * 2 ^ 127 := by decide
theorem units32_twoPi : units32 twoPi32 = 13176795 * 2 ^ 128 := by decide
theorem key32_pi : key32 pi32 = 0x40490FDB := by decide
theorem isFinite32_twoPi : isFinite32 twoPi32 = true := by decide

theorem natAbs_key32 (x : F32) : (key32 x).natAbs = mag32 x := by
  cases h : sign32 x <;> simp [key32, h]

/-- A word of a value above zero: its key is a magnitude with one below it, and it counts that magnitude's units. -/
theorem key32_pos_cases {x : F32} (h : 0 < key32 x) :
    ∃ m : Nat, key32 x = (m + 1 : Nat) ∧ units32 x = unitsOf single (m + 1) := by
  have hsign : sign32 x = false := by
    by_contra hs
    rw [key32, if_pos (by simpa using hs)] at h
    omega
  have hmag : key32 x = mag32 x := by simp [key32, hsign]
  obtain ⟨m, hm⟩ : ∃ m, mag32 x = m + 1 := Nat.exists_eq_succ_of_ne_zero (by omega)
  exact ⟨m, by rw [hmag, hm], by simp [units32, hsign, hm]⟩

theorem isFinite32_of_key_bounds {x : F32} (hlo : -0x4D000000 ≤ key32 x) (hhi : key32 x ≤ 0x4D000000) : isFinite32 x = true := by
  rw [isFinite32_iff, single_infBits, ← natAbs_key32]
  omega

/-- An infinity plus or minus a finite word is that infinity. -/
theorem sum32_infinity {nan x y : F32} (hx : isInf32 x = true) (hy : isFinite32 y = true) : sum32 nan x y = x := by
  have hnan : isNaN32 x = false := by
    rw [isNaN32_false_iff, of_decide_eq_true hx]
  simp [sum32, hnan, hx, isNaN32_of_finite hy, isInf32_of_finite hy]

theorem fadd32_infinity {x y : F32} (hx : isInf32 x = true) (hy : isFinite32 y = true) : fadd32 x y = x := by
  unfold fadd32
  exact sum32_infinity hx hy

theorem fsub32_infinity {x y : F32} (hx : isInf32 x = true) (hy : isFinite32 y = true) : fsub32 x y = x := by
  unfold fsub32
  exact sum32_infinity hx ((isFinite32_fneg y).trans hy)

/-- A sum of finite words is the opposite of the difference with the first one's sign changed. -/
theorem key32_fadd {x y : F32} (hx : isFinite32 x = true) (hy : isFinite32 y = true) :
    key32 (fadd32 x y) = -key32 (fsub32 (fneg32 x) y) := by
  rw [(fadd32_finite hx hy).2, (fsub32_finite ((isFinite32_fneg x).trans hx) hy).2, units32_fneg, ← roundSigned_neg, neg_sub,
    sub_neg_eq_add, add_comm]

theorem isInf32_of_not_finite {x : F32} (hnan : isNaN32 x = false) (h : ¬ isFinite32 x = true) : isInf32 x = true := by
  rw [isNaN32_false_iff] at hnan
  rw [isFinite32_iff] at h
  exact decide_eq_true (by omega)

variable {t : F32}

/-- Up to 2^27 neighbouring words lie at most 8 apart, less than two turns: a turn down reaches a smaller word. -/
theorem key32_fsub_twoPi_lt (hpos : 0 < key32 t) (hle : key32 t ≤ 0x4D000000) : key32 (fsub32 t twoPi32) < key32 t := by
  obtain ⟨m, hkey, hunits⟩ := key32_pos_cases hpos
  have hspacing : 2 ^ (m / 2 ^ 23 - 1) ≤ 2 ^ 152 := Nat.pow_le_pow_right (by norm_num) (by omega)
  have hsucc : unitsOf single (m + 1) = unitsOf single m + 2 ^ (m / 2 ^ 23 - 1) := unitsOf_succ single m
  rw [(fsub32_finite (isFinite32_of_key_bounds (by omega) hle) isFinite32_twoPi).2, roundSigned, hunits, units32_twoPi]
  split
  · omega
  · have hround := roundUnits_le_of_lt_middle (f := single) (m := m)
      (n := ((unitsOf single (m + 1) : Int) - 13176795 * 2 ^ 128).natAbs) (by decide) (by omega)
    omega

/-- Above 2^27 neighbouring words lie at least 16 apart, more than two turns: a turn down does not move the word. -/
theorem le_key32_fsub_twoPi (hnan : isNaN32 t = false) (hgt : 0x4D000000 < key32 t) : key32 t ≤ key32 (fsub32 t twoPi32) := by
  by_cases hfin : isFinite32 t = true
  · obtain ⟨m, hkey, hunits⟩ := key32_pos_cases (by omega : 0 < key32 t)
    have hinf : m + 1 ≤ single.infBits := by
      have hlt := isFinite32_iff.1 hfin
      rw [← natAbs_key32, hkey] at hlt
      exact hlt.le
    have hspacing : 2 ^ 153 ≤ 2 ^ (m / 2 ^ 23 - 1) := Nat.pow_le_pow_right (by norm_num) (by omega)
    have hsucc : unitsOf single (m + 1) = unitsOf single m + 2 ^ (m / 2 ^ 23 - 1) := unitsOf_succ single m
    rw [(fsub32_finite hfin isFinite32_twoPi).2, roundSigned, hunits, units32_twoPi, if_neg (by omega)]
    have hround := le_roundUnits_of_middle_lt (f := single) (m := m)
      (n := ((unitsOf single (m + 1) : Int) - 13176795 * 2 ^ 128).natAbs) (by decide) hinf (by omega)
    omega
  · rw [fsub32_infinity (isInf32_of_not_finite hnan hfin) isFinite32_twoPi]

/-- A turn up is a turn down with the signs changed, so from `-2^27` on it reaches a greater word. -/
theorem lt_key32_fadd_twoPi (hneg : key32 t < 0) (hge : -0x4D000000 ≤ key32 t) : key32 t < key32 (fadd32 t twoPi32) := by
  have h := key32_fsub_twoPi_lt (t := fneg32 t) (by rw [key32_fneg]; omega) (by rw [key32_fneg]; omega)
  rw [key32_fneg] at h
  rw [key32_fadd (isFinite32_of_key_bounds hge (by omega)) isFinite32_twoPi]
  omega

/-- Below `-2^27` a turn up does not move the word. -/
theorem key32_fadd_twoPi_le (hnan : isNaN32 t = false) (hlt : key32 t < -0x4D000000) : key32 (fadd32 t twoPi32) ≤ key32 t := by
  by_cases hfin : isFinite32 t = true
  · have h := le_key32_fsub_twoPi (t := fneg32 t) (by rwa [isNaN32_fneg]) (by rw [key32_fneg]; omega)
    rw [key32_fneg] at h
    rw [key32_fadd hfin isFinite32_twoPi]
    omega
  · rw [fadd32_infinity (isInf32_of_not_finite hnan hfin) isFinite32_twoPi]

/-- A turn down from above `PI_F` does not pass `-PI_F`. -/
theorem neg_pi_le_fsub_twoPi (hfin : isFinite32 t = true) (h : key32 pi32 < key32 t) :
    -key32 pi32 ≤ key32 (fsub32 t twoPi32) := by
  have hunits := units32_lt_iff.2 h
  rw [← key32_fneg]
  refine le_fsub32 hfin isFinite32_twoPi (by decide) ?_
  rw [units32_fneg, units32_twoPi]
  rw [units32_pi] at hunits ⊢
  omega

/-- A turn up from `-PI_F` or below does not pass `PI_F`. -/
theorem fadd_twoPi_le_pi (hfin : isFinite32 t = true) (h : key32 t ≤ -key32 pi32) : key32 (fadd32 t twoPi32) ≤ key32 pi32 := by
  have hunits : units32 t ≤ units32 (fneg32 pi32) := units32_le_iff.2 (by rwa [key32_fneg])
  refine fadd32_le hfin isFinite32_twoPi (by decide) ?_
  rw [units32_twoPi, units32_pi]
  rw [units32_fneg, units32_pi] at hunits
  omega

end turn

section ends

theorem flt32_eq_false {x y : F32} (h : key32 y ≤ key32 x) : flt32 x y = false :=
  Bool.eq_false_iff.2 fun hlt => absurd (flt32_iff.1 hlt).2.2 (not_lt.2 h)

theorem fgt32_eq_false {x y : F32} (h : key32 x ≤ key32 y) : fgt32 x y = false :=
  Bool.eq_false_iff.2 fun hgt => absurd (fgt32_iff.1 hgt).2.2 (not_lt.2 h)

theorem fle32_eq_false {x y : F32} (h : key32 y < key32 x) : fle32 x y = false :=
  Bool.eq_false_iff.2 fun hle => absurd (fle32_iff.1 hle).2.2 (not_le.2 h)

variable {n : Nat} {t : F32}

/-- The first loop, on a heading of at most 2^27: every turn goes to a smaller word, so as many turns as there are words above
`PI_F` are enough. -/
theorem normalizeDown_ends (hnan : isNaN32 t = false) (hle : key32 t ≤ 0x4D000000) (hfuel : key32 t ≤ key32 pi32 + n) :
    ∃ u, normalizeDown b32 n t = some u ∧ isNaN32 u = false ∧ key32 u ≤ key32 pi32 ∧ (u = t ∨ -key32 pi32 ≤ key32 u) := by
  induction n generalizing t with
  | zero =>
    have hdone : key32 t ≤ key32 pi32 := by omega
    exact ⟨t, normalizeDown_done (fgt32_eq_false hdone), hnan, hdone, .inl rfl⟩
  | succ n ih =>
    rcases le_or_gt (key32 t) (key32 pi32) with hdone | hgt
    · exact ⟨t, normalizeDown_done (fgt32_eq_false hdone), hnan, hdone, .inl rfl⟩
    · have hpi := key32_pi
      have hfin := isFinite32_of_key_bounds (by omega) hle
      have hnan' := (fsub32_finite hfin isFinite32_twoPi).1
      have hlt := key32_fsub_twoPi_lt (by omega) hle
      obtain ⟨u, hu, hunan, hupi, hlow⟩ := ih hnan' (by omega) (by push_cast at hfuel; omega)
      have hturn := normalizeDown_turn (N := b32) (n := n) (fgt32_iff.2 ⟨hnan, by decide, hgt⟩) (flt32_iff.2 ⟨hnan', hnan, hlt⟩)
      refine ⟨u, hturn.trans hu, hunan, hupi, .inr (hlow.elim (fun h => ?_) id)⟩
      rw [h]
      exact neg_pi_le_fsub_twoPi hfin hgt

/-- The second loop, on a heading of at most `PI_F` and at least `-2^27`: every turn goes to a greater word. -/
theorem normalizeUp_ends (hnan : isNaN32 t = false) (hge : -0x4D000000 ≤ key32 t) (hle : key32 t ≤ key32 pi32)
    (hfuel : -key32 pi32 < key32 t + n) :
    ∃ r, normalizeUp b32 n t = some r ∧ isNaN32 r = false ∧ -key32 pi32 < key32 r ∧ key32 r ≤ key32 pi32 := by
  induction n generalizing t with
  | zero =>
    have hdone : -key32 pi32 < key32 t := by omega
    exact ⟨t, normalizeUp_done (fle32_eq_false (by rwa [b32_fneg, b32_piF, key32_fneg])), hnan, hdone, hle⟩
  | succ n ih =>
    rcases lt_or_ge (-key32 pi32) (key32 t) with hdone | hlow
    · exact ⟨t, normalizeUp_done (fle32_eq_false (by rwa [b32_fneg, b32_piF, key32_fneg])), hnan, hdone, hle⟩
    · have hpi := key32_pi
      have hfin := isFinite32_of_key_bounds hge (by omega)
      have hnan' := (fadd32_finite hfin isFinite32_twoPi).1
      have hlt := lt_key32_fadd_twoPi (by omega) hge
      obtain ⟨r, hr, hends⟩ := ih hnan' (by omega) (fadd_twoPi_le_pi hfin hlow) (by push_cast at hfuel; omega)
      have hturn := normalizeUp_turn (N := b32) (n := n) (fle32_iff.2 ⟨hnan, by decide, by rwa [b32_fneg, b32_piF, key32_fneg]⟩)
        (flt32_iff.2 ⟨hnan, hnan', hlt⟩)
      exact ⟨r, hturn.trans hr, hends⟩

/-- R183: with as many iterations as `normalizeFuel` allows, a heading up to 2^27 in magnitude is normalised. -/
theorem normalize_ends (hnan : isNaN32 t = false) (hmag : mag32 t ≤ 0x4D000000) :
    ∃ r, normalize b32 normalizeFuel t = some r ∧ isNaN32 r = false ∧ -key32 pi32 < key32 r ∧ key32 r ≤ key32 pi32 := by
  have hkey := natAbs_key32 t
  have hpi := key32_pi
  have hfuel : (normalizeFuel : Int) = 2147483648 := rfl
  obtain ⟨u, hu, hunan, hupi, hlow⟩ := normalizeDown_ends (n := normalizeFuel) hnan (by omega) (by omega)
  have hfloor : -0x4D000000 ≤ key32 u := by rcases hlow with rfl | hlow <;> omega
  rw [normalize_of_down hu]
  exact normalizeUp_ends hunan hfloor hupi (by omega)

theorem normalize_nan (hnan : isNaN32 t = true) : normalize b32 n t = some t := by
  have hdown : fgt32 t pi32 = false := by simp [fgt32, hnan]
  have hup : fle32 t (fneg32 pi32) = false := by simp [fle32, hnan]
  rw [normalize_of_down (normalizeDown_done hdown)]
  exact normalizeUp_done hup

/-- R252: above 2^27 in magnitude the loop on the heading's side makes no progress. -/
theorem normalize_stuck (hnan : isNaN32 t = false) (hmag : 0x4D000000 < mag32 t) : normalize b32 n t = none := by
  have hkey := natAbs_key32 t
  have hpi := key32_pi
  rcases lt_or_ge 0 (key32 t) with hpos | hneg
  · have hgt : fgt32 t pi32 = true := fgt32_iff.2 ⟨hnan, by decide, by omega⟩
    have hstays := flt32_eq_false (le_key32_fsub_twoPi hnan (by omega))
    exact normalize_of_down_stuck (normalizeDown_stuck hgt hstays)
  · have hdown : fgt32 t pi32 = false := fgt32_eq_false (by omega)
    have hlow : fle32 t (fneg32 pi32) = true := fle32_iff.2 ⟨hnan, by decide, by rw [key32_fneg]; omega⟩
    have hstays := flt32_eq_false (key32_fadd_twoPi_le hnan (by omega))
    rw [normalize_of_down (normalizeDown_done hdown)]
    exact normalizeUp_stuck hlow hstays

end ends

/-- Settles O54: the three cases of the magnitude of the heading, split at the word of 2^27. -/
theorem normalizeEnds : Obligations.NormalizeEnds := by
  unfold Obligations.NormalizeEnds
  have hlimit : key32 0x4D000000#32 = 0x4D000000 := by decide
  refine fun t => ⟨fun hle => ?ends, normalize_nan, fun hgt => ?stuck⟩
  case ends =>
    obtain ⟨hnan, -, hkey⟩ := fle32_iff.1 hle
    rw [isNaN32_fabs] at hnan
    rw [key32_fabs, hlimit] at hkey
    obtain ⟨r, hr, hrnan, hlow, hhigh⟩ := normalize_ends hnan (by omega)
    refine ⟨r, hr, fgt32_iff.2 ⟨hrnan, by decide, ?_⟩, fle32_iff.2 ⟨hrnan, by decide, hhigh⟩⟩
    rwa [key32_fneg]
  case stuck =>
    obtain ⟨hnan, -, hkey⟩ := fgt32_iff.1 hgt
    rw [isNaN32_fabs] at hnan
    rw [key32_fabs, hlimit] at hkey
    exact normalize_stuck hnan (by omega)

end Sys2Proof.Machine
end

section
/-! PROOF. The control tick: `Saturate` (R154) in the primitives of `B32`, what one wheel's work writes and leaves unchanged (R200), that
it neither reads nor writes what belongs to the other wheel, and `TICK` as an equation over it; then the statement about its result, and
the one that compares it with `KFUPD` and `PIDCMP` in turn (R201). -/

namespace Sys2Proof.Machine

/-- R154 under `B32`: the upper bound is tested first, and an output that is not comparable passes (R12). -/
theorem saturate_b32 (out : F32) :
    saturate b32 out = if fgt32 out one32 = true then one32 else if flt32 out negOne32 = true then negOne32 else out := by
  simp only [saturate, clampF, b32_fgt, b32_flt, b32_one, b32_negOne]

section oneWheel

variable (s : State) (w : Wheel)

@[simp] theorem tickWheel_kf :
    (s.tickWheel w).kf = s.kf.set w (kalmanUpdate b32 (s.kf.get w) (s.spd.get w).angularVelocity) := rfl
@[simp] theorem tickWheel_pid :
    (s.tickWheel w).pid = s.pid.set w (pidAfter b32 s.cfg.maxSumError (s.pid.get w) (tickEstimate s w)) := rfl
@[simp] theorem tickWheel_spd : (s.tickWheel w).spd = s.spd := rfl
@[simp] theorem tickWheel_cfg : (s.tickWheel w).cfg = s.cfg := rfl

/-- R200: one wheel's work as one record update, of four elements. -/
theorem tickWheel_eq :
    s.tickWheel w =
      { s with
        kf := s.kf.set w (kalmanUpdate b32 (s.kf.get w) (s.spd.get w).angularVelocity)
        pid := s.pid.set w (pidAfter b32 s.cfg.maxSumError (s.pid.get w) (tickEstimate s w))
        duty := s.duty.set w (tickDuty s w)
        emitted := s.emitted ++ [{ wheel := w, duty := tickDuty s w }] } := rfl

/-- R200: the wheels do not interact, so the estimate of one is the same before and after the other's work. -/
theorem tickEstimate_tickWheel_other : tickEstimate (s.tickWheel w) w.other = tickEstimate s w.other := by
  rw [tickEstimate, tickWheel_kf, tickWheel_spd, bank_get_set_other]

/-- R200: nor does one wheel's work change the duty the other is sent. -/
theorem tickDuty_tickWheel_other : tickDuty (s.tickWheel w) w.other = tickDuty s w.other := by
  rw [tickDuty, tickEstimate_tickWheel_other, tickWheel_pid, tickWheel_cfg, bank_get_set_other]

end oneWheel

section bothWheels

variable (s : State)

theorem exec_tick : exec .tick s = .next ((s.silent.tickWheel .left).tickWheel .right) := by
  simp only [exec, execTick]

/-- R200: the work of the left wheel and then of the right, as one record update in terms of the state before both. -/
theorem tickWheel_left_right :
    (s.tickWheel .left).tickWheel .right =
      { s with
        kf := { left := kalmanUpdate b32 s.kf.left s.spd.left.angularVelocity
                right := kalmanUpdate b32 s.kf.right s.spd.right.angularVelocity }
        pid := { left := pidAfter b32 s.cfg.maxSumError s.pid.left (tickEstimate s .left)
                 right := pidAfter b32 s.cfg.maxSumError s.pid.right (tickEstimate s .right) }
        duty := { left := tickDuty s .left, right := tickDuty s .right }
        emitted := s.emitted ++ [{ wheel := .left, duty := tickDuty s .left }, { wheel := .right, duty := tickDuty s .right }] } := by
  have hestimate : tickEstimate (s.tickWheel .left) .right = tickEstimate s .right := tickEstimate_tickWheel_other s .left
  have hduty : tickDuty (s.tickWheel .left) .right = tickDuty s .right := tickDuty_tickWheel_other s .left
  rw [tickWheel_eq (s.tickWheel .left), hestimate, hduty, tickWheel_eq s]
  simp only [bank_set_left, bank_set_right, bank_get_left, bank_get_right, List.append_assoc, List.singleton_append]

end bothWheels

/-- Settles O28: the work of both wheels is one record update, and each duty is the saturated output in primitives. -/
theorem tickResult : Obligations.TickResult := by
  unfold Obligations.TickResult
  refine ⟨fun a b c => ?decodes, fun s => ?ticks⟩
  case decodes => exact decode_opWordN (m := .TICK) rfl a b c
  case ticks =>
    dsimp only
    rw [exec_tick, tickWheel_left_right, ← saturate_b32, ← saturate_b32, silent_emitted, List.nil_append]
    rfl

/-- `KFUPD` and `PIDCMP` of one wheel in turn: a filter step, then a controller step, each with its response. -/
theorem runOps_kfupd_pidcmp (w : Wheel) (z m : U32) (is : List Instr) (s : State) :
    ∃ u : State, runOps (.kfupd (widOf w) z :: .pidcmp (widOf w) m :: is) s = runOps is u ∧
      u.kf = s.kf.set w (kalmanUpdate b32 (s.kf.get w) z) ∧
      u.pid = s.pid.set w (pidAfter b32 s.cfg.maxSumError (s.pid.get w) m) ∧
      u.cfg = s.cfg ∧ u.duty = s.duty :=
  ⟨_, (runOps_cons (exec_kfupd_wheel w s z)).trans (runOps_cons (exec_pidcmp_wheel w _ m)), rfl, rfl, rfl, rfl⟩

/-- Settles O49: each pair of operations writes the filter and controller state that the tick's work for that wheel writes, and the
operand of `PIDCMP`, read from the state after the tick, is the estimate the tick's controller was given. -/
theorem tickComposition : Obligations.TickComposition := by
  unfold Obligations.TickComposition
  intro s t h
  obtain rfl : (s.silent.tickWheel .left).tickWheel .right = t := by
    rw [exec_tick] at h
    injection h
  rw [tickWheel_left_right]
  obtain ⟨u, hrunLeft, hkfLeft, hpidLeft, hcfgLeft, hdutyLeft⟩ :=
    runOps_kfupd_pidcmp .left s.spd.left.angularVelocity (tickEstimate s .left)
      [.kfupd 1#8 s.spd.right.angularVelocity, .pidcmp 1#8 (tickEstimate s .right)] s
  obtain ⟨v, hrunRight, hkfRight, hpidRight, -, hdutyRight⟩ :=
    runOps_kfupd_pidcmp .right s.spd.right.angularVelocity (tickEstimate s .right) [] u
  refine ⟨v, hrunLeft.trans hrunRight, ?kf, ?pid, hdutyRight.trans hdutyLeft⟩
  case kf =>
    rw [hkfRight, hkfLeft]
    rfl
  case pid =>
    rw [hpidRight, hpidLeft, hcfgLeft]
    rfl

end Sys2Proof.Machine
end

section
/-! PROOF. Rounding by value (R8; spec/49_common_laws.md R206 (b)). What `roundUnits` gives is the magnitude of the nearest value, sign
included, in any format; then the words of the two formats, as a sign and a magnitude each. -/

namespace Sys2Proof.Machine

section sign

/-- A magnitude with a sign. -/
def withSign (neg : Bool) (q : ℚ) : ℚ := if neg then -q else q

variable (neg : Bool) (q : ℚ)

@[simp] theorem withSign_false : withSign false q = q := rfl
@[simp] theorem withSign_true : withSign true q = -q := rfl
@[simp] theorem withSign_zero : withSign neg 0 = 0 := by cases neg <;> simp
@[simp] theorem abs_withSign : |withSign neg q| = |q| := by cases neg <;> simp

theorem withSign_sub (p : ℚ) : withSign neg p - withSign neg q = withSign neg (p - q) := by
  cases neg
  · rfl
  · simp only [withSign_true]
    ring

theorem withSign_div (c : ℚ) : withSign neg q / c = withSign neg (q / c) := by
  cases neg
  · rfl
  · exact neg_div c q

/-- Signs multiply as the primitives combine them. -/
theorem withSign_mul_withSign (a b : Bool) (p : ℚ) : withSign a p * withSign b q = withSign (a != b) (p * q) := by
  cases a <;> cases b <;> simp

theorem withSign_div_withSign (a b : Bool) (p : ℚ) : withSign a p / withSign b q = withSign (a != b) (p / q) := by
  cases a <;> cases b <;> simp [neg_div, div_neg]

/-- A whole number is its magnitude with its sign. -/
theorem withSign_natAbs (s : Int) : withSign (decide (s < 0)) s.natAbs = s := by
  rcases lt_or_ge s 0 with h | h
  · simp [h, abs_of_neg (Int.cast_lt_zero.2 h : (s : ℚ) < 0)]
  · simp [not_lt.2 h, abs_of_nonneg (Int.cast_nonneg h : (0 : ℚ) ≤ s)]

variable {neg q}

/-- The sign of a magnitude that is not negative, when the value is not zero. -/
theorem eq_decide_withSign_neg (hq : 0 ≤ q) (h : withSign neg q ≠ 0) : neg = decide (withSign neg q < 0) := by
  cases neg
  · simp [not_lt.2 hq]
  · have hne : q ≠ 0 := by simpa using h
    simpa using lt_of_le_of_ne hq hne.symm

/-- A value of the other sign is at least as far away as its magnitude is. -/
theorem abs_sub_le_abs_withSign_sub {b : ℚ} (hb : 0 ≤ b) (hq : 0 ≤ q) (neg' : Bool) :
    |b - q| ≤ |withSign neg' b - withSign neg q| := by
  have h := abs_abs_sub_abs_le (withSign neg' b) (withSign neg q)
  rwa [abs_withSign, abs_withSign, abs_of_nonneg hb, abs_of_nonneg hq] at h

/-- Two values of the same magnitude that are as far from `withSign neg q`, one of its sign, and different: then `q` is zero. -/
theorem eq_zero_of_equidistant {a : ℚ} (ha : 0 ≤ a) (hq : 0 ≤ q) {neg' : Bool}
    (h : |withSign neg' a - withSign neg q| = |a - q|) (hne : withSign neg' a ≠ withSign neg a) : q = 0 := by
  have hopposite : neg' = !neg := by
    cases neg <;> cases neg' <;> simp_all
  have hsum : |withSign neg' a - withSign neg q| = a + q := by
    rw [hopposite, ← abs_of_nonneg (add_nonneg ha hq)]
    cases neg
    · rw [← abs_neg]
      congr 1
      simp
      ring
    · simp
  have hpos : a ≠ 0 := by
    rintro rfl
    simp at hne
  have hapos : 0 < a := lt_of_le_of_ne ha hpos.symm
  rw [hsum] at h
  rcases abs_cases (a - q) with ⟨habs, -⟩ | ⟨habs, -⟩ <;> linarith

end sign

section format

variable (f : FloatFormat)

/-- The value of a sign and a magnitude in a format. -/
def FloatFormat.value (neg : Bool) (m : Nat) : ℚ := withSign neg (unitsOf f m) / 2 ^ f.unitPlaces

/-- The overflow threshold: the middle of the largest finite value and the value next above it. -/
def FloatFormat.overflowAt : ℚ := (unitsOf f (f.infBits - 1) + unitsOf f f.infBits : Nat) / 2 / 2 ^ f.unitPlaces

/-- A sign and a magnitude are the exact value `v` rounded once: `RoundsTo32` and `RoundsTo64` in any format. -/
def FloatFormat.RoundsTo (v : ℚ) (neg : Bool) (r : Nat) : Prop :=
  (if |v| < f.overflowAt then
    r < f.infBits ∧ ∀ (neg' : Bool) (m : Nat),
      |f.value neg r - v| ≤ |f.value neg' m - v| ∧
      (|f.value neg' m - v| = |f.value neg r - v| → f.value neg' m ≠ f.value neg r → r % 2 = 0)
  else r = f.infBits) ∧
  (v ≠ 0 → neg = decide (v < 0))

variable {f} {n d : Nat}

theorem cast_abs_units_sub (hd : 0 < d) (u : Nat) : ((|((u * d : Nat) : Int) - n| : Int) : ℚ) = |(u : ℚ) - n / d| * d := by
  have hpos : (0 : ℚ) < d := Nat.cast_pos.2 hd
  rw [← abs_of_pos hpos, ← abs_mul, abs_of_pos hpos, sub_mul, div_mul_cancel₀ _ hpos.ne']
  push_cast
  rfl

/-- `roundUnits_spec` over the rationals: a finite result is a nearest magnitude, and even when another is as near. -/
theorem roundUnits_nearest (hf : 0 < f.fracBits) (he : 0 < f.expBits) (hd : 0 < d) (hlt : roundUnits f n d < f.infBits) (m : Nat) :
    |(unitsOf f (roundUnits f n d) : ℚ) - n / d| ≤ |(unitsOf f m : ℚ) - n / d| ∧
    (|(unitsOf f m : ℚ) - n / d| = |(unitsOf f (roundUnits f n d) : ℚ) - n / d| → m ≠ roundUnits f n d → roundUnits f n d % 2 = 0) := by
  have hpos : (0 : ℚ) < d := Nat.cast_pos.2 hd
  obtain ⟨hle, htie⟩ := (roundUnits_spec f n hd hf he).2 hlt m
  constructor
  · refine le_of_mul_le_mul_right ?_ hpos
    rw [← cast_abs_units_sub hd, ← cast_abs_units_sub hd]
    exact Int.cast_le.2 hle
  · intro heq
    refine htie ((Int.cast_inj (α := ℚ)).1 ?_)
    rw [cast_abs_units_sub hd, cast_abs_units_sub hd, heq]

/-- With signs: no value of either sign is nearer, and the result is even when another value is as near. -/
theorem roundUnits_nearest_withSign (hf : 0 < f.fracBits) (he : 0 < f.expBits) (hd : 0 < d)
    (hlt : roundUnits f n d < f.infBits) (neg neg' : Bool) (m : Nat) :
    |withSign neg (unitsOf f (roundUnits f n d)) - withSign neg (n / d)| ≤ |withSign neg' (unitsOf f m) - withSign neg (n / d)| ∧
    (|withSign neg' (unitsOf f m) - withSign neg (n / d)| = |withSign neg (unitsOf f (roundUnits f n d)) - withSign neg (n / d)| →
      withSign neg' (unitsOf f m) ≠ withSign neg (unitsOf f (roundUnits f n d)) → roundUnits f n d % 2 = 0) := by
  have hq : (0 : ℚ) ≤ n / d := by positivity
  obtain ⟨hle, htie⟩ := roundUnits_nearest hf he hd hlt m
  have hfar : |(unitsOf f m : ℚ) - n / d| ≤ |withSign neg' (unitsOf f m) - withSign neg (n / d)| :=
    abs_sub_le_abs_withSign_sub (Nat.cast_nonneg _) hq neg'
  rw [withSign_sub neg, abs_withSign]
  refine ⟨hle.trans hfar, fun heq hne => ?_⟩
  by_cases hm : m = roundUnits f n d
  · subst hm
    have hzero : (n : ℚ) / d = 0 := eq_zero_of_equidistant (Nat.cast_nonneg _) hq heq hne
    have hn : n = 0 := by simpa [hd.ne'] using hzero
    rw [hn, roundUnits_zero]
  · exact htie (le_antisymm (hfar.trans heq.le) hle) hm

/-- Rounding in any format is correct rounding of the value. -/
theorem roundsTo_roundUnits (hf : 0 < f.fracBits) (he : 0 < f.expBits) (hd : 0 < d) (neg : Bool) :
    f.RoundsTo (withSign neg (n / d) / 2 ^ f.unitPlaces) neg (roundUnits f n d) := by
  have hP : (0 : ℚ) < 2 ^ f.unitPlaces := by positivity
  have hpos : (0 : ℚ) < d := Nat.cast_pos.2 hd
  have hq : (0 : ℚ) ≤ n / d := by positivity
  have hbelow : |withSign neg (n / d) / 2 ^ f.unitPlaces| < f.overflowAt ↔ roundUnits f n d < f.infBits := by
    rw [(roundUnits_spec f n hd hf he).1, abs_div, abs_withSign, abs_of_nonneg hq, abs_of_pos hP, FloatFormat.overflowAt,
      div_lt_div_iff_of_pos_right hP, div_lt_div_iff₀ hpos two_pos, ← Nat.cast_lt (α := ℚ)]
    push_cast
    rw [mul_comm (n : ℚ) 2]
  constructor
  · split
    case isTrue hlt =>
      refine ⟨hbelow.1 hlt, fun neg' m => ?_⟩
      obtain ⟨hle, htie⟩ := roundUnits_nearest_withSign hf he hd (hbelow.1 hlt) neg neg' m
      simp only [FloatFormat.value, ← sub_div, abs_div, abs_of_pos hP]
      refine ⟨div_le_div_of_nonneg_right hle hP.le, fun heq hne => htie ((div_left_inj' hP.ne').1 heq) fun h => hne ?_⟩
      rw [h]
    case isFalse hge => exact le_antisymm (roundUnits_le_inf f n d) (not_lt.1 (mt hbelow.2 hge))
  · rw [withSign_div]
    exact eq_decide_withSign_neg (div_nonneg hq hP.le)

/-- The value zero is rounded to the magnitude zero, of either sign. -/
theorem roundsTo_zero (hf : 0 < f.fracBits) (he : 0 < f.expBits) (neg : Bool) : f.RoundsTo 0 neg 0 := by
  have h := roundsTo_roundUnits (n := 0) hf he one_pos neg
  rwa [roundUnits_zero, Nat.cast_zero, zero_div, withSign_zero, zero_div] at h

/-- The threshold in units gives the threshold as a value. -/
theorem overflowAt_of_threshold {a b p : Nat} (hba : b ≤ a) (hp : f.unitPlaces = p)
    (h : unitsOf f (f.infBits - 1) + unitsOf f f.infBits = 2 * ((2 ^ a - 2 ^ b) * 2 ^ p)) :
    f.overflowAt = 2 ^ a - 2 ^ b := by
  subst hp
  have hP : (2 : ℚ) ^ f.unitPlaces ≠ 0 := by positivity
  have hle : 2 ^ b ≤ 2 ^ a := Nat.pow_le_pow_right two_pos hba
  rw [FloatFormat.overflowAt, h, Nat.cast_mul, Nat.cast_mul, Nat.cast_sub hle]
  push_cast
  rw [mul_div_cancel_left₀ _ two_ne_zero, mul_div_cancel_right₀ _ hP]

/-- The exact product, as the fraction of units that the primitives round. -/
theorem value_mul_value (a b : Bool) (m k : Nat) :
    f.value a m * f.value b k =
      withSign (a != b) ((unitsOf f m * unitsOf f k : Nat) / (2 ^ f.unitPlaces : Nat)) / 2 ^ f.unitPlaces := by
  rw [FloatFormat.value, FloatFormat.value, div_mul_div_comm, withSign_mul_withSign, ← withSign_div]
  push_cast
  rw [div_div]

/-- The exact quotient, likewise. -/
theorem value_div_value (a b : Bool) (m k : Nat) :
    f.value a m / f.value b k =
      withSign (a != b) ((unitsOf f m * 2 ^ f.unitPlaces : Nat) / (unitsOf f k : Nat)) / 2 ^ f.unitPlaces := by
  have hP : (2 : ℚ) ^ f.unitPlaces ≠ 0 := by positivity
  rw [FloatFormat.value, FloatFormat.value, div_div_div_cancel_right₀ hP, withSign_div_withSign, withSign_div]
  push_cast
  rw [div_right_comm, mul_div_cancel_right₀ _ hP]

end format

section words

theorem single_unitPlaces : single.unitPlaces = 149 := rfl
theorem double_unitPlaces : double.unitPlaces = 1074 := rfl
theorem double_infBits : double.infBits = 9218868437227405312 := by norm_num [double, FloatFormat.infBits]

theorem sign64_eq (x : F64) : sign64 x = decide (2 ^ 63 ≤ x.toNat) := by
  rw [sign64, BitVec.msb_eq_decide]

theorem pack64_toNat (neg : Bool) {m : Nat} (h : m < 2 ^ 63) : (pack64 neg m).toNat = (if neg then 2 ^ 63 else 0) + m := by
  rw [pack64, BitVec.toNat_ofNat, Nat.mod_eq_of_lt]
  split <;> omega

@[simp] theorem sign64_pack64 (neg : Bool) {m : Nat} (h : m < 2 ^ 63) : sign64 (pack64 neg m) = neg := by
  rw [sign64_eq, pack64_toNat neg h]
  cases neg
  · simpa using h
  · simp

@[simp] theorem mag64_pack64 (neg : Bool) {m : Nat} (h : m < 2 ^ 63) : mag64 (pack64 neg m) = m := by
  rw [mag64, pack64_toNat neg h]
  cases neg
  · simpa using h
  · simpa using h

theorem roundUnits_double_lt (n d : Nat) : roundUnits double n d < 2 ^ 63 := by
  have h := roundUnits_le_inf double n d
  rw [double_infBits] at h
  omega

@[simp] theorem sign64_round64 (neg : Bool) (n d : Nat) : sign64 (round64 neg n d) = neg :=
  sign64_pack64 neg (roundUnits_double_lt n d)

@[simp] theorem mag64_round64 (neg : Bool) (n d : Nat) : mag64 (round64 neg n d) = roundUnits double n d :=
  mag64_pack64 neg (roundUnits_double_lt n d)

theorem isFinite64_iff {x : F64} : isFinite64 x = true ↔ mag64 x < double.infBits := by simp [isFinite64]

theorem isNaN64_of_finite {x : F64} (h : isFinite64 x = true) : isNaN64 x = false :=
  decide_eq_false (not_lt.2 (isFinite64_iff.1 h).le)

theorem isInf64_of_finite {x : F64} (h : isFinite64 x = true) : isInf64 x = false :=
  decide_eq_false (isFinite64_iff.1 h).ne

/-- The last bit of a word is the parity of its magnitude. -/
theorem getLsbD_zero_of_even_mag32 {x : F32} (h : mag32 x % 2 = 0) : x.getLsbD 0 = false := by
  rw [mag32] at h
  rw [BitVec.getLsbD, Nat.testBit_zero]
  exact decide_eq_false (by omega)

theorem getLsbD_zero_of_even_mag64 {x : F64} (h : mag64 x % 2 = 0) : x.getLsbD 0 = false := by
  rw [mag64] at h
  rw [BitVec.getLsbD, Nat.testBit_zero]
  exact decide_eq_false (by omega)

theorem units32_withSign (x : F32) : (units32 x : ℚ) = withSign (sign32 x) (unitsOf single (mag32 x)) := by
  cases h : sign32 x <;> simp [units32, h]

theorem units64_withSign (x : F64) : (units64 x : ℚ) = withSign (sign64 x) (unitsOf double (mag64 x)) := by
  cases h : sign64 x <;> simp [units64, h]

theorem value32_eq (x : F32) : value32 x = single.value (sign32 x) (mag32 x) := by
  rw [value32, units32_withSign, FloatFormat.value, single_unitPlaces]

theorem value64_eq (x : F64) : value64 x = double.value (sign64 x) (mag64 x) := by
  rw [value64, units64_withSign, FloatFormat.value, double_unitPlaces]

theorem mag32_eq_zero_iff {x : F32} : mag32 x = 0 ↔ value32 x = 0 := by
  rw [value32_eq_zero_iff, ← Int.natAbs_eq_zero, ← (unitsOf_strictMono single).injective.eq_iff, unitsOf_zero]
  cases h : sign32 x <;> simp [units32, h]

theorem mag64_eq_zero_iff {x : F64} : mag64 x = 0 ↔ value64 x = 0 := by
  rw [value64_eq_zero_iff, ← Int.natAbs_eq_zero, ← (unitsOf_strictMono double).injective.eq_iff, unitsOf_zero]
  cases h : sign64 x <;> simp [units64, h]

theorem single_overflowAt : single.overflowAt = 2 ^ 128 - 2 ^ 103 :=
  overflowAt_of_threshold (by omega) single_unitPlaces single_threshold

theorem double_overflowAt : double.overflowAt = 2 ^ 1024 - 2 ^ 970 :=
  overflowAt_of_threshold (by omega) double_unitPlaces double_threshold

/-- A binary32 word whose sign and magnitude are the rounded value is the rounded word. -/
theorem roundsTo32_of_roundsTo {v : ℚ} {r : F32} (h : single.RoundsTo v (sign32 r) (mag32 r)) : RoundsTo32 v r := by
  obtain ⟨hround, hsign⟩ := h
  refine ⟨?_, hsign⟩
  rw [single_overflowAt] at hround
  split at hround
  case isTrue hlt =>
    obtain ⟨hfin, hnear⟩ := hround
    rw [if_pos hlt]
    refine ⟨isFinite32_iff.2 hfin, fun z _ => ?_⟩
    obtain ⟨hle, htie⟩ := hnear (sign32 z) (mag32 z)
    rw [value32_eq, value32_eq]
    exact ⟨hle, fun heq hne => getLsbD_zero_of_even_mag32 (htie heq hne)⟩
  case isFalse hge =>
    rw [if_neg hge]
    exact decide_eq_true hround

/-- The same for binary64. -/
theorem roundsTo64_of_roundsTo {v : ℚ} {r : F64} (h : double.RoundsTo v (sign64 r) (mag64 r)) : RoundsTo64 v r := by
  obtain ⟨hround, hsign⟩ := h
  refine ⟨?_, hsign⟩
  rw [double_overflowAt] at hround
  split at hround
  case isTrue hlt =>
    obtain ⟨hfin, hnear⟩ := hround
    rw [if_pos hlt]
    refine ⟨isFinite64_iff.2 hfin, fun z _ => ?_⟩
    obtain ⟨hle, htie⟩ := hnear (sign64 z) (mag64 z)
    rw [value64_eq, value64_eq]
    exact ⟨hle, fun heq hne => getLsbD_zero_of_even_mag64 (htie heq hne)⟩
  case isFalse hge =>
    rw [if_neg hge]
    exact decide_eq_true hround

/-- `round32` is correct rounding of the value of its fraction of units. -/
theorem roundsTo32_round32 (neg : Bool) (n : Nat) {d : Nat} (hd : 0 < d) :
    RoundsTo32 (withSign neg (n / d) / 2 ^ single.unitPlaces) (round32 neg n d) := by
  apply roundsTo32_of_roundsTo
  rw [sign32_round32, mag32_round32]
  exact roundsTo_roundUnits (by decide) (by decide) hd neg

/-- `round64` likewise. -/
theorem roundsTo64_round64 (neg : Bool) (n : Nat) {d : Nat} (hd : 0 < d) :
    RoundsTo64 (withSign neg (n / d) / 2 ^ double.unitPlaces) (round64 neg n d) := by
  apply roundsTo64_of_roundsTo
  rw [sign64_round64, mag64_round64]
  exact roundsTo_roundUnits (by decide) (by decide) hd neg

end words

end Sys2Proof.Machine
end

section
/-! PROOF. The primitives that round (R8, R206 (b)): on finite operands each is one rounding of its exact result; with a NaN, for zero
over zero and for the difference of equal infinities each gives a NaN. -/

namespace Sys2Proof.Machine

section finite

variable {x y : F32}

/-- The sum of finite words is one rounding of the exact sum, an exact zero included. -/
theorem sum32_roundsTo (nan : F32) (hx : isFinite32 x = true) (hy : isFinite32 y = true) :
    RoundsTo32 (value32 x + value32 y) (sum32 nan x y) := by
  have hvalue : value32 x + value32 y = ((units32 x + units32 y : Int) : ℚ) / 2 ^ single.unitPlaces := by
    rw [value32, value32, ← add_div, single_unitPlaces, Int.cast_add]
  unfold sum32
  simp only [isNaN32_of_finite hx, isNaN32_of_finite hy, isInf32_of_finite hx, isInf32_of_finite hy, Bool.or_self,
    Bool.false_eq_true, if_false]
  rw [hvalue]
  split
  case isTrue hzero =>
    apply roundsTo32_of_roundsTo
    rw [hzero, Int.cast_zero, zero_div, mag32_pack32 _ (by norm_num)]
    exact roundsTo_zero (by decide) (by decide) _
  case isFalse =>
    have h := roundsTo32_round32 (decide (units32 x + units32 y < 0)) (units32 x + units32 y).natAbs one_pos
    rwa [Nat.cast_one, div_one, withSign_natAbs] at h

theorem fadd32_roundsTo (hx : isFinite32 x = true) (hy : isFinite32 y = true) : RoundsTo32 (value32 x + value32 y) (fadd32 x y) := by
  unfold fadd32
  exact sum32_roundsTo _ hx hy

theorem value32_fneg (x : F32) : value32 (fneg32 x) = -value32 x := by
  rw [value32, value32, units32_fneg, Int.cast_neg, neg_div]

theorem fsub32_roundsTo (hx : isFinite32 x = true) (hy : isFinite32 y = true) : RoundsTo32 (value32 x - value32 y) (fsub32 x y) := by
  unfold fsub32
  rw [sub_eq_add_neg, ← value32_fneg]
  exact sum32_roundsTo _ hx ((isFinite32_fneg y).trans hy)

theorem fmul32_roundsTo (hx : isFinite32 x = true) (hy : isFinite32 y = true) : RoundsTo32 (value32 x * value32 y) (fmul32 x y) := by
  unfold fmul32
  simp only [isNaN32_of_finite hx, isNaN32_of_finite hy, isInf32_of_finite hx, isInf32_of_finite hy, Bool.or_self,
    Bool.false_eq_true, if_false]
  rw [value32_eq, value32_eq, value_mul_value]
  exact roundsTo32_round32 _ _ (Nat.two_pow_pos _)

theorem fdiv32_roundsTo (hx : isFinite32 x = true) (hy : isFinite32 y = true) (h : value32 y ≠ 0) :
    RoundsTo32 (value32 x / value32 y) (fdiv32 x y) := by
  have hmag : mag32 y ≠ 0 := mt mag32_eq_zero_iff.1 h
  unfold fdiv32
  simp only [isNaN32_of_finite hx, isNaN32_of_finite hy, isInf32_of_finite hx, isInf32_of_finite hy, hmag, Bool.or_self,
    Bool.false_eq_true, if_false]
  rw [value32_eq, value32_eq, value_div_value]
  exact roundsTo32_round32 _ _ (unitsOf_zero single ▸ unitsOf_strictMono single (Nat.pos_of_ne_zero hmag))

end finite

section finiteDouble

variable {x y : F64}

theorem dmul64_roundsTo (hx : isFinite64 x = true) (hy : isFinite64 y = true) : RoundsTo64 (value64 x * value64 y) (dmul64 x y) := by
  unfold dmul64
  simp only [isNaN64_of_finite hx, isNaN64_of_finite hy, isInf64_of_finite hx, isInf64_of_finite hy, Bool.or_self,
    Bool.false_eq_true, if_false]
  rw [value64_eq, value64_eq, value_mul_value]
  exact roundsTo64_round64 _ _ (Nat.two_pow_pos _)

theorem ddiv64_roundsTo (hx : isFinite64 x = true) (hy : isFinite64 y = true) (h : value64 y ≠ 0) :
    RoundsTo64 (value64 x / value64 y) (ddiv64 x y) := by
  have hmag : mag64 y ≠ 0 := mt mag64_eq_zero_iff.1 h
  unfold ddiv64
  simp only [isNaN64_of_finite hx, isNaN64_of_finite hy, isInf64_of_finite hx, isInf64_of_finite hy, hmag, Bool.or_self,
    Bool.false_eq_true, if_false]
  rw [value64_eq, value64_eq, value_div_value]
  exact roundsTo64_round64 _ _ (unitsOf_zero double ▸ unitsOf_strictMono double (Nat.pos_of_ne_zero hmag))

end finiteDouble

section conversions

/-- A whole number is counted in units without a remainder. -/
theorem withSign_whole (neg : Bool) (n p : Nat) : withSign neg ((n * 2 ^ p : Nat) / (1 : Nat)) / 2 ^ p = withSign neg n := by
  have hp : (2 : ℚ) ^ p ≠ 0 := by positivity
  rw [withSign_div]
  push_cast
  rw [div_one, mul_div_cancel_right₀ _ hp]

/-- `d2f` rounds the value: the units of binary64 counted in those of binary32. -/
theorem d2f32_roundsTo {x : F64} (hx : isFinite64 x = true) : RoundsTo32 (value64 x) (d2f32 x) := by
  have hplaces : double.unitPlaces = (double.unitPlaces - single.unitPlaces) + single.unitPlaces := rfl
  have hvalue : value64 x = withSign (sign64 x) (unitsOf double (mag64 x) / (2 ^ (double.unitPlaces - single.unitPlaces) : Nat)) /
      2 ^ single.unitPlaces := by
    rw [value64_eq, FloatFormat.value, hplaces, pow_add, ← div_div, ← hplaces, withSign_div]
    push_cast
    rfl
  unfold d2f32
  simp only [isNaN64_of_finite hx, isInf64_of_finite hx, Bool.false_eq_true, if_false]
  rw [hvalue]
  exact roundsTo32_round32 _ _ (Nat.two_pow_pos _)

theorem u2f32_roundsTo (n : U32) : RoundsTo32 (n.toNat : ℚ) (u2f32 n) := by
  have h := roundsTo32_round32 false (n.toNat * 2 ^ single.unitPlaces) one_pos
  rw [withSign_whole, withSign_false] at h
  unfold u2f32
  exact h

theorem i2d64_roundsTo (p : U64) : RoundsTo64 (p.toInt : ℚ) (i2d64 p) := by
  have h := roundsTo64_round64 (decide (p.toInt < 0)) (p.toInt.natAbs * 2 ^ double.unitPlaces) one_pos
  rw [withSign_whole, withSign_natAbs] at h
  unfold i2d64
  exact h

/-- `d2f` of an infinity is the infinity of its sign. -/
theorem d2f32_infinity {x : F64} (hx : isInf64 x = true) : isInf32 (d2f32 x) = true ∧ sign32 (d2f32 x) = sign64 x := by
  have hnan : isNaN64 x = false := decide_eq_false (of_decide_eq_true hx).not_gt
  have hlt : single.infBits < 2 ^ 31 := by
    rw [single_infBits]
    norm_num
  unfold d2f32
  simp only [hnan, hx, Bool.false_eq_true, if_false, if_true]
  exact ⟨decide_eq_true (mag32_pack32 _ hlt), sign32_pack32 _ hlt⟩

end conversions

section nan

theorem isNaN32_asNaN32 (raw : F32) : isNaN32 (asNaN32 raw) = true := by
  unfold asNaN32
  split
  case isTrue h => exact h
  case isFalse => decide

theorem isNaN64_asNaN64 (raw : F64) : isNaN64 (asNaN64 raw) = true := by
  unfold asNaN64
  split
  case isTrue h => exact h
  case isFalse => decide

/-- R206 (b): a NaN operand of a binary32 operation gives a NaN. -/
theorem nan_of_nan_operand32 {x y : F32} (h : isNaN32 x = true ∨ isNaN32 y = true) :
    isNaN32 (fadd32 x y) = true ∧ isNaN32 (fsub32 x y) = true ∧ isNaN32 (fmul32 x y) = true ∧ isNaN32 (fdiv32 x y) = true := by
  have hor : (isNaN32 x || isNaN32 y) = true := by simpa using h
  unfold fadd32 fsub32 fmul32 fdiv32 sum32
  simp only [isNaN32_fneg, hor, if_true, isNaN32_asNaN32, and_self]

theorem nan_of_nan_operand64 {x y : F64} (h : isNaN64 x = true ∨ isNaN64 y = true) :
    isNaN64 (dmul64 x y) = true ∧ isNaN64 (ddiv64 x y) = true := by
  have hor : (isNaN64 x || isNaN64 y) = true := by simpa using h
  unfold dmul64 ddiv64
  simp only [hor, if_true, isNaN64_asNaN64, and_self]

theorem f2d64_nan {x : F32} (h : isNaN32 x = true) : isNaN64 (f2d64 x) = true := by
  unfold f2d64
  rw [if_pos h]
  exact isNaN64_asNaN64 _

theorem d2f32_nan {x : F64} (h : isNaN64 x = true) : isNaN32 (d2f32 x) = true := by
  unfold d2f32
  rw [if_pos h]
  exact isNaN32_asNaN32 _

theorem fdiv32_zero_zero {x y : F32} (hx : isFinite32 x = true) (hy : isFinite32 y = true) (hx0 : value32 x = 0)
    (hy0 : value32 y = 0) : isNaN32 (fdiv32 x y) = true := by
  unfold fdiv32
  simp only [isNaN32_of_finite hx, isNaN32_of_finite hy, isInf32_of_finite hx, isInf32_of_finite hy, mag32_eq_zero_iff.2 hx0,
    mag32_eq_zero_iff.2 hy0, Bool.or_self, Bool.false_eq_true, if_false, if_true, isNaN32_asNaN32]

theorem ddiv64_zero_zero {x y : F64} (hx : isFinite64 x = true) (hy : isFinite64 y = true) (hx0 : value64 x = 0)
    (hy0 : value64 y = 0) : isNaN64 (ddiv64 x y) = true := by
  unfold ddiv64
  simp only [isNaN64_of_finite hx, isNaN64_of_finite hy, isInf64_of_finite hx, isInf64_of_finite hy, mag64_eq_zero_iff.2 hx0,
    mag64_eq_zero_iff.2 hy0, Bool.or_self, Bool.false_eq_true, if_false, if_true, isNaN64_asNaN64]

/-- Infinities of opposite signs have no sum. -/
theorem sum32_opposite_infinities (nan : F32) {x : F32} (hx : isInf32 x = true) : sum32 nan x (fneg32 x) = nan := by
  have hneg : isInf32 (fneg32 x) = true := by
    rw [isInf32, mag32_fneg]
    exact hx
  unfold sum32
  simp [hx, hneg]

theorem infinity_minus_itself {x : F32} (hx : isInf32 x = true) :
    isNaN32 (fsub32 x x) = true ∧ isNaN32 (fadd32 x (fneg32 x)) = true := by
  unfold fsub32 fadd32
  rw [sum32_opposite_infinities _ hx, sum32_opposite_infinities _ hx]
  exact ⟨isNaN32_asNaN32 _, isNaN32_asNaN32 _⟩

end nan

/-- Settles O58: each primitive on finite operands is one rounding of the exact fraction of units (`roundsTo_roundUnits`), and each
excepted operand reaches the branch that answers a NaN or an infinity. -/
theorem correctlyRounded : Obligations.CorrectlyRounded := by
  unfold Obligations.CorrectlyRounded
  refine ⟨fun x y hx hy => ?single, fun x y hx hy => ?double, fun _ => d2f32_roundsTo, fun _ => d2f32_infinity, u2f32_roundsTo,
    i2d64_roundsTo, fun _ _ => nan_of_nan_operand32, fun _ _ => nan_of_nan_operand64, fun _ => f2d64_nan, fun _ => d2f32_nan,
    fun _ _ => fdiv32_zero_zero, fun _ _ => ddiv64_zero_zero, fun _ => infinity_minus_itself⟩
  case single => exact ⟨fadd32_roundsTo hx hy, fsub32_roundsTo hx hy, fmul32_roundsTo hx hy, fdiv32_roundsTo hx hy⟩
  case double => exact ⟨dmul64_roundsTo hx hy, ddiv64_roundsTo hx hy⟩

end Sys2Proof.Machine
end

section
/-! PROOF. The exact conversions (R206 (c)): a number with no more significant bits than the format holds, at any exponent within its
range, is the units of a magnitude, so rounding leaves it as it is. -/

namespace Sys2Proof.Machine

section significand

variable {f : FloatFormat}

/-- A significand of `fracBits + 1` bits at any exponent is the units of a magnitude: a small one is doubled into range first. -/
theorem exists_unitsOf_eq (k : Nat) {c : Nat} (hc : c ≤ 2 ^ (f.fracBits + 1)) : ∃ m, unitsOf f m = c * 2 ^ k := by
  induction k generalizing c with
  | zero => exact ⟨0 * 2 ^ f.fracBits + c, unitsOf_shift f hc (fun h => absurd h (lt_irrefl 0))⟩
  | succ k ih =>
    rcases le_or_gt (2 ^ f.fracBits) c with hnormal | hsmall
    · exact ⟨_, unitsOf_shift f hc (fun _ => hnormal)⟩
    · obtain ⟨m, hm⟩ := ih (c := 2 * c) (by rw [Nat.pow_succ]; omega)
      refine ⟨m, hm.trans ?_⟩
      ring

/-- Within the finite range such a number is rounded to itself. -/
theorem roundUnits_significand {c k : Nat} (hc : c ≤ 2 ^ (f.fracBits + 1)) (hlt : c * 2 ^ k < unitsOf f f.infBits) :
    roundUnits f (c * 2 ^ k) 1 < f.infBits ∧ unitsOf f (roundUnits f (c * 2 ^ k) 1) = c * 2 ^ k := by
  obtain ⟨m, hm⟩ := exists_unitsOf_eq k hc
  have hfin : m < f.infBits := (unitsOf_strictMono f).lt_iff_lt.1 (hm ▸ hlt)
  have hround : roundUnits f (c * 2 ^ k) 1 = m := by
    have h := roundUnits_exact f m one_pos
    rwa [hm, Nat.mul_one, Nat.min_eq_left hfin.le] at h
  rw [hround]
  exact ⟨hfin, hm⟩

/-- The units that the magnitude of infinity would count, a power of two: a finite value counts fewer. -/
theorem unitsOf_infBits (he : 0 < f.expBits) : unitsOf f f.infBits = 2 ^ (f.fracBits + (2 ^ f.expBits - 2)) := by
  have hp : 0 < 2 ^ f.fracBits := Nat.two_pow_pos _
  have hexp : 2 ^ f.expBits - 1 ≠ 0 := by
    have h := Nat.one_lt_two_pow he.ne'
    omega
  simp only [unitsOf, FloatFormat.infBits, Nat.mul_div_cancel _ hp, Nat.mul_mod_left, if_neg hexp]
  rw [Nat.zero_add, ← Nat.pow_add, Nat.sub_sub]

/-- A number of `a` bits, shifted by `k` places, stays within the finite range. -/
theorem mul_two_pow_lt_infBits {c k a : Nat} (he : 0 < f.expBits) (hc : c ≤ 2 ^ a) (h : a + k < f.fracBits + (2 ^ f.expBits - 2)) :
    c * 2 ^ k < unitsOf f f.infBits :=
  calc c * 2 ^ k ≤ 2 ^ a * 2 ^ k := Nat.mul_le_mul_right _ hc
    _ = 2 ^ (a + k) := (Nat.pow_add 2 a k).symm
    _ < 2 ^ (f.fracBits + (2 ^ f.expBits - 2)) := Nat.pow_lt_pow_right one_lt_two h
    _ = unitsOf f f.infBits := (unitsOf_infBits he).symm

theorem round32_significand (neg : Bool) {c k : Nat} (hc : c ≤ 2 ^ 24) (hlt : c * 2 ^ k < unitsOf single single.infBits) :
    isFinite32 (round32 neg (c * 2 ^ k) 1) = true ∧
    value32 (round32 neg (c * 2 ^ k) 1) = withSign neg (c * 2 ^ k : Nat) / 2 ^ single.unitPlaces := by
  obtain ⟨hfin, hunits⟩ := roundUnits_significand (f := single) hc hlt
  rw [isFinite32_iff, value32_eq, sign32_round32, mag32_round32, FloatFormat.value, hunits]
  exact ⟨hfin, rfl⟩

theorem round64_significand (neg : Bool) {c k : Nat} (hc : c ≤ 2 ^ 53) (hlt : c * 2 ^ k < unitsOf double double.infBits) :
    isFinite64 (round64 neg (c * 2 ^ k) 1) = true ∧
    value64 (round64 neg (c * 2 ^ k) 1) = withSign neg (c * 2 ^ k : Nat) / 2 ^ double.unitPlaces := by
  obtain ⟨hfin, hunits⟩ := roundUnits_significand (f := double) hc hlt
  rw [isFinite64_iff, value64_eq, sign64_round64, mag64_round64, FloatFormat.value, hunits]
  exact ⟨hfin, rfl⟩

end significand

theorem u2f32_exact {n : U32} (h : n.toNat ≤ 2 ^ 24) : isFinite32 (u2f32 n) = true ∧ value32 (u2f32 n) = (n.toNat : ℚ) := by
  obtain ⟨hfin, hvalue⟩ := round32_significand false (k := single.unitPlaces) h (mul_two_pow_lt_infBits (by decide) h (by decide))
  unfold u2f32
  refine ⟨hfin, hvalue.trans ?_⟩
  rw [← withSign_false (n.toNat : ℚ), ← withSign_whole false n.toNat single.unitPlaces, Nat.cast_one, div_one]

theorem i2d64_exact {p : U64} (h : p.toInt.natAbs ≤ 2 ^ 53) : isFinite64 (i2d64 p) = true ∧ value64 (i2d64 p) = (p.toInt : ℚ) := by
  obtain ⟨hfin, hvalue⟩ := round64_significand (decide (p.toInt < 0)) (k := double.unitPlaces) h
    (mul_two_pow_lt_infBits (by decide) h (by decide))
  unfold i2d64
  refine ⟨hfin, hvalue.trans ?_⟩
  rw [← withSign_natAbs p.toInt, ← withSign_whole _ p.toInt.natAbs double.unitPlaces, Nat.cast_one, div_one]

/-- `f2d` is exact: a binary32 significand fits in a binary64 one, and the range of binary32 lies within that of binary64. -/
theorem f2d64_exact {x : F32} (hx : isFinite32 x = true) : isFinite64 (f2d64 x) = true ∧ value64 (f2d64 x) = value32 x := by
  obtain ⟨k, c, hmag, hc, hk⟩ := mag_split single (mag32 x)
  have hunits : unitsOf single (mag32 x) = c * 2 ^ k := hmag ▸ unitsOf_shift single hc.le hk
  have hplaces : double.unitPlaces = single.unitPlaces + (double.unitPlaces - single.unitPlaces) := rfl
  have hlt : unitsOf single (mag32 x) ≤ 2 ^ (single.fracBits + (2 ^ single.expBits - 2)) := by
    rw [← unitsOf_infBits (by decide)]
    exact (unitsOf_strictMono single (isFinite32_iff.1 hx)).le
  have hscaled : unitsOf single (mag32 x) * 2 ^ (double.unitPlaces - single.unitPlaces) =
      c * 2 ^ (k + (double.unitPlaces - single.unitPlaces)) := by
    rw [hunits, Nat.pow_add, Nat.mul_assoc]
  obtain ⟨hfin, hvalue⟩ := round64_significand (sign32 x) (k := k + (double.unitPlaces - single.unitPlaces))
    (hc.le.trans (Nat.pow_le_pow_right two_pos (by decide))) (hscaled ▸ mul_two_pow_lt_infBits (by decide) hlt (by decide))
  unfold f2d64
  simp only [isNaN32_of_finite hx, isInf32_of_finite hx, Bool.false_eq_true, if_false]
  rw [hscaled]
  refine ⟨hfin, hvalue.trans ?_⟩
  have hP : (2 : ℚ) ^ (double.unitPlaces - single.unitPlaces) ≠ 0 := by positivity
  rw [value32_eq, FloatFormat.value, ← hscaled, hplaces, pow_add, withSign_div, withSign_div, ← hplaces]
  push_cast
  rw [mul_div_mul_right _ _ hP]

theorem s2f32_exact (d : Sign) : isFinite32 (s2f32 d) = true ∧ value32 (s2f32 d) = (d.toInt : ℚ) := by
  have hone : units32 one32 = 2 ^ 149 := by decide
  have hnegOne : units32 negOne32 = -2 ^ 149 := by decide
  cases d with
  | neg =>
    refine ⟨by decide, ?_⟩
    rw [s2f32, value32, hnegOne, Sign.toInt]
    norm_num
  | pos =>
    refine ⟨by decide, ?_⟩
    rw [s2f32, value32, hone, Sign.toInt]
    norm_num

/-- Settles O60: each integer and each binary32 significand within the range fits the significand of the result, so that the one
rounding is exact; the codecs are the identity on words. -/
theorem conversionsExact : Obligations.ConversionsExact := by
  unfold Obligations.ConversionsExact
  exact ⟨fun _ => u2f32_exact, fun _ => i2d64_exact, fun _ => f2d64_exact, s2f32_exact, fun x => ⟨dec32_eq x, enc32_eq x⟩, enc64_eq,
    fun x hx => (real_dec32 x).trans (realOfWord_finite hx)⟩

end Sys2Proof.Machine
end

section
/-! PROOF. The decoder and the encoder as inverses (R86, R89, R90): the fields of an operation word are read back as they were written, and
a word that matches a row is the one the encoder writes for its operation. -/

namespace Sys2Proof.Machine

section fields

variable (opc wid : U8) (ch edge pair : Bool)

@[simp] theorem widField_opWordQ : widField (opWordQ opc wid ch edge pair) = wid := by
  rw [widField, opWordQ, BitVec.extractLsb'_append_eq_of_le (by decide), BitVec.extractLsb'_append_eq_of_le (by decide),
    BitVec.extractLsb'_append_eq_of_le (by decide), BitVec.extractLsb'_append_eq_of_le (by decide)]
  exact BitVec.extractLsb'_append_eq_right

@[simp] theorem chField_opWordQ : chField (opWordQ opc wid ch edge pair) = ch := by
  simp only [chField, opWordQ, BitVec.getLsbD_append]
  simp

@[simp] theorem edgeField_opWordQ : edgeField (opWordQ opc wid ch edge pair) = edge := by
  simp only [edgeField, opWordQ, BitVec.getLsbD_append]
  simp

@[simp] theorem pairField_opWordQ : pairField (opWordQ opc wid ch edge pair) = pair := by
  simp only [pairField, opWordQ, BitVec.getLsbD_append]
  simp

end fields

/-- R86: the word the encoder writes selects the row of its operation. -/
theorem encode_row (i : Instr) : Laws.EncodedRow.Statement i := by
  cases i with
  | cap wid ch edge pair cnt => exact Laws.EncodedRow.cap wid ch edge pair cnt
  | ovf wid => exact Laws.EncodedRow.ovf wid
  | tick => exact Laws.EncodedRow.tick
  | otick => exact Laws.EncodedRow.otick
  | setsp wid x => exact Laws.EncodedRow.setsp wid x
  | setvel v om => exact Laws.EncodedRow.setvel v om
  | getspd wid => exact Laws.EncodedRow.getspd wid
  | getrev wid => exact Laws.EncodedRow.getrev wid
  | getodo => exact Laws.EncodedRow.getodo
  | rstodo => exact Laws.EncodedRow.rstodo
  | rdpos wid => exact Laws.EncodedRow.rdpos wid
  | kfupd wid z => exact Laws.EncodedRow.kfupd wid z
  | pidcmp wid m => exact Laws.EncodedRow.pidcmp wid m
  | kininv v om => exact Laws.EncodedRow.kininv v om
  | kinfwd l r => exact Laws.EncodedRow.kinfwd l r
  | odoupd p0 p1 dt => exact Laws.EncodedRow.odoupd p0 p1 dt

/-- R89, step (3): the row of an operation assembles it again from the request the encoder writes. -/
theorem assemble_encode (i : Instr) : assemble i.row (encode i) = i := by
  cases i with
  | cap => rw [Instr.row, encode, assemble, widField_opWordQ, chField_opWordQ, edgeField_opWordQ, pairField_opWordQ]
  | ovf | setsp | getspd | getrev | rdpos | kfupd | pidcmp => rw [Instr.row, encode, assemble, widField_opWordW]
  | tick | otick | setvel | getodo | rstodo | kininv | kinfwd | odoupd => rfl

/-- Settles O1: the encoded word matches the operation's row, and that row assembles the operation. -/
theorem decodeEncode : Obligations.DecodeEncode := by
  unfold Obligations.DecodeEncode
  intro p i hp
  obtain ⟨hmatch, hport⟩ := encode_row i
  obtain rfl : i.port = p := of_decide_eq_true hp
  rw [← hport, decode_of_match hmatch, assemble_encode]

/-- Bits `start` to `start + len - 1` of a matching word are the row's where its mask covers them. -/
theorem extract_of_match {x : U32} {m : Mnemonic} (h : x &&& m.mask = m.matchWord) {start len : Nat}
    (hmask : m.mask.extractLsb' start len = BitVec.allOnes len) :
    x.extractLsb' start len = m.matchWord.extractLsb' start len := by
  have hbits := congrArg (BitVec.extractLsb' start len) h
  rwa [BitVec.extractLsb'_and, hmask, BitVec.and_allOnes] at hbits

/-- A single bit as a word of one bit. -/
theorem ofBool_getLsbD (x : U32) (i : Nat) : BitVec.ofBool (x.getLsbD i) = x.extractLsb' i 1 := by
  apply BitVec.eq_of_getLsbD_eq
  intro j hj
  obtain rfl : j = 0 := by omega
  simp

theorem extract_matchWord_low (m : Mnemonic) {start len : Nat} (h : start + len ≤ 24) :
    m.matchWord.extractLsb' start len = 0#len := by
  rw [Mnemonic.matchWord, BitVec.extractLsb'_append_eq_of_add_le h, BitVec.extractLsb'_zero]

section rebuild

variable {x : U32} {m : Mnemonic} (h : x &&& m.mask = m.matchWord)
include h

/-- R83: a word that matches a row of format W is its opcode, its wheel id and zeros. -/
theorem opWordW_of_match (hm : m.format = .W) : opWordW m.opcode (widField x) = x := by
  have hlow : x.extractLsb' 0 16 = 0#16 := by
    rw [extract_of_match h (by rw [Mnemonic.mask, hm]; rfl), extract_matchWord_low m (by decide)]
  rw [opWordW, widField, ← opcode_of_match h, ← hlow,
    BitVec.extractLsb'_append_extractLsb'_eq_extractLsb' (show 24 = 16 + 8 from rfl),
    BitVec.extractLsb'_append_extractLsb'_eq_extractLsb' (show 16 = 0 + 16 from rfl)]
  exact BitVec.extractLsb'_eq_self

/-- R83: a word that matches a row of format Q is its opcode, its wheel id, zeros and its three bits. -/
theorem opWordQ_of_match (hm : m.format = .Q) :
    opWordQ m.opcode (widField x) (chField x) (edgeField x) (pairField x) = x := by
  have hlow : x.extractLsb' 3 13 = 0#13 := by
    rw [extract_of_match h (by rw [Mnemonic.mask, hm]; rfl), extract_matchWord_low m (by decide)]
  rw [opWordQ, widField, chField, edgeField, pairField, ofBool_getLsbD, ofBool_getLsbD, ofBool_getLsbD, ← opcode_of_match h, ← hlow,
    BitVec.extractLsb'_append_extractLsb'_eq_extractLsb' (show 24 = 16 + 8 from rfl),
    BitVec.extractLsb'_append_extractLsb'_eq_extractLsb' (show 16 = 3 + 13 from rfl),
    BitVec.extractLsb'_append_extractLsb'_eq_extractLsb' (show 3 = 2 + 1 from rfl),
    BitVec.extractLsb'_append_extractLsb'_eq_extractLsb' (show 2 = 1 + 1 from rfl),
    BitVec.extractLsb'_append_extractLsb'_eq_extractLsb' (show 1 = 0 + 1 from rfl)]
  exact BitVec.extractLsb'_eq_self

/-- R83: a word that matches a row of format N is its opcode and zeros. -/
theorem opWordN_of_match (hm : m.format = .N) : opWordN m.opcode = x := by
  have hmask : m.mask = BitVec.allOnes 32 := by rw [Mnemonic.mask, hm]; rfl
  rwa [hmask, BitVec.and_allOnes, eq_comm] at h

/-- R86: the encoder writes the very word a row's operation was assembled from, whatever the operand words. -/
theorem encode_assemble_op (a b c : U32) : (encode (assemble m { op := x, a := a, b := b, c := c })).op = x := by
  cases m with
  | CAP =>
    have hword := opWordQ_of_match h rfl
    rw [assemble, encode]
    exact hword
  | OVF | SETSP | GETSPD | GETREV | RDPOS | KFUPD | PIDCMP =>
    have hword := opWordW_of_match h rfl
    rw [assemble, encode]
    exact hword
  | TICK | OTICK | SETVEL | GETODO | RSTODO | KININV | KINFWD | ODOUPD =>
    have hword := opWordN_of_match h rfl
    rw [assemble, encode]
    exact hword

end rebuild

/-- Settles O2: what the decoder reads was assembled from a word that matches its row, and the encoder writes that word. -/
theorem decodedWordIsEncoded : Obligations.DecodedWordIsEncoded := by
  unfold Obligations.DecodedWordIsEncoded
  intro p r i h
  obtain ⟨m, hrow, hport, rfl⟩ := decode_ok h
  exact ⟨encode_assemble_op (rowOf_some hrow) r.a r.b r.c, (assemble_port m r).trans hport⟩

/-- Settles O3: the opcode byte of a word names the only row it can match. -/
theorem rowsDisjoint : Obligations.RowsDisjoint := by
  unfold Obligations.RowsDisjoint
  exact ⟨rfl, fun _ _ _ => row_unique⟩

/-- Settles O4: each word is decoded by evaluation. -/
theorem exampleWords : Obligations.ExampleWords := by
  unfold Obligations.ExampleWords
  exact ⟨rfl, rfl, rfl, rfl, rfl⟩

end Sys2Proof.Machine
end

section
/-! PROOF. The step (R66, R89): the request it accepts, the word presented to it, and what it does when nothing waits or nothing can
move. -/

namespace Sys2Proof.Machine

/-- Settles O5: each case is the request that is accepted, decoded and carried out. -/
theorem stepRunsDecoded : Obligations.StepRunsDecoded := by
  unfold Obligations.StepRunsDecoded
  refine fun s h0 hh => ⟨fun r rest i he hc hd => ?evt, fun r rest i he hc hd => ?cmd, fun re rc es cs i j he hc hdi hdj => ?both⟩
  case evt => exact step_legal h0 hh (accept_evt he hc) hd
  case cmd => exact step_legal h0 hh (accept_cmd he hc) hd
  case both =>
    rcases accept_both he hc with ha | ha
    · exact .inl (step_legal h0 hh ha hdi)
    · exact .inr (step_legal h0 hh ha hdj)

theorem step_idle {s : State} (h0 : s.resetPort = false) (hh : s.hung = false) (he : s.evtPort = []) (hc : s.cmdPort = []) :
    step s = .next s.silent := by
  rw [step, h0, hh, accept_idle he hc]
  rfl

theorem step_hung {s : State} (h0 : s.resetPort = false) (hh : s.hung = true) : step s = .fault .operationNeverCompletes := by
  rw [step, h0, hh]
  rfl

theorem step_reset {s : State} (h : s.resetPort = true) : step s = .next s.hardwareReset := by
  rw [step, h]
  rfl

/-- Settles O7: the idle and the stuck step, and the update whose heading is not found. -/
theorem waitingAndStuck : Obligations.WaitingAndStuck := by
  unfold Obligations.WaitingAndStuck
  refine ⟨fun s h0 => ⟨fun hh he hc => ?idle, fun hh => step_hung h0 hh⟩, fun p0 p1 dt s => ?stuck⟩
  case idle => rw [step_idle h0 hh he hc, State.silent]
  case stuck =>
    dsimp only
    rw [← headingChange_b32]
    intro harc hnone
    rw [exec_odoupd_none (odoUpdate_none ((headingAfter_arc harc).trans hnone)), State.hang, State.silent]

/-- Log entry 8: a request presented is accepted by the next step, in a state with the same elements. -/
theorem accept_present (s : State) (r : Request) :
    (s.present r).accept = some (portFor r, r, (s.present r).dropRequest (portFor r)) := by
  cases h : portFor r <;> simp [State.accept, State.present, State.nextPort, State.waiting, h]

/-- Settles O8: the request is presented on its own port, alone, and decoded there. -/
theorem fetchWord : Obligations.FetchWord := by
  unfold Obligations.FetchWord
  intro s nbits w i h
  have hd : decode (portFor (requestOfBits nbits w)) (requestOfBits nbits w) = .ok i := by
    rw [decodeTableWord] at h
    split at h <;> cases h
    assumption
  have hready : ∀ r, (s.present r).resetPort = false ∧ (s.present r).hung = false := by
    intro r
    cases hp : portFor r <;> simp [State.present, hp]
  refine ⟨_, step_legal (hready _).1 (hready _).2 (accept_present s _) hd, ?_⟩
  cases hp : portFor (requestOfBits nbits w) <;> simp [State.present, hp]

end Sys2Proof.Machine
end

section
/-! PROOF. What an operation can do, said once (R39): the inversion of `exec`. An operation is dropped or answered without a write, hangs, or
makes the one write of its kind; from this follow the frame of every operation and the status it answers with. -/

namespace Sys2Proof.Machine

/-- The status of an answer to `i` in state `s` (R88): 1 for `GETODO` before any update, 0 otherwise. -/
def AnswersStatus (i : Instr) (s : State) (r : Response) : Prop :=
  if i = .getodo ∧ s.odo.available = false then r.s = 1#32 else r.s = 0#32

/-- The operations that write no element: those that read, and those of a wheel id that selects no wheel (R87). -/
def WritesNothing : Instr → Prop
  | .cap wid _ _ _ _ => wheelOf wid = none
  | .ovf wid => wheelOf wid = none
  | .setsp wid _ => wheelOf wid = none
  | .kfupd wid _ => wheelOf wid = none
  | .pidcmp wid _ => wheelOf wid = none
  | .getspd _ => True
  | .getrev _ => True
  | .getodo => True
  | .rdpos _ => True
  | .kininv _ _ => True
  | .kinfwd _ _ => True
  | .tick => False
  | .otick => False
  | .setvel _ _ => False
  | .rstodo => False
  | .odoupd _ _ _ => False

/-- `Effect i s t`: operation `i` carried out in state `s` can leave `t`. -/
inductive Effect : Instr → State → State → Prop
  /-- An event that selects no wheel (R87). -/
  | dropped {i : Instr} {s : State} (hport : i.port = .evt) (hidle : WritesNothing i) : Effect i s s.silent
  /-- A command that reads, or that selects no wheel. -/
  | answered {i : Instr} {s : State} {r : Response} (hport : i.port = .cmd) (hidle : WritesNothing i)
      (hstatus : AnswersStatus i s r) : Effect i s (s.reply r)
  /-- An odometry operation whose normalisation does not end (U5). -/
  | hung {i : Instr} {s : State} (hodo : i = .otick ∨ ∃ p0 p1 dt, i = .odoupd p0 p1 dt) : Effect i s s.hang
  | captured (w : Wheel) (ch edge pair : Bool) (cnt : U32) (s : State) :
      Effect (.cap (widOf w) ch edge pair cnt) s (s.capture w (direction ch edge pair) cnt).silent
  | overflowed (w : Wheel) (s : State) : Effect (.ovf (widOf w)) s (s.overflow w).silent
  | ticked (s : State) : Effect .tick s ((s.silent.tickWheel .left).tickWheel .right)
  | odoTicked {s u : State}
      (h : s.odoUpdate (wheelAngle b32 s.cfg.epr s.enc.left.position) (wheelAngle b32 s.cfg.epr s.enc.right.position) s.cfg.odoDt =
        some u) : Effect .otick s u.silent
  | setpoint (w : Wheel) (x : U32) (s : State) : Effect (.setsp (widOf w) x) s ((s.setSetpoint w x).reply (Response.bare .ok))
  | setpoints (v om : U32) (s : State) :
      Effect (.setvel v om) s
        (((s.setSetpoint .left (kinInverse b32 s.geo v om).1).setSetpoint .right (kinInverse b32 s.geo v om).2).reply
          (Response.bare .ok))
  | odoReset (s : State) :
      Effect .rstodo s ({ s with
        pose := Pose.origin b32
        odo := { lastLin := Bank.both b32.zero, baselined := false, available := s.odo.available } }.reply (Response.bare .ok))
  | filtered (w : Wheel) (z : U32) (s : State) :
      Effect (.kfupd (widOf w) z) s ((s.filterStep w z).reply (Response.one (kalmanUpdate b32 (s.kf.get w) z).lastEstimate))
  | controlled (w : Wheel) (m : U32) (s : State) :
      Effect (.pidcmp (widOf w) m) s
        ((s.controlStep w m).reply (Response.one (pidOutput b32 s.cfg.maxSumError (s.pid.get w) m)))
  | odoUpdated {p0 p1 dt : U32} {s u : State} (h : s.odoUpdate p0 p1 dt = some u) :
      Effect (.odoupd p0 p1 dt) s (u.reply (Response.bare .ok))

theorem answersStatus_ok {i : Instr} {s : State} {r : Response} (hi : i ≠ .getodo) (hr : r.s = 0#32) : AnswersStatus i s r := by
  rw [AnswersStatus, if_neg (fun h => hi h.1)]
  exact hr

/-- R12, R87: a wheel id is that of a wheel, or selects none. -/
theorem wheelOf_cases (wid : U8) : (∃ w, wid = widOf w) ∨ wheelOf wid = none := by
  cases h : wheelOf wid with
  | none => exact .inr rfl
  | some w => exact .inl ⟨w, wheelOf_some h⟩

theorem exec_cap_out_of_range {wid : U8} (h : wheelOf wid = none) (ch edge pair : Bool) (cnt : U32) (s : State) :
    exec (.cap wid ch edge pair cnt) s = .next s.silent := by
  simp only [exec, execCap, h]

/-- R39, R210: every operation gives a next state, and it is one of the effects. -/
theorem exec_effect (i : Instr) (s : State) : ∃ t, exec i s = .next t ∧ Effect i s t := by
  cases i with
  | cap wid ch edge pair cnt =>
    obtain ⟨w, rfl⟩ | hnone := wheelOf_cases wid
    · exact ⟨_, exec_cap_wheel w s ch edge pair cnt, .captured w ch edge pair cnt s⟩
    · exact ⟨_, exec_cap_out_of_range hnone ch edge pair cnt s, .dropped rfl hnone⟩
  | ovf wid =>
    obtain ⟨w, rfl⟩ | hnone := wheelOf_cases wid
    · exact ⟨_, exec_ovf_wheel w s, .overflowed w s⟩
    · exact ⟨_, exec_ovf_out_of_range hnone s, .dropped rfl hnone⟩
  | tick => exact ⟨_, exec_tick s, .ticked s⟩
  | otick =>
    obtain ⟨u, hu, hx⟩ | ⟨-, hx⟩ := execOtick_cases s
    · exact ⟨_, hx, .odoTicked hu⟩
    · exact ⟨_, hx, .hung (.inl rfl)⟩
  | setsp wid x =>
    obtain ⟨w, rfl⟩ | hnone := wheelOf_cases wid
    · exact ⟨_, exec_setsp_wheel w s x, .setpoint w x s⟩
    · exact ⟨_, exec_setsp_out_of_range hnone s x, .answered rfl hnone (answersStatus_ok (by simp) rfl)⟩
  | setvel v om => exact ⟨_, exec_setvel s v om, .setpoints v om s⟩
  | getspd wid =>
    obtain ⟨w, rfl⟩ | hnone := wheelOf_cases wid
    · exact ⟨_, exec_getspd_wheel w s, .answered rfl trivial (answersStatus_ok (by simp) rfl)⟩
    · exact ⟨_, exec_getspd_out_of_range hnone s, .answered rfl trivial (answersStatus_ok (by simp) rfl)⟩
  | getrev wid =>
    obtain ⟨w, rfl⟩ | hnone := wheelOf_cases wid
    · exact ⟨_, exec_getrev_wheel w s, .answered rfl trivial (answersStatus_ok (by simp) rfl)⟩
    · exact ⟨_, exec_getrev_out_of_range hnone s, .answered rfl trivial (answersStatus_ok (by simp) rfl)⟩
  | getodo =>
    cases h : s.odo.available with
    | true => exact ⟨_, exec_getodo_available h, .answered rfl trivial (by simp [AnswersStatus, h, poseResponse_eq])⟩
    | false => exact ⟨_, exec_getodo_not_available h, .answered rfl trivial (by simp [AnswersStatus, h, response_bare_notAvailable])⟩
  | rstodo => exact ⟨_, exec_rstodo s, .odoReset s⟩
  | rdpos wid =>
    obtain ⟨w, rfl⟩ | hnone := wheelOf_cases wid
    · exact ⟨_, exec_rdpos_wheel w s, .answered rfl trivial (answersStatus_ok (by simp) rfl)⟩
    · exact ⟨_, exec_rdpos_out_of_range hnone s, .answered rfl trivial (answersStatus_ok (by simp) rfl)⟩
  | kfupd wid z =>
    obtain ⟨w, rfl⟩ | hnone := wheelOf_cases wid
    · exact ⟨_, exec_kfupd_wheel w s z, .filtered w z s⟩
    · exact ⟨_, exec_kfupd_out_of_range hnone s z, .answered rfl hnone (answersStatus_ok (by simp) rfl)⟩
  | pidcmp wid m =>
    obtain ⟨w, rfl⟩ | hnone := wheelOf_cases wid
    · exact ⟨_, exec_pidcmp_wheel w s m, .controlled w m s⟩
    · exact ⟨_, exec_pidcmp_out_of_range hnone s m, .answered rfl hnone (answersStatus_ok (by simp) rfl)⟩
  | kininv v om => exact ⟨_, exec_kininv s v om, .answered rfl trivial (answersStatus_ok (by simp) rfl)⟩
  | kinfwd l r => exact ⟨_, exec_kinfwd s l r, .answered rfl trivial (answersStatus_ok (by simp) rfl)⟩
  | odoupd p0 p1 dt =>
    obtain ⟨u, hu, hx⟩ | ⟨-, hx⟩ := execOdoupd_cases p0 p1 dt s
    · exact ⟨_, hx, .odoUpdated hu⟩
    · exact ⟨_, hx, .hung (.inr ⟨p0, p1, dt, rfl⟩)⟩

/-- What an operation did, from its next state. -/
theorem effect_of_exec {i : Instr} {s t : State} (h : exec i s = .next t) : Effect i s t := by
  obtain ⟨u, hu, heffect⟩ := exec_effect i s
  cases hu.symm.trans h
  exact heffect

/-- R88: an operation that answers does so with the status of its answer. -/
theorem Effect.answersStatus {i : Instr} {s t : State} (h : Effect i s t) {r : Response} (hr : t.response = some r) :
    AnswersStatus i s r := by
  cases h with
  | answered _ _ hstatus =>
    cases hr
    exact hstatus
  | dropped | hung | captured | overflowed | ticked | odoTicked => cases hr
  | setpoint | setpoints | odoReset | filtered | controlled | odoUpdated =>
    cases hr
    exact answersStatus_ok (by simp) rfl

/-- R39: an odometry update writes the pose and the references alone. -/
theorem odoUpdate_frame {s u : State} {p0 p1 dt : F32} (h : s.odoUpdate p0 p1 dt = some u) :
    frameAll s u ∧ u.enc = s.enc ∧ u.spd = s.spd ∧ u.kf = s.kf ∧ u.pid = s.pid ∧ u.duty = s.duty ∧ u.illTimed = s.illTimed ∧
      u.hung = s.hung := by
  obtain ⟨_, -, rfl⟩ := odoUpdate_some h
  exact ⟨⟨rfl, rfl, rfl, rfl, rfl, rfl, rfl⟩, rfl, rfl, rfl, rfl, rfl, rfl, rfl⟩

theorem Effect.frameAll {i : Instr} {s t : State} (h : Effect i s t) : frameAll s t := by
  cases h with
  | odoTicked hu | odoUpdated hu => exact (odoUpdate_frame hu).1
  | dropped | answered | hung | captured | overflowed | ticked | setpoint | setpoints | odoReset | filtered | controlled =>
    exact ⟨rfl, rfl, rfl, rfl, rfl, rfl, rfl⟩

theorem keepsHistory_self (c : Pid F32) : keepsHistory c c := ⟨rfl, rfl, rfl, rfl, rfl⟩

theorem keepsSetpoint_self (c : Pid F32) : keepsSetpoint c c := ⟨rfl, rfl, rfl, rfl⟩

/-- A write to one bank keeps what is written over from the old contents. -/
theorem bank_set_keeps {α : Type} {R : α → α → Prop} (hrefl : ∀ x, R x x) (b : Bank α) {w : Wheel} {x : α} (hx : R (b.get w) x)
    (v : Wheel) : R (b.get v) ((b.set w x).get v) := by
  rcases eq_or_ne v w with rfl | hne
  · rwa [bank_get_set]
  · rw [bank_get_set_of_ne _ _ _ _ hne]
    exact hrefl _

theorem keepsVariances_set (b : Bank (Kalman F32)) (w : Wheel) (z : F32) :
    keepsVariances b (b.set w (kalmanUpdate b32 (b.get w) z)) := by
  cases w <;> exact ⟨rfl, rfl, rfl, rfl⟩

theorem frame_of_unchanged {i : Instr} {s t : State} (h : frame.unchanged s t) : frame i s t := by
  obtain ⟨henc, hspd, hkf, hpid, hduty, hpose, hodo, hill, hhung⟩ := h
  cases i <;>
    simp [frame, frame.unchanged, henc, hspd, hkf, hpid, hduty, hpose, hodo, hill, hhung, otherBanks_self, keepsVariances,
      keepsHistory_self, keepsSetpoint_self]

/-- R39, column "writes": each effect changes no element outside the row of its operation. -/
theorem Effect.frame {i : Instr} {s t : State} (h : Effect i s t) : frame i s t := by
  cases h with
  | dropped | answered => exact frame_of_unchanged ⟨rfl, rfl, rfl, rfl, rfl, rfl, rfl, rfl, rfl⟩
  | hung hodo =>
    obtain rfl | ⟨p0, p1, dt, rfl⟩ := hodo
    · exact ⟨rfl, rfl, rfl, rfl, rfl, rfl⟩
    · exact ⟨rfl, rfl, rfl, rfl, rfl, rfl⟩
  | captured w ch edge pair cnt =>
    exact ⟨otherBanks_set w _ _, otherBanks_set w _ _, otherBanks_set w _ _, rfl, rfl, rfl, rfl, rfl, rfl⟩
  | overflowed w =>
    have hkeeps := bank_set_keeps (R := fun e e' : Encoder => e'.position = e.position ∧ e'.direction = e.direction)
      (fun _ => ⟨rfl, rfl⟩) s.enc (w := w)
      ⟨overflowEncoder_position s.cfg.timerPeriod s.cfg.stallMult _, overflowEncoder_direction s.cfg.timerPeriod s.cfg.stallMult _⟩
    exact ⟨otherBanks_set w _ _, otherBanks_set w _ _, hkeeps, rfl, rfl, rfl, rfl, rfl, rfl, rfl⟩
  | ticked =>
    rw [tickWheel_left_right]
    refine ⟨rfl, rfl, ⟨rfl, rfl, rfl, rfl⟩, fun w => ?_, rfl, rfl, rfl, rfl⟩
    cases w <;> exact ⟨rfl, rfl, rfl, rfl⟩
  | odoTicked hu | odoUpdated hu =>
    obtain ⟨-, henc, hspd, hkf, hpid, hduty, hill, -⟩ := odoUpdate_frame hu
    exact ⟨henc, hspd, hkf, hpid, hduty, hill⟩
  | setpoint w x =>
    exact ⟨otherBanks_set w _ _, bank_set_keeps keepsHistory_self s.pid ⟨rfl, rfl, rfl, rfl, rfl⟩, rfl, rfl, rfl, rfl, rfl, rfl, rfl,
      rfl⟩
  | setpoints v om =>
    rw [setSetpoint_left_right]
    refine ⟨fun w => ?_, rfl, rfl, rfl, rfl, rfl, rfl, rfl, rfl⟩
    cases w <;> exact ⟨rfl, rfl, rfl, rfl, rfl⟩
  | odoReset => exact ⟨rfl, rfl, rfl, rfl, rfl, rfl, rfl, rfl⟩
  | filtered w z =>
    exact ⟨otherBanks_set w _ _, keepsVariances_set s.kf w z, rfl, rfl, rfl, rfl, rfl, rfl, rfl, rfl⟩
  | controlled w m =>
    exact ⟨otherBanks_set w _ _, bank_set_keeps keepsSetpoint_self s.pid ⟨rfl, rfl, rfl, rfl⟩, rfl, rfl, rfl, rfl, rfl, rfl, rfl, rfl⟩

/-- Settles O37: every operation has an effect, and an effect keeps both frames. -/
theorem operationFrames : Obligations.OperationFrames := by
  unfold Obligations.OperationFrames
  intro i s
  obtain ⟨t, ht, heffect⟩ := exec_effect i s
  exact ⟨t, ht, heffect.frame, heffect.frameAll⟩

/-- R88: an illegal word accepted on port `p` is answered there, and decides nothing else. -/
theorem step_no_row {s u : State} {p : Port} {r : Request} (h0 : s.resetPort = false) (hh : s.hung = false)
    (ha : s.accept = some (p, r, u)) (hrows : ∀ m : Mnemonic, m.port = p → r.op &&& m.mask ≠ m.matchWord) :
    step s = .next (u.answerIllegal p) := by
  obtain ⟨e, he⟩ := decode_illegal hrows
  exact step_illegal h0 hh ha he

/-- Settles O6: an illegal head is answered on its port when it is the one accepted; the status of a legal answer is that of its
effect. -/
theorem statusCodes : Obligations.StatusCodes := by
  unfold Obligations.StatusCodes
  refine ⟨fun s r rest h0 hh => ⟨fun hrows he hc => ?cmdAlone, fun hrows he hc => ?evtAlone⟩, fun s re rc es cs h0 hh he hc => ?both,
    fun i s t r h hr => (effect_of_exec h).answersStatus hr⟩
  case cmdAlone => exact step_no_row h0 hh (accept_cmd he hc) hrows
  case evtAlone => exact step_no_row h0 hh (accept_evt he hc) hrows
  case both =>
    have haccept := accept_both he hc
    refine ⟨fun hevt => ⟨fun j hj => ?legalCmd, fun hcmd => ?bothIllegal⟩, fun hcmd i hi => ?legalEvt⟩
    case legalCmd => exact haccept.imp (step_no_row h0 hh · hevt) (step_legal h0 hh · hj)
    case bothIllegal => exact haccept.imp (step_no_row h0 hh · hevt) (step_no_row h0 hh · hcmd)
    case legalEvt => exact haccept.imp (step_legal h0 hh · hi) (step_no_row h0 hh · hcmd)

end Sys2Proof.Machine
end

section
/-! PROOF. What every step keeps (R21, R28 to R33, R68, R217, R222): the step inverted down to the effect of the operation it carries out,
one induction principle for invariants, and the statements that follow from the frames. -/

namespace Sys2Proof.Machine

/-- A step without a reset: nothing waits, or the head of one port leaves it and is illegal there or is carried out. -/
theorem step_effect {s t : State} (h0 : s.resetPort = false) (h : step s = .next t) :
    (s.evtPort = [] ∧ s.cmdPort = [] ∧ t = s.silent) ∨
    ∃ p r rest, s.waiting p = r :: rest ∧
      (t = (s.dropRequest p).answerIllegal p ∨ ∃ i, decode p r = .ok i ∧ Effect i (s.dropRequest p) t) := by
  rcases step_cases h with ⟨h1, -⟩ | ⟨-, -, hidle | ⟨p, r, rest, hw, ⟨-, -, ht⟩ | ⟨i, hd, hx⟩⟩⟩
  · simp [h0] at h1
  · exact .inl hidle
  · exact .inr ⟨p, r, rest, hw, .inl ht⟩
  · exact .inr ⟨p, r, rest, hw, .inr ⟨i, hd, effect_of_exec hx⟩⟩

/-- What holds after every reset, and is kept by answering, by taking a request and by every effect, is kept by every step. -/
theorem step_invariant {P : State → Prop} (hboot : ∀ read n k, P (State.boot read n k)) (hsilent : ∀ u, P u → P u.silent)
    (hreply : ∀ u r, P u → P (u.reply r)) (hdrop : ∀ u p, P u → P (u.dropRequest p))
    (heffect : ∀ i u v, Effect i u v → P u → P v) {s t : State} (hs : P s) (h : step s = .next t) : P t := by
  cases h0 : s.resetPort with
  | true =>
    cases (step_reset h0).symm.trans h
    exact hboot _ _ _
  | false => exact step_keeps h0 h hs hsilent hreply hdrop fun i u v hu hx => heffect i u v (effect_of_exec hx) hu

/-! The ports (R68 a, R217). -/

theorem answerIllegal_ports (s : State) (p : Port) :
    (s.answerIllegal p).evtPort = s.evtPort ∧ (s.answerIllegal p).cmdPort = s.cmdPort ∧
      (s.answerIllegal p).accepted = s.accepted := by
  cases p <;> exact ⟨rfl, rfl, rfl⟩

/-- What is left on the ports by a step that accepts a request of port `p`. -/
theorem ports_of_step {s t : State} (h0 : s.resetPort = false) (h : step s = .next t) :
    (s.evtPort = [] ∧ s.cmdPort = [] ∧ t.evtPort = [] ∧ t.cmdPort = []) ∨
    ∃ p, s.waiting p ≠ [] ∧ t.evtPort = (s.dropRequest p).evtPort ∧ t.cmdPort = (s.dropRequest p).cmdPort ∧
      t.accepted = s.accepted + 1 := by
  rcases step_effect h0 h with ⟨he, hc, rfl⟩ | ⟨p, r, rest, hw, ht⟩
  · exact .inl ⟨he, hc, he, hc⟩
  · refine .inr ⟨p, by simp [hw], ?_⟩
    rcases ht with rfl | ⟨i, -, heffect⟩
    · obtain ⟨he, hc, ha⟩ := answerIllegal_ports (s.dropRequest p) p
      exact ⟨he, hc, ha.trans (dropRequest_accepted s p)⟩
    · obtain ⟨-, -, -, he, hc, ha, -⟩ := heffect.frameAll
      exact ⟨he, hc, ha.trans (dropRequest_accepted s p)⟩

theorem dropRequest_ports (s : State) (p : Port) :
    ((s.dropRequest p).evtPort = s.evtPort ∧ (s.dropRequest p).cmdPort = s.cmdPort.tail) ∨
      ((s.dropRequest p).evtPort = s.evtPort.tail ∧ (s.dropRequest p).cmdPort = s.cmdPort) := by
  cases p with
  | evt => exact .inr ⟨rfl, rfl⟩
  | cmd => exact .inl ⟨rfl, rfl⟩

theorem dropRequest_length {s : State} {p : Port} (hw : s.waiting p ≠ []) :
    (s.dropRequest p).evtPort.length + (s.dropRequest p).cmdPort.length + 1 = s.evtPort.length + s.cmdPort.length := by
  have hpos := List.length_pos_of_ne_nil hw
  cases p <;> simp only [State.waiting, State.dropRequest, List.length_tail] at hpos ⊢ <;> omega

/-- Settles O9: the head of one port has left it, or nothing waited. -/
theorem portsKeepOrder : Obligations.PortsKeepOrder := by
  unfold Obligations.PortsKeepOrder
  intro s t h0 h
  rcases ports_of_step h0 h with ⟨he, hc, hte, htc⟩ | ⟨p, hw, hte, htc, hacc⟩
  · simp [he, hc, hte, htc]
  · rw [hte, htc]
    exact ⟨dropRequest_ports s p, fun _ => ⟨dropRequest_length hw, hacc⟩⟩

/-! Port isolation (R222). -/

/-- An event operation answers nothing and changes no setpoint. -/
theorem Effect.of_event {i : Instr} {s t : State} (h : Effect i s t) (hport : i.port = .evt) :
    t.response = none ∧ ∀ w : Wheel, (t.pid.get w).setpoint = (s.pid.get w).setpoint := by
  cases h with
  | dropped | captured | overflowed | hung => exact ⟨rfl, fun _ => rfl⟩
  | ticked =>
    rw [tickWheel_left_right]
    refine ⟨rfl, fun w => ?_⟩
    cases w <;> rfl
  | odoTicked hu =>
    obtain ⟨-, -, -, -, hpid, -⟩ := odoUpdate_frame hu
    exact ⟨rfl, fun w => by rw [silent_pid, hpid]⟩
  | answered hcmd => cases hcmd.symm.trans hport
  | setpoint | setpoints | odoReset | filtered | controlled | odoUpdated => cases hport

/-- A command operation emits nothing and changes no encoder, no sample and no duty. -/
theorem Effect.of_command {i : Instr} {s t : State} (h : Effect i s t) (hport : i.port = .cmd) :
    t.emitted = [] ∧ t.enc = s.enc ∧ t.spd = s.spd ∧ t.duty = s.duty := by
  cases h with
  | answered | hung | setpoint | setpoints | odoReset | filtered | controlled => exact ⟨rfl, rfl, rfl, rfl⟩
  | odoUpdated hu =>
    obtain ⟨-, henc, hspd, -, -, hduty, -⟩ := odoUpdate_frame hu
    exact ⟨rfl, henc, hspd, hduty⟩
  | dropped hevt => cases hevt.symm.trans hport
  | captured | overflowed | ticked | odoTicked => cases hport

/-- Settles O39: with one port empty the head of the other is the one taken. -/
theorem portIsolation : Obligations.PortIsolation := by
  unfold Obligations.PortIsolation
  intro s t h0 h
  rcases step_effect h0 h with ⟨-, -, rfl⟩ | ⟨p, r, rest, hw, ht⟩
  · exact ⟨fun _ => ⟨rfl, fun _ => rfl⟩, fun _ => ⟨rfl, rfl, rfl, rfl⟩⟩
  · constructor
    · intro hc
      have hp : p = .evt := by
        cases p with
        | evt => rfl
        | cmd => cases hc.symm.trans hw
      subst hp
      rcases ht with rfl | ⟨i, hd, heffect⟩
      · exact ⟨rfl, fun _ => rfl⟩
      · exact heffect.of_event (decode_port hd)
    · intro he
      have hp : p = .cmd := by
        cases p with
        | cmd => rfl
        | evt => cases he.symm.trans hw
      subst hp
      rcases ht with rfl | ⟨i, hd, heffect⟩
      · exact ⟨rfl, rfl, rfl, rfl⟩
      · exact heffect.of_command (decode_port hd)

/-! The copies of the configuration (R28, R29, R33). -/

/-- The configured words of one wheel's filter and controller. -/
def State.configured (s : State) (w : Wheel) : F32 × F32 × F32 × F32 × F32 :=
  ((s.kf.get w).r, (s.kf.get w).q, (s.pid.get w).kP, (s.pid.get w).kI, (s.pid.get w).kD)

theorem Effect.configured {i : Instr} {s t : State} (h : Effect i s t) (w : Wheel) : t.configured w = s.configured w := by
  cases h with
  | dropped | answered | hung | captured | overflowed | odoReset => rfl
  | ticked =>
    rw [tickWheel_left_right]
    cases w <;> rfl
  | setpoints =>
    rw [setSetpoint_left_right]
    cases w <;> rfl
  | setpoint v | filtered v | controlled v => cases v <;> cases w <;> rfl
  | odoTicked hu | odoUpdated hu =>
    obtain ⟨_, -, rfl⟩ := odoUpdate_some hu
    rfl

theorem configHeld_iff {s : State} :
    ConfigHeld s ↔
      (∀ w, s.configured w = (s.cfg.r.get w, s.cfg.q.get w, s.cfg.kp.get w, s.cfg.ki.get w, s.cfg.kd.get w)) ∧
        s.geo = Geometry.ofCfg s.cfg := by
  rw [geometry_ofCfg]
  simp only [ConfigHeld, State.configured, Prod.mk.injEq]
  constructor
  · rintro ⟨hw, hr, hwidth, hspeed⟩
    exact ⟨hw, by cases hg : s.geo; simp_all⟩
  · rintro ⟨hw, hg⟩
    exact ⟨hw, by rw [hg], by rw [hg], by rw [hg]⟩

theorem configHeld_boot (read : Nat → U32) (n k : Nat) : ConfigHeld (State.boot read n k) := by
  refine configHeld_iff.2 ⟨fun w => ?_, rfl⟩
  rw [State.configured, boot_kf, boot_pid, boot_cfg, kalmanAtReset_get, pidAtReset_get]

/-- Settles O47: the state after reset is a boot state. -/
theorem configHeldAtReset : Obligations.ConfigHeldAtReset := configHeld_boot _ _ _

theorem Effect.configHeld {i : Instr} {s t : State} (h : Effect i s t) (hs : ConfigHeld s) : ConfigHeld t := by
  obtain ⟨hcfg, hgeo, -⟩ := h.frameAll
  obtain ⟨hwheels, hcopy⟩ := configHeld_iff.1 hs
  refine configHeld_iff.2 ⟨fun w => ?_, ?_⟩
  · rw [h.configured, hcfg, hwheels]
  · rw [hgeo, hcfg, hcopy]

/-- Settles O46: every effect keeps the configured words, and a reset loads them again. -/
theorem configHeldKept : Obligations.ConfigHeldKept := by
  unfold Obligations.ConfigHeldKept
  intro s t
  exact step_invariant configHeld_boot (fun _ hu => hu) (fun _ _ hu => hu) (fun u p hu => by cases p <;> exact hu)
    fun i u v hx hu => hx.configHeld hu

/-! The availability of the odometry (R32, R185). -/

theorem odoUpdate_available {s u : State} {p0 p1 dt : F32} (h : s.odoUpdate p0 p1 dt = some u) : u.odo.available = true := by
  obtain ⟨_, -, rfl⟩ := odoUpdate_some h
  rfl

theorem Effect.available {i : Instr} {s t : State} (h : Effect i s t) (hs : s.odo.available = true) : t.odo.available = true := by
  cases h with
  | odoTicked hu | odoUpdated hu => exact (odoUpdate_available hu :)
  | dropped | answered | hung | captured | overflowed | ticked | setpoint | setpoints | odoReset | filtered | controlled => exact hs

/-- Settles O48: no effect clears the flag, and the update that does not hang sets it. -/
theorem availabilityStays : Obligations.AvailabilityStays := by
  unfold Obligations.AvailabilityStays
  refine ⟨fun s t h0 hs h => ?stays, fun p0 p1 dt s t h hhung => ?sets⟩
  case stays =>
    exact step_keeps (P := fun u => u.odo.available = true) h0 h hs (fun _ hu => hu) (fun _ _ hu => hu)
      (fun u p hu => by rwa [dropRequest_odo]) fun i u v hu hx => (effect_of_exec hx).available hu
  case sets =>
    cases effect_of_exec h with
    | odoUpdated hu => exact (odoUpdate_available hu :)
    | hung => cases hhung
    | answered _ hwrites => cases hwrites
    | dropped hport => cases hport

end Sys2Proof.Machine
end

section
/-! PROOF. The independence of the wheel banks (R21): two states that agree on one wheel still agree on it after the same effect. -/

namespace Sys2Proof.Machine

/-- Writing to bank `v` of two banks that agree on `w` leaves them in agreement, when the same is written to `w` itself. -/
theorem bank_get_set_congr {α : Type} {b b' : Bank α} {v w : Wheel} {x x' : α} (hb : b'.get w = b.get w) (hx : v = w → x' = x) :
    (b'.set v x').get w = (b.set v x).get w := by
  rcases eq_or_ne w v with rfl | hne
  · rw [bank_get_set, bank_get_set, hx rfl]
  · rw [bank_get_set_of_ne _ _ _ _ hne, bank_get_set_of_ne _ _ _ _ hne, hb]

section agree

variable {w : Wheel} {s t : State}

theorem AgreeOnWheel.capture (h : AgreeOnWheel w s t) (v : Wheel) (d : Sign) (cnt : U32) :
    AgreeOnWheel w (s.capture v d cnt) (t.capture v d cnt) := by
  obtain ⟨henc, hspd, hkf, hpid, hduty, hill, hcfg, hgeo, hacc⟩ := h
  refine ⟨bank_get_set_congr henc ?_, bank_get_set_congr hspd ?_, hkf, hpid, hduty, bank_get_set_congr hill ?_, hcfg, hgeo, hacc⟩ <;>
    rintro rfl
  · rw [henc]
  · rw [henc, hspd, captureSpeed, captureSpeed, henc, hill, hcfg, hgeo, hacc]
  · rw [henc, hcfg]

theorem AgreeOnWheel.overflow (h : AgreeOnWheel w s t) (v : Wheel) : AgreeOnWheel w (s.overflow v) (t.overflow v) := by
  obtain ⟨henc, hspd, hkf, hpid, hduty, hill, hcfg, hgeo, hacc⟩ := h
  refine ⟨bank_get_set_congr henc ?_, bank_get_set_congr hspd ?_, hkf, hpid, hduty, hill, hcfg, hgeo, hacc⟩ <;> rintro rfl
  · rw [henc, hcfg]
  · rw [henc, hspd, hcfg]

theorem AgreeOnWheel.filterStep (h : AgreeOnWheel w s t) (v : Wheel) (z : F32) :
    AgreeOnWheel w (s.filterStep v z) (t.filterStep v z) := by
  obtain ⟨henc, hspd, hkf, hpid, hduty, hill, hcfg, hgeo, hacc⟩ := h
  refine ⟨henc, hspd, bank_get_set_congr hkf ?_, hpid, hduty, hill, hcfg, hgeo, hacc⟩
  rintro rfl
  rw [hkf]

theorem AgreeOnWheel.controlStep (h : AgreeOnWheel w s t) (v : Wheel) (m : F32) :
    AgreeOnWheel w (s.controlStep v m) (t.controlStep v m) := by
  obtain ⟨henc, hspd, hkf, hpid, hduty, hill, hcfg, hgeo, hacc⟩ := h
  refine ⟨henc, hspd, hkf, bank_get_set_congr hpid ?_, hduty, hill, hcfg, hgeo, hacc⟩
  rintro rfl
  rw [hpid, hcfg]

theorem AgreeOnWheel.setSetpoint (h : AgreeOnWheel w s t) (v : Wheel) (x : F32) :
    AgreeOnWheel w (s.setSetpoint v x) (t.setSetpoint v x) := by
  obtain ⟨henc, hspd, hkf, hpid, hduty, hill, hcfg, hgeo, hacc⟩ := h
  refine ⟨henc, hspd, hkf, bank_get_set_congr hpid ?_, hduty, hill, hcfg, hgeo, hacc⟩
  rintro rfl
  rw [hpid]

/-- R200: the tick's work for a wheel reads that wheel's banks and the configuration alone. -/
theorem AgreeOnWheel.tickWheel (h : AgreeOnWheel w s t) (v : Wheel) : AgreeOnWheel w (s.tickWheel v) (t.tickWheel v) := by
  obtain ⟨henc, hspd, hkf, hpid, hduty, hill, hcfg, hgeo, hacc⟩ := h
  have hestimate : v = w → tickEstimate t v = tickEstimate s v := by
    rintro rfl
    rw [tickEstimate, hkf, hspd]
  rw [tickWheel_eq, tickWheel_eq]
  refine ⟨henc, hspd, bank_get_set_congr hkf ?_, bank_get_set_congr hpid ?_, bank_get_set_congr hduty ?_, hill, hcfg, hgeo, hacc⟩ <;>
    intro hv
  · subst hv
    rw [hkf, hspd]
  · rw [hestimate hv, hcfg, hv, hpid]
  · rw [tickDuty, hestimate hv, hcfg, hv, hpid]

/-- An odometry update reads nothing else of a wheel than its position and writes none of its banks. -/
theorem AgreeOnWheel.odoUpdate {u : State} {p0 p1 dt : F32} (hu : s.odoUpdate p0 p1 dt = some u) : AgreeOnWheel w s u := by
  obtain ⟨_, -, rfl⟩ := odoUpdate_some hu
  exact ⟨rfl, rfl, rfl, rfl, rfl, rfl, rfl, rfl, rfl⟩

theorem AgreeOnWheel.symm (h : AgreeOnWheel w s t) : AgreeOnWheel w t s := by
  obtain ⟨henc, hspd, hkf, hpid, hduty, hill, hcfg, hgeo, hacc⟩ := h
  exact ⟨henc.symm, hspd.symm, hkf.symm, hpid.symm, hduty.symm, hill.symm, hcfg.symm, hgeo.symm, hacc.symm⟩

theorem AgreeOnWheel.trans {u : State} (h : AgreeOnWheel w s t) (h' : AgreeOnWheel w t u) : AgreeOnWheel w s u := by
  obtain ⟨henc, hspd, hkf, hpid, hduty, hill, hcfg, hgeo, hacc⟩ := h
  obtain ⟨henc', hspd', hkf', hpid', hduty', hill', hcfg', hgeo', hacc'⟩ := h'
  exact ⟨henc'.trans henc, hspd'.trans hspd, hkf'.trans hkf, hpid'.trans hpid, hduty'.trans hduty, hill'.trans hill, hcfg'.trans hcfg,
    hgeo'.trans hgeo, hacc'.trans hacc⟩

theorem AgreeOnWheel.silent (h : AgreeOnWheel w s t) : AgreeOnWheel w s.silent t.silent := h

theorem AgreeOnWheel.reply (h : AgreeOnWheel w s t) (r r' : Response) : AgreeOnWheel w (s.reply r) (t.reply r') := h

end agree

/-- The operations that write no element of either wheel: those that write nothing, and those of the odometry. -/
def KeepsWheels (i : Instr) : Prop := WritesNothing i ∨ i = .otick ∨ i = .rstodo ∨ ∃ p0 p1 dt, i = .odoupd p0 p1 dt

theorem Effect.keepsWheels {i : Instr} {s t : State} (h : Effect i s t) (hi : KeepsWheels i) (w : Wheel) : AgreeOnWheel w s t := by
  cases h with
  | dropped | answered | hung | odoReset => exact ⟨rfl, rfl, rfl, rfl, rfl, rfl, rfl, rfl, rfl⟩
  | odoTicked hu | odoUpdated hu => exact (AgreeOnWheel.odoUpdate hu :)
  | captured | overflowed | ticked | setpoint | setpoints | filtered | controlled => simp [KeepsWheels, WritesNothing] at hi

/-- R21: the same operation carried out in two states that agree on a wheel leaves them in agreement on it. -/
theorem AgreeOnWheel.exec {w : Wheel} {i : Instr} {s t s' t' : State} (h : AgreeOnWheel w s t) (hs : exec i s = .next s')
    (ht : exec i t = .next t') : AgreeOnWheel w s' t' := by
  by_cases hi : KeepsWheels i
  · exact (((effect_of_exec hs).keepsWheels hi w).symm.trans h).trans ((effect_of_exec ht).keepsWheels hi w)
  cases effect_of_exec hs with
  | dropped _ hidle | answered _ hidle => exact absurd (.inl hidle) hi
  | hung hodo => exact absurd (hodo.elim (fun h => .inr (.inl h)) fun h => .inr (.inr (.inr h))) hi
  | odoReset => exact absurd (.inr (.inr (.inl rfl))) hi
  | odoTicked => exact absurd (.inr (.inl rfl)) hi
  | odoUpdated => exact absurd (.inr (.inr (.inr ⟨_, _, _, rfl⟩))) hi
  | captured v ch edge pair cnt =>
    cases (exec_cap_wheel v t ch edge pair cnt).symm.trans ht
    exact (h.capture v _ cnt).silent
  | overflowed v =>
    cases (exec_ovf_wheel v t).symm.trans ht
    exact (h.overflow v).silent
  | ticked =>
    cases (exec_tick t).symm.trans ht
    exact (h.silent.tickWheel .left).tickWheel .right
  | setpoint v x =>
    cases (exec_setsp_wheel v t x).symm.trans ht
    exact (h.setSetpoint v x).reply _ _
  | setpoints v om =>
    have hagree := h
    obtain ⟨-, -, -, -, -, -, -, hgeo, -⟩ := hagree
    cases (exec_setvel t v om).symm.trans ht
    rw [hgeo]
    exact ((h.setSetpoint .left _).setSetpoint .right _).reply _ _
  | filtered v z =>
    cases (exec_kfupd_wheel v t z).symm.trans ht
    exact (h.filterStep v z).reply _ _
  | controlled v m =>
    cases (exec_pidcmp_wheel v t m).symm.trans ht
    exact (h.controlStep v m).reply _ _

/-- Settles O38: each write is a function of the wheel's own banks, the configuration and the operands. -/
theorem wheelIndependence : Obligations.WheelIndependence := by
  unfold Obligations.WheelIndependence
  intro w i s t s' t' h hs ht
  exact h.exec hs ht

end Sys2Proof.Machine
end

section
/-! PROOF. The interval arithmetic (R112, R119, R120, R247): `CAP` written out, the two captures that restart a sample, and the bounds that
keep every sum of `OVF` and `CAP` from wrapping. -/

namespace Sys2Proof.Machine

/-- R83, R89: a word of format Q is decoded to its row's operation, whatever the fields and the operand words. -/
theorem decode_opWordQ (wid : U8) (ch edge pair : Bool) (cnt b c : U32) :
    decode .evt { op := opWordQ 0x01#8 wid ch edge pair, a := cnt, b := b, c := c } = .ok (.cap wid ch edge pair cnt) := by
  have hdecode := decode_of_match (r := { op := opWordQ 0x01#8 wid ch edge pair, a := cnt, b := b, c := c }) (m := .CAP)
    (Laws.opWordQ_row wid ch edge pair)
  rwa [assemble, widField_opWordQ, chField_opWordQ, edgeField_opWordQ, pairField_opWordQ] at hdecode

theorem ofInt_sign (d : Sign) : BitVec.ofInt 64 d.toInt = if d = .pos then 1#64 else -1#64 := by cases d <;> rfl

/-- The guard of `CAP` (R112) as a proposition. -/
theorem completesInterval_iff {e : Encoder} {cnt : U32} :
    completesInterval e cnt = true ↔ e.intervalValid = true ∧ elapsed e cnt ≠ 0#32 := by
  rw [completesInterval, Bool.and_eq_true, bne_iff_ne]

theorem captureSpeed_wellTimed {s : State} {w : Wheel} {cnt : U32}
    (htimed : captureWellTimed s.cfg.timerPeriod (s.enc.get w).lastCaptureCounter cnt = true) (hstart : s.illTimed.get w = false)
    (d : Sign) :
    captureSpeed s w d cnt = fmul32 (fdiv32 s.geo.kSpeed (u2f32 (elapsed (s.enc.get w) cnt))) (s2f32 d) := by
  rw [captureSpeed, htimed, hstart]
  rfl

/-- Settles O13: the speed written is `captureSpeed`, which is the estimator's when both captures are well timed. -/
theorem capResult : Obligations.CapResult := by
  unfold Obligations.CapResult
  refine ⟨decode_opWordQ, fun w ch edge pair cnt s => ?wheel, fun wid ch edge pair cnt s h0 h1 => ?outOfRange⟩
  case wheel =>
    refine ⟨captureSpeed s w (direction ch edge pair) cnt, fun htimed hstart => ?speed, ?writes⟩
    case speed => rw [captureSpeed_wellTimed htimed hstart, direction_eq_sgn_xor, elapsed, sgn]
    case writes =>
      simp only [exec_cap_wheel, State.capture, captureEncoder, captureSample, completesInterval_iff, ofInt_sign,
        direction_eq_sgn_xor, sgn, elapsed]
      rfl
  case outOfRange => exact exec_cap_out_of_range (wheelOf_out_of_range h0 h1) ch edge pair cnt s

/-- R120: the capture that starts an interval leaves the sample as it was. -/
theorem capture_spd_of_no_interval {s : State} {w : Wheel} (h : (s.enc.get w).intervalValid = false) (d : Sign) (cnt : U32) :
    (s.capture w d cnt).spd = s.spd := by
  have hguard : completesInterval (s.enc.get w) cnt = false := by rw [completesInterval, h, Bool.false_and]
  rw [capture_spd, hguard, captureSample, if_neg Bool.false_ne_true, bank_set_get]

/-- R112: a capture always moves the position. -/
theorem capture_position_ne (s : State) (w : Wheel) (d : Sign) (cnt : U32) :
    ((s.capture w d cnt).enc.get w).position ≠ (s.enc.get w).position := by
  rw [capture_enc, bank_get_set, captureEncoder_position, ne_eq, add_eq_left]
  cases d <;> decide

/-- Settles O36: the first capture starts the interval that the second, well timed, closes after `c1 - c0` ticks. -/
theorem restartTakesTwoCaptures : Obligations.RestartTakesTwoCaptures := by
  unfold Obligations.RestartTakesTwoCaptures
  intro w ch edge pair ch' edge' pair' c0 c1 s hvalid hlast hlt h1
  refine ⟨_, _, exec_cap_wheel w s ch edge pair c0, capture_spd_of_no_interval hvalid _ c0, capture_position_ne s w _ c0,
    exec_cap_wheel w _ ch' edge' pair' c1, ?_⟩
  have hfirst : captureWellTimed s.cfg.timerPeriod (s.enc.get w).lastCaptureCounter c0 = true :=
    captureWellTimed_iff.2 ⟨by omega, hlast⟩
  have hsecond : captureWellTimed s.cfg.timerPeriod c0 c1 = true := captureWellTimed_iff.2 ⟨h1, hlt.le⟩
  generalize hu : (s.capture w (direction ch edge pair) c0).silent = u
  have henc : u.enc.get w = captureEncoder (s.enc.get w) (direction ch edge pair) c0 := by
    rw [← hu, silent_enc, capture_enc, bank_get_set]
  have hcfg : u.cfg = s.cfg := by rw [← hu, silent_cfg, capture_cfg]
  have hgeo : u.geo = s.geo := by rw [← hu, silent_geo, capture_geo]
  have hstart : u.illTimed.get w = false := by
    rw [← hu, silent_illTimed, capture_illTimed, bank_get_set, hfirst, Bool.not_true]
  have helapsed : elapsed (u.enc.get w) c1 = c1 - c0 := by
    rw [elapsed, henc, captureEncoder_intervalAccumulator, captureEncoder_lastCaptureCounter, BitVec.zero_add]
  have hne : c1 - c0 ≠ 0#32 := by bv_omega
  rw [silent_spd, capture_sample (by rw [henc, captureEncoder_intervalValid]) (by rwa [helapsed])
    (by rwa [henc, hcfg, captureEncoder_lastCaptureCounter]) hstart, helapsed, hgeo]

section bounds

variable {c : Cfg} {e : Encoder} (hc : IntervalConfig c) (hacc : e.intervalAccumulator.toNat ≤ c.stallMult.toNat * c.timerPeriod.toNat)
  (hlast : e.lastCaptureCounter.toNat < c.timerPeriod.toNat)
include hc hacc hlast

/-- R119: the sum of an overflow is exact and stays within its bound. -/
theorem overflowSum_exact :
    (overflowSum c.timerPeriod e).toNat = e.intervalAccumulator.toNat + (c.timerPeriod.toNat - e.lastCaptureCounter.toNat) ∧
      e.intervalAccumulator.toNat + (c.timerPeriod.toNat - e.lastCaptureCounter.toNat) ≤
        (c.stallMult.toNat + 1) * c.timerPeriod.toNat := by
  obtain ⟨-, -, hfit⟩ := hc
  rw [Nat.succ_mul] at hfit ⊢
  exact ⟨overflowSum_toNat hlast.le (by omega), by omega⟩

/-- R119: the interval of a well-timed capture is exact and stays within its bound. -/
theorem elapsed_exact {cnt : U32} (hcnt : cnt.toNat < c.timerPeriod.toNat) (hle : e.lastCaptureCounter.toNat ≤ cnt.toNat) :
    (elapsed e cnt).toNat = e.intervalAccumulator.toNat + (cnt.toNat - e.lastCaptureCounter.toNat) ∧
      e.intervalAccumulator.toNat + (cnt.toNat - e.lastCaptureCounter.toNat) ≤
        (c.stallMult.toNat + 1) * c.timerPeriod.toNat - 1 := by
  obtain ⟨-, -, hfit⟩ := hc
  rw [Nat.succ_mul] at hfit ⊢
  exact ⟨elapsed_toNat hle (by omega), by omega⟩

/-- R113, R119: an overflow leaves the accumulator within `STALL_MULT` periods, rolled back by one when it declares a stall. -/
theorem overflowEncoder_accumulator_le :
    (overflowEncoder c.timerPeriod c.stallMult e).intervalAccumulator.toNat ≤ c.stallMult.toNat * c.timerPeriod.toNat := by
  obtain ⟨hsum, hle⟩ := overflowSum_exact hc hacc hlast
  rw [← hsum, Nat.succ_mul] at hle
  rcases Nat.lt_or_ge (c.stallMult.toNat * c.timerPeriod.toNat) (overflowSum c.timerPeriod e).toNat with hstall | hno
  · obtain ⟨-, hmult, -⟩ := hc
    have hone := Nat.mul_le_mul_right c.timerPeriod.toNat hmult
    rw [(overflowEncoder_stall hstall).2, BitVec.toNat_sub_of_le (BitVec.le_def.2 (by omega))]
    omega
  · rw [(overflowEncoder_no_stall hno).2]
    exact hno

end bounds

/-- Settles O33: both sums are exact, by the bounds on the accumulator and on the last counter value. -/
theorem intervalNoWrap : Obligations.IntervalNoWrap := by
  unfold Obligations.IntervalNoWrap
  rintro w s hc ⟨hacc, hlast⟩
  exact ⟨overflowSum_exact hc hacc hlast, fun cnt hcnt hle => elapsed_exact hc hacc hlast hcnt hle⟩

theorem EncoderInRange.overflow {s : State} {w : Wheel} (hc : IntervalConfig s.cfg) (h : EncoderInRange s w) (v : Wheel) :
    EncoderInRange (s.overflow v) w := by
  obtain ⟨hacc, hlast⟩ := h
  rw [EncoderInRange, overflow_enc, overflow_cfg]
  rcases eq_or_ne w v with rfl | hne
  · rw [bank_get_set, overflowEncoder_lastCaptureCounter]
    exact ⟨overflowEncoder_accumulator_le hc hacc hlast, Nat.zero_lt_of_lt hlast⟩
  · rw [bank_get_set_of_ne _ _ _ _ hne]
    exact ⟨hacc, hlast⟩

theorem EncoderInRange.capture {s : State} {w v : Wheel} {cnt : U32} (h : EncoderInRange s w)
    (hcnt : cnt.toNat < s.cfg.timerPeriod.toNat) (d : Sign) : EncoderInRange (s.capture v d cnt) w := by
  rw [EncoderInRange, capture_enc, capture_cfg]
  rcases eq_or_ne w v with rfl | hne
  · rw [bank_get_set, captureEncoder_intervalAccumulator, captureEncoder_lastCaptureCounter]
    exact ⟨Nat.zero_le _, hcnt⟩
  · rw [bank_get_set_of_ne _ _ _ _ hne]
    exact h

theorem EncoderInRange.dropRequest {s : State} {w : Wheel} (h : EncoderInRange s w) (p : Port) :
    EncoderInRange (s.dropRequest p) w := by
  rwa [EncoderInRange, dropRequest_enc, dropRequest_cfg]

/-- Every operation keeps the bounds of both encoders, a capture if its counter value is below `TIMER_PERIOD`. -/
theorem Effect.encoderInRange {i : Instr} {s t : State} (h : Effect i s t) (hc : IntervalConfig s.cfg)
    (hcap : ∀ wid ch edge pair cnt, i = .cap wid ch edge pair cnt → cnt.toNat < s.cfg.timerPeriod.toNat) {w : Wheel}
    (hs : EncoderInRange s w) : EncoderInRange t w := by
  cases h with
  | captured v ch edge pair cnt => exact (hs.capture (hcap _ ch edge pair cnt rfl) _ :)
  | overflowed v => exact (hs.overflow hc v :)
  | odoTicked hu | odoUpdated hu =>
    obtain ⟨_, -, rfl⟩ := odoUpdate_some hu
    exact hs
  | dropped | answered | hung | ticked | setpoint | setpoints | odoReset | filtered | controlled => exact hs

/-- The requests left on the event port carry the counter values they carried before. -/
theorem CapturesInRange.of_suffix {s t : State} (h : CapturesInRange s) (hevt : ∀ r ∈ t.evtPort, r ∈ s.evtPort)
    (hcfg : t.cfg = s.cfg) : CapturesInRange t := by
  intro r hr wid ch edge pair cnt hd
  rw [hcfg]
  exact h r (hevt r hr) wid ch edge pair cnt hd

theorem evtPort_dropRequest_subset (s : State) (p : Port) : ∀ r ∈ (s.dropRequest p).evtPort, r ∈ s.evtPort := by
  cases p with
  | evt => exact fun r hr => List.mem_of_mem_tail hr
  | cmd => exact fun r hr => hr

/-- Settles O34: the request accepted was waiting, so a capture carried out carries a counter value below `TIMER_PERIOD`. -/
theorem intervalsInRangeKept : Obligations.IntervalsInRangeKept := by
  unfold Obligations.IntervalsInRangeKept
  rintro s t ⟨h0, hc, hcaptures, hencoders⟩ h
  rcases step_effect h0 h with ⟨-, -, rfl⟩ | ⟨p, r, rest, hw, ht⟩
  · exact ⟨h0, hc, hcaptures, hencoders⟩
  have hsubset := evtPort_dropRequest_subset s p
  rcases ht with rfl | ⟨i, hd, heffect⟩
  · cases p with
    | evt => exact ⟨h0, hc, hcaptures.of_suffix hsubset rfl, hencoders⟩
    | cmd => exact ⟨h0, hc, hcaptures, hencoders⟩
  · obtain ⟨hcfg, -, hreset, hevt, -⟩ := heffect.frameAll
    rw [dropRequest_cfg] at hcfg
    rw [dropRequest_resetPort] at hreset
    refine ⟨hreset.trans h0, hcfg ▸ hc, hcaptures.of_suffix (hevt ▸ hsubset) hcfg, fun w => ?_⟩
    refine heffect.encoderInRange (by rwa [dropRequest_cfg]) ?_ ((hencoders w).dropRequest p)
    rintro wid ch edge pair cnt rfl
    obtain rfl : Port.evt = p := decode_port hd
    have hmem : r ∈ s.waiting .evt := hw ▸ List.mem_cons_self
    exact hcaptures r hmem wid ch edge pair cnt hd

/-- Settles O35: at reset both encoders count nothing. -/
theorem intervalsInRangeAtReset : Obligations.IntervalsInRangeAtReset := by
  unfold Obligations.IntervalsInRangeAtReset
  intro read n k hc
  refine ⟨rfl, hc, fun r hr => absurd hr List.not_mem_nil, fun w => ?_⟩
  rw [EncoderInRange, boot_enc, bank_both_get, Encoder.atReset]
  exact ⟨Nat.zero_le _, hc.1⟩

end Sys2Proof.Machine
end

section
/-! PROOF. The invariants of the controller, the actuator and the heading (R29 to R31, R154, R155, R183): what a clamp leaves is in its
bounds or a NaN, and what the normalisation leaves is in its interval or a NaN. -/

namespace Sys2Proof.Machine

/-- A word that is a NaN or lies between two words, in the order of the comparisons. -/
def NaNOrWithin (lo hi x : F32) : Prop := isNaN32 x = true ∨ (fle32 lo x = true ∧ fle32 x hi = true)

theorem fle32_self {x : F32} (h : isNaN32 x = false) : fle32 x x = true := fle32_iff.2 ⟨h, h, le_refl _⟩

theorem fle32_not_nan {x y : F32} (h : fle32 x y = true) : isNaN32 x = false ∧ isNaN32 y = false := by
  obtain ⟨hx, hy, -⟩ := fle32_iff.1 h
  exact ⟨hx, hy⟩

/-- R12: the clamp under `B32`, with bounds in order. -/
theorem clampF_within {lo hi : F32} (h : fle32 lo hi = true) (v : F32) : NaNOrWithin lo hi (clampF b32 v lo hi) := by
  obtain ⟨hlo, hhi⟩ := fle32_not_nan h
  rcases clampF_cases b32 v lo hi with ⟨-, hv⟩ | ⟨-, -, hv⟩ | ⟨hgt, hlt, hv⟩ <;> rw [hv]
  · exact .inr ⟨h, fle32_self hhi⟩
  · exact .inr ⟨fle32_self hlo, h⟩
  · cases hnan : isNaN32 v with
    | true => exact .inl hnan
    | false => exact .inr ⟨fle32_of_not_flt hnan hlo hlt, fle32_of_not_fgt hnan hhi hgt⟩

/-! The duties (R30, R154). -/

theorem tickDuty_within (s : State) (w : Wheel) : NaNOrWithin negOne32 one32 (tickDuty s w) :=
  clampF_within (by decide) _

theorem dutyBounded_iff {s : State} : DutyBounded s ↔ ∀ w, NaNOrWithin negOne32 one32 (s.duty.get w) := Iff.rfl

/-- Only the tick writes a duty, and it writes both, saturated. -/
theorem Effect.dutyBounded {i : Instr} {s t : State} (h : Effect i s t) (hs : DutyBounded s) : DutyBounded t := by
  cases h with
  | ticked =>
    rw [dutyBounded_iff, tickWheel_left_right]
    intro w
    cases w <;> exact tickDuty_within _ _
  | odoTicked hu | odoUpdated hu =>
    obtain ⟨_, -, rfl⟩ := odoUpdate_some hu
    exact hs
  | dropped | answered | hung | captured | overflowed | setpoint | setpoints | odoReset | filtered | controlled => exact hs

theorem dutyBounded_boot (read : Nat → U32) (n k : Nat) : DutyBounded (State.boot read n k) := by
  rw [dutyBounded_iff, boot_duty]
  intro w
  rw [bank_both_get, b32_zero]
  exact .inr (by decide)

/-- Settles O43: the state after reset is a boot state. -/
theorem dutyBoundedAtReset : Obligations.DutyBoundedAtReset := dutyBounded_boot _ _ _

/-- Settles O42: the tick saturates what it writes, and no other effect writes a duty. -/
theorem dutyBoundedKept : Obligations.DutyBoundedKept := by
  unfold Obligations.DutyBoundedKept
  intro s t
  exact step_invariant dutyBounded_boot (fun _ hu => hu) (fun _ _ hu => hu) (fun u p hu => by rwa [DutyBounded, dropRequest_duty])
    fun i u v hx hu => hx.dutyBounded hu

/-! The integrals (R29, R155). -/

theorem integralBounded_iff {s : State} :
    IntegralBounded s ↔ (fle32 zero32 s.cfg.maxSumError = true →
      ∀ w, NaNOrWithin (fneg32 s.cfg.maxSumError) s.cfg.maxSumError (s.pid.get w).integral) := Iff.rfl

/-- A bound that is not negative lies above its opposite, with zero between them. -/
theorem fle32_fneg_of_nonneg {x : F32} (h : fle32 zero32 x = true) : fle32 (fneg32 x) zero32 = true := by
  obtain ⟨-, hx, hle⟩ := fle32_iff.1 h
  rw [show key32 zero32 = 0 by decide] at hle
  refine fle32_iff.2 ⟨by rwa [isNaN32_fneg], by decide, ?_⟩
  rw [key32_fneg, show key32 zero32 = 0 by decide]
  omega

theorem fle32_trans {x y z : F32} (hxy : fle32 x y = true) (hyz : fle32 y z = true) : fle32 x z = true := by
  obtain ⟨hx, -, hle⟩ := fle32_iff.1 hxy
  obtain ⟨-, hz, hle'⟩ := fle32_iff.1 hyz
  exact fle32_iff.2 ⟨hx, hz, hle.trans hle'⟩

theorem pidIntegral_within {top : F32} (h : fle32 zero32 top = true) (c : Pid F32) (m : F32) :
    NaNOrWithin (fneg32 top) top (pidIntegral b32 top c m) :=
  clampF_within (fle32_trans (fle32_fneg_of_nonneg h) h) _

/-- Every write to a controller clamps its integral or keeps it. -/
theorem Effect.integralBounded {i : Instr} {s t : State} (h : Effect i s t) (hs : IntegralBounded s) : IntegralBounded t := by
  obtain ⟨hcfg, -⟩ := h.frameAll
  refine integralBounded_iff.2 fun hmax v => ?_
  rw [hcfg] at hmax ⊢
  have hold := integralBounded_iff.1 hs hmax
  have hset (w : Wheel) {x : Pid F32} (hx : NaNOrWithin (fneg32 s.cfg.maxSumError) s.cfg.maxSumError x.integral) :
      NaNOrWithin (fneg32 s.cfg.maxSumError) s.cfg.maxSumError ((s.pid.set w x).get v).integral := by
    rcases eq_or_ne v w with rfl | hne
    · rwa [bank_get_set]
    · rw [bank_get_set_of_ne _ _ _ _ hne]
      exact hold v
  cases h with
  | ticked =>
    rw [tickWheel_left_right]
    cases v <;> exact pidIntegral_within hmax _ _
  | controlled w m => exact hset w (pidIntegral_within hmax _ _)
  | setpoint w x => exact hset w (hold w)
  | setpoints =>
    rw [setSetpoint_left_right]
    cases v
    · exact hold .left
    · exact hold .right
  | odoTicked hu | odoUpdated hu =>
    obtain ⟨_, -, rfl⟩ := odoUpdate_some hu
    exact hold v
  | dropped | answered | hung | captured | overflowed | odoReset | filtered => exact hold v

theorem integralBounded_boot (read : Nat → U32) (n k : Nat) : IntegralBounded (State.boot read n k) := by
  refine integralBounded_iff.2 fun hmax w => ?_
  rw [boot_pid, pidAtReset_get]
  exact .inr ⟨fle32_fneg_of_nonneg hmax, hmax⟩

/-- Settles O41: the state after reset is a boot state. -/
theorem integralBoundedAtReset : Obligations.IntegralBoundedAtReset := ⟨integralBounded_boot _ _ _, integralBounded_boot⟩

/-- Settles O40: a controller step clamps what it writes to the configured bound, and a reset clears the integral. -/
theorem integralBoundedKept : Obligations.IntegralBoundedKept := by
  unfold Obligations.IntegralBoundedKept
  intro s t
  exact step_invariant integralBounded_boot (fun _ hu => hu) (fun _ _ hu => hu)
    (fun u p hu => by rwa [IntegralBounded, dropRequest_pid, dropRequest_cfg]) fun i u v hx hu => hx.integralBounded hu

/-! The heading (R31, R183). -/

/-- What R31 says of a heading. -/
def IsHeading (x : F32) : Prop := isNaN32 x = true ∨ (fgt32 x (fneg32 pi32) = true ∧ fle32 x pi32 = true)

theorem headingInRange_iff {s : State} : HeadingInRange s ↔ IsHeading s.pose.theta := Iff.rfl

theorem isHeading_zero : IsHeading zero32 := .inr (by decide)

/-- R183: whatever the normalisation ends with is a heading. -/
theorem isHeading_of_normalize {t r : F32} (h : normalize b32 normalizeFuel t = some r) : IsHeading r := by
  cases hnan : isNaN32 t with
  | true =>
    cases (normalize_nan hnan).symm.trans h
    exact .inl hnan
  | false =>
    rcases Nat.lt_or_ge 0x4D000000 (mag32 t) with hbig | hsmall
    · cases (normalize_stuck hnan hbig).symm.trans h
    · obtain ⟨u, hu, hunan, hlow, hhigh⟩ := normalize_ends hnan hsmall
      cases hu.symm.trans h
      exact .inr ⟨fgt32_iff.2 ⟨hunan, by decide, by rwa [key32_fneg]⟩, fle32_iff.2 ⟨hunan, by decide, hhigh⟩⟩

/-- R181: the straight branch keeps the heading, the arc branch normalises it. -/
theorem isHeading_odoUpdate {s u : State} {p0 p1 dt : F32} (h : s.odoUpdate p0 p1 dt = some u) (hs : IsHeading s.pose.theta) :
    IsHeading u.pose.theta := by
  obtain ⟨th1, hth1, rfl⟩ := odoUpdate_some h
  rw [headingAfter_b32] at hth1
  rw [poseAfter_theta]
  split at hth1
  · cases hth1
    exact hs
  · exact isHeading_of_normalize hth1

theorem Effect.headingInRange {i : Instr} {s t : State} (h : Effect i s t) (hs : HeadingInRange s) : HeadingInRange t := by
  cases h with
  | odoTicked hu | odoUpdated hu => exact (isHeading_odoUpdate hu hs :)
  | odoReset => exact headingInRange_iff.2 isHeading_zero
  | dropped | answered | hung | captured | overflowed | ticked | setpoint | setpoints | filtered | controlled => exact hs

theorem headingInRange_boot (read : Nat → U32) (n k : Nat) : HeadingInRange (State.boot read n k) :=
  headingInRange_iff.2 isHeading_zero

/-- Settles O45: the state after reset is a boot state. -/
theorem headingInRangeAtReset : Obligations.HeadingInRangeAtReset := headingInRange_boot _ _ _

/-- Settles O44: an update keeps the heading or normalises it, and `RSTODO` and a reset zero it. -/
theorem headingInRangeKept : Obligations.HeadingInRangeKept := by
  unfold Obligations.HeadingInRangeKept
  intro s t
  exact step_invariant headingInRange_boot (fun _ hu => hu) (fun _ _ hu => hu)
    (fun u p hu => by rwa [HeadingInRange, dropRequest_pose]) fun i u v hx hu => hx.headingInRange hu

end Sys2Proof.Machine
end

section
/-! PROOF. The hardware reset from any state (R240, R241), and the operations that write what they are given: `SETVEL` as `KININV` and two
`SETSP` (R91), the writes that repeat without effect (R65), and the straight-line update (R188 a). -/

namespace Sys2Proof.Machine

/-- Settles O11: each register is loaded from the word of its index, the codec being the identity. -/
theorem configurationLoad : Obligations.ConfigurationLoad := by
  unfold Obligations.ConfigurationLoad
  intro read n k
  simp only [boot_cfg, loadCfg, dec32_eq]

/-- Settles O12: the state a reset leaves is a boot state, read element by element. -/
theorem hardwareReset : Obligations.HardwareReset := by
  unfold Obligations.HardwareReset
  intro s h
  refine ⟨_, step_reset h, ?_⟩
  rw [State.hardwareReset, State.reset]
  refine ⟨rfl, rfl, rfl, rfl, rfl, fun w => ?wheels, ?geo, ?cfg, rfl, rfl, rfl, rfl, rfl, rfl, rfl⟩
  case wheels =>
    rw [boot_kf, boot_pid, boot_cfg, kalmanAtReset_get, pidAtReset_get]
    exact ⟨rfl, rfl, rfl, rfl, rfl, rfl, rfl, rfl, rfl, rfl, rfl⟩
  case geo => rw [boot_geo, boot_cfg, geometry_ofCfg]
  case cfg => exact configurationLoad _ _ _

/-- Settles O50: both run the same two setpoint writes, from the state with the answer of `KININV` on the output. -/
theorem setvelComposition : Obligations.SetvelComposition := by
  unfold Obligations.SetvelComposition
  intro v om s t h
  cases (exec_setvel s v om).symm.trans h
  refine ⟨_, _, _, exec_kininv s v om, reply_response _ _, ?_, rfl⟩
  exact (runOps_cons (exec_setsp_wheel .left _ _)).trans (runOps_cons (exec_setsp_wheel .right _ _))

section idempotent

variable (s : State)

theorem setSetpoint_idem (w : Wheel) (x : F32) : (s.setSetpoint w x).setSetpoint w x = s.setSetpoint w x := by
  rw [State.setSetpoint, setSetpoint_pid, bank_get_set, bank_set_set]
  rfl

theorem exec_setsp_idem {wid : U8} {x : U32} {t : State} (h : exec (.setsp wid x) s = .next t) :
    exec (.setsp wid x) t = .next t := by
  obtain ⟨w, rfl⟩ | hnone := wheelOf_cases wid
  · cases (exec_setsp_wheel w s x).symm.trans h
    rw [exec_setsp_wheel]
    exact (congrArg (fun u : State => Host.Outcome.next (u.reply (Response.bare .ok))) (setSetpoint_idem s w x) :)
  · cases (exec_setsp_out_of_range hnone s x).symm.trans h
    exact exec_setsp_out_of_range hnone _ x

theorem exec_setvel_idem {v om : U32} {t : State} (h : exec (.setvel v om) s = .next t) : exec (.setvel v om) t = .next t := by
  rw [exec_setvel, setSetpoint_left_right] at h
  cases h
  rw [exec_setvel, setSetpoint_left_right]
  rfl

theorem exec_rstodo_idem {t : State} (h : exec .rstodo s = .next t) : exec .rstodo t = .next t := by
  rw [exec_rstodo] at h
  cases h
  exact exec_rstodo _

end idempotent

/-- Settles O51: each of the three writes leaves what it would write again. -/
theorem idempotentWrites : Obligations.IdempotentWrites := by
  unfold Obligations.IdempotentWrites
  intro i s t hi h
  obtain ⟨wid, x, rfl⟩ | ⟨v, om, rfl⟩ | rfl := hi
  · exact exec_setsp_idem s h
  · exact exec_setvel_idem s h
  · exact exec_rstodo_idem s h

theorem fadd32_one_one : fadd32 one32 one32 = two32 := by unfold fadd32; decide

theorem fsub32_one_one : fsub32 one32 one32 = zero32 := by unfold fsub32; decide

theorem fdiv32_two_two : fdiv32 two32 two32 = one32 := by unfold fdiv32; decide +kernel

theorem fmul32_one_one : fmul32 one32 one32 = one32 := by unfold fmul32; decide +kernel

theorem fmul32_one_zero : fmul32 one32 zero32 = zero32 := by unfold fmul32; decide

section straight

variable {o : Odometry F32} {g : Geometry F32} {p0 p1 : F32} (hbase : o.baselined = true)
  (hleft : fsub32 (fmul32 p0 g.r) o.lastLin.left = one32) (hright : fsub32 (fmul32 p1 g.r) o.lastLin.right = one32)
include hbase hleft hright

theorem travel_one : travel b32 o (linearDistances b32 g p0 p1) = one32 := by
  rw [travel_b32, if_pos hbase, if_pos hbase, hleft, hright, fadd32_one_one, fdiv32_two_two]

theorem headingChange_equal_deltas (hw : positiveWord g.w = true) : headingChange b32 g o (linearDistances b32 g p0 p1) = zero32 := by
  rw [headingChange_b32, if_pos hbase, if_pos hbase, hleft, hright, fsub32_one_one, fdiv32_zero_of_positive hw]

end straight

/-- Settles O53: one metre along the heading zero, by T0 (R10). -/
theorem straightLine : Obligations.StraightLine := by
  unfold Obligations.StraightLine
  intro p0 p1 dt s hw heps hbase htheta hleft hright
  have hstraight : flt32 (fabs32 zero32) s.cfg.odoEps = true := flt32_zero_of_positive heps
  have hchange := headingChange_equal_deltas hbase hleft hright hw
  have hheading : headingAfter b32 normalizeFuel s.cfg.odoEps s.pose.theta
      (headingChange b32 s.geo s.odo (linearDistances b32 s.geo p0 p1)) = some zero32 := by
    rw [hchange, htheta]
    exact headingAfter_straight hstraight
  refine ⟨_, exec_odoupd_some (odoUpdate_of_heading hheading), ?_⟩
  rw [reply_pose, hchange, travel_one hbase hleft hright, poseAfter_b32, travelHeading_straight hstraight, htheta, fcos32_zero,
    fsin32_zero, fmul32_one_one, fmul32_one_zero]
  exact ⟨rfl, rfl, rfl, rfl⟩

end Sys2Proof.Machine
end

section
/-! PROOF. The rules under `REAL` (R9): the kinematic maps are inverse to each other (R168), the filter converges under a constant
measurement (R144), and the normalisation ends in the interval (R183). -/

namespace Sys2Proof.Machine

/-! Kinematics (R165, R166, R168). -/

section kinematics

variable {g : Geometry ℝ}

theorem kinInverse_real (hr : 0 < g.r) (v om : ℝ) :
    kinInverse real g v om = ((v - g.w / 2 * om) / g.r, (v + g.w / 2 * om) / g.r) := by
  simp only [kinInverse, real_fadd, real_fsub, real_fmul, real_two, real_fdiv _ hr.ne', real_fdiv _ (two_ne_zero (α := ℝ))]

theorem kinForward_real (hw : 0 < g.w) (l r : ℝ) :
    kinForward real g l r = ((l * g.r + r * g.r) / 2, (r * g.r - l * g.r) / g.w) := by
  simp only [kinForward, real_fadd, real_fsub, real_fmul, real_two, real_fdiv _ hw.ne', real_fdiv _ (two_ne_zero (α := ℝ))]

end kinematics

/-- Settles O55: both compositions are the identity of the field of real numbers. -/
theorem kinematicsRoundTrip : Obligations.KinematicsRoundTrip := by
  unfold Obligations.KinematicsRoundTrip
  intro g hr hw
  refine ⟨fun v om => ?_, fun l r => ?_⟩
  · rw [kinForward_real hw, kinInverse_real hr, Prod.mk.injEq]
    constructor <;> field_simp <;> ring
  · rw [kinInverse_real hr, kinForward_real hw, Prod.mk.injEq]
    constructor <;> field_simp <;> ring

/-! The filter (R141, R144). -/

/-- R141 under `REAL`, for a positive `P + R`: the new variance and the distance of the estimate from the measurement. -/
theorem kalmanUpdate_real {k : Kalman ℝ} (h : k.p + k.r ≠ 0) (m : ℝ) :
    (kalmanUpdate real k m).p = k.r / (k.p + k.r) * k.p + k.q ∧
      (kalmanUpdate real k m).lastEstimate - m = k.r / (k.p + k.r) * (k.lastEstimate - m) := by
  have hgain : 1 - k.p / (k.p + k.r) = k.r / (k.p + k.r) := by
    field_simp
    ring
  simp only [kalmanGain, real_fadd, real_fsub, real_fmul, real_one, real_fdiv _ h]
  rw [← hgain]
  exact ⟨rfl, by ring⟩

/-- The fixed point of the variance (R144). -/
noncomputable def steadyVariance (r q : ℝ) : ℝ := (q + Real.sqrt (q ^ 2 + 4 * q * r)) / 2

theorem steadyVariance_fixed {r q : ℝ} (hr : 0 < r) (hq : 0 < q) :
    0 < steadyVariance r q ∧ steadyVariance r q ^ 2 = q * steadyVariance r q + q * r := by
  have hsqrt := Real.sq_sqrt (show 0 ≤ q ^ 2 + 4 * q * r by positivity)
  have hnonneg := Real.sqrt_nonneg (q ^ 2 + 4 * q * r)
  unfold steadyVariance
  refine ⟨by positivity, ?_⟩
  linear_combination hsqrt / 4

/-- A filter that has taken a step (R141): its variance is at least `Q`. -/
structure Running (k : Kalman ℝ) : Prop where
  r_pos : 0 < k.r
  q_pos : 0 < k.q
  q_le : k.q ≤ k.p

/-- By how much at least a step brings a running filter nearer to its limits. -/
noncomputable def contraction (k : Kalman ℝ) : ℝ := k.r / (k.q + k.r)

theorem kalmanUpdate_running {k : Kalman ℝ} (hr : 0 < k.r) (hq : 0 < k.q) (hp : 0 ≤ k.p) (m : ℝ) : Running (kalmanUpdate real k m) where
  r_pos := hr
  q_pos := hq
  q_le := by
    rw [(kalmanUpdate_real (by positivity) m).1, kalmanUpdate_q]
    exact le_add_of_nonneg_left (by positivity)

section running

variable {k : Kalman ℝ} (h : Running k) (m : ℝ)
include h

theorem Running.p_pos : 0 < k.p := h.q_pos.trans_le h.q_le

theorem Running.update : Running (kalmanUpdate real k m) := kalmanUpdate_running h.r_pos h.q_pos h.p_pos.le m

theorem Running.contraction_nonneg : 0 ≤ contraction k := by
  have hr := h.r_pos
  have hq := h.q_pos
  rw [contraction]
  positivity

theorem Running.contraction_lt_one : contraction k < 1 := by
  have hr := h.r_pos
  have hq := h.q_pos
  rw [contraction, div_lt_one (by positivity)]
  exact lt_add_of_pos_left _ hq

theorem Running.factor_le : k.r / (k.p + k.r) ≤ contraction k := by
  have hr := h.r_pos
  have hq := h.q_pos
  rw [contraction]
  gcongr
  exact h.q_le

/-- R144: a step shrinks the distance of the estimate from the measurement. -/
theorem Running.estimate_contracts : |(kalmanUpdate real k m).lastEstimate - m| ≤ contraction k * |k.lastEstimate - m| := by
  have hr := h.r_pos
  have hp := h.p_pos
  rw [(kalmanUpdate_real (by positivity) m).2, abs_mul, abs_of_pos (by positivity)]
  gcongr
  exact h.factor_le

/-- R144: a step shrinks the distance of the variance from the fixed point; the two factors are those of either variance. -/
theorem Running.variance_contracts :
    |(kalmanUpdate real k m).p - steadyVariance k.r k.q| ≤ contraction k * |k.p - steadyVariance k.r k.q| := by
  have hr := h.r_pos
  have hp := h.p_pos
  obtain ⟨hpos, hfixed⟩ := steadyVariance_fixed hr h.q_pos
  generalize steadyVariance k.r k.q = top at *
  have hstep : (kalmanUpdate real k m).p - top = k.r / (k.p + k.r) * (k.r / (top + k.r)) * (k.p - top) := by
    rw [(kalmanUpdate_real (by positivity) m).1]
    field_simp
    linear_combination (-(k.p + k.r)) * hfixed
  have hone : k.r / (top + k.r) ≤ 1 := (div_le_one (by positivity)).2 (by linarith)
  rw [hstep, abs_mul, abs_of_pos (by positivity)]
  gcongr
  calc k.r / (k.p + k.r) * (k.r / (top + k.r)) ≤ k.r / (k.p + k.r) * 1 := by gcongr
    _ = k.r / (k.p + k.r) := mul_one _
    _ ≤ contraction k := h.factor_le

/-- Running is kept by every step, and `R` and `Q` with it. -/
theorem Running.iterate (n : Nat) :
    Running ((fun x => kalmanUpdate real x m)^[n] k) ∧ ((fun x => kalmanUpdate real x m)^[n] k).r = k.r ∧
      ((fun x => kalmanUpdate real x m)^[n] k).q = k.q := by
  induction n with
  | zero => exact ⟨h, rfl, rfl⟩
  | succ n ih =>
    obtain ⟨hn, hr, hq⟩ := ih
    rw [Function.iterate_succ_apply']
    exact ⟨hn.update m, hr, hq⟩

end running

/-- What shrinks at every step by a factor below 1 tends to its limit. -/
theorem tendsto_of_contracts {u : Nat → ℝ} {l c : ℝ} (h0 : 0 ≤ c) (h1 : c < 1) (hu : ∀ n, |u (n + 1) - l| ≤ c * |u n - l|) :
    Filter.Tendsto u Filter.atTop (nhds l) := by
  have hbound (n : Nat) : |u n - l| ≤ c ^ n * |u 0 - l| := le_geom (u := fun n => |u n - l|) h0 n fun k _ => hu k
  have hzero : Filter.Tendsto (fun n => c ^ n * |u 0 - l|) Filter.atTop (nhds 0) := by
    simpa using (tendsto_pow_atTop_nhds_zero_of_lt_one h0 h1).mul_const |u 0 - l|
  exact tendsto_iff_norm_sub_tendsto_zero.2 (squeeze_zero (fun n => norm_nonneg _) hbound hzero)

/-- R144 for a filter that has taken a step. -/
theorem Running.converges {k : Kalman ℝ} (h : Running k) (m : ℝ) :
    Filter.Tendsto (fun n : Nat => ((fun x => kalmanUpdate real x m)^[n] k).lastEstimate) Filter.atTop (nhds m) ∧
    Filter.Tendsto (fun n : Nat => ((fun x => kalmanUpdate real x m)^[n] k).p) Filter.atTop (nhds (steadyVariance k.r k.q)) := by
  constructor <;> refine tendsto_of_contracts h.contraction_nonneg h.contraction_lt_one fun n => ?_ <;>
    obtain ⟨hn, hr, hq⟩ := h.iterate m n <;> rw [Function.iterate_succ_apply']
  · have hstep := hn.estimate_contracts m
    rwa [contraction, hr, hq] at hstep
  · have hstep := hn.variance_contracts m
    rwa [contraction, hr, hq] at hstep

/-- Settles O56: after the first step the filter is running, and both distances shrink by a fixed factor at every step. -/
theorem kalmanConverges : Obligations.KalmanConverges := by
  unfold Obligations.KalmanConverges
  intro k m hr hq hp
  obtain ⟨hestimate, hvariance⟩ := (kalmanUpdate_running hr hq hp m).converges m
  exact ⟨(Filter.tendsto_add_atTop_iff_nat 1).1 hestimate, (Filter.tendsto_add_atTop_iff_nat 1).1 hvariance⟩

/-! The heading (R183). -/

section turns

variable {n : Nat} {t : ℝ}

/-- The first loop: `n` turns bring a heading of at most `pi + 2 pi n` to at most `pi`, and a turn is taken only from above `pi`. -/
theorem normalizeDown_real (h : t ≤ Real.pi + 2 * Real.pi * n) :
    ∃ u, normalizeDown real n t = some u ∧ u ≤ Real.pi ∧ (u = t ∨ -Real.pi < u) ∧ ∃ z : ℤ, u = t + 2 * Real.pi * z := by
  induction n generalizing t with
  | zero =>
    have hdone : t ≤ Real.pi := by simpa using h
    exact ⟨t, normalizeDown_done (by simpa using hdone), hdone, .inl rfl, 0, by simp⟩
  | succ n ih =>
    have hpi := Real.pi_pos
    rcases le_or_gt t Real.pi with hdone | hgt
    · exact ⟨t, normalizeDown_done (by simpa using hdone), hdone, .inl rfl, 0, by simp⟩
    · obtain ⟨u, hu, hle, hlow, z, hz⟩ := ih (t := t - 2 * Real.pi) (by push_cast at h; linarith)
      have hturn := normalizeDown_turn (N := real) (n := n) (t := t) (by simpa using hgt) (by simpa using hpi)
      refine ⟨u, hturn.trans hu, hle, .inr ?_, z - 1, ?_⟩
      · rcases hlow with rfl | hlow
        · linarith
        · exact hlow
      · rw [hz]
        push_cast
        ring

/-- The second loop: `n` turns bring a heading above `-pi - 2 pi n` above `-pi`, and a turn from `-pi` or below stays within `pi`. -/
theorem normalizeUp_real (h : -Real.pi - 2 * Real.pi * n < t) (hle : t ≤ Real.pi) :
    ∃ r, normalizeUp real n t = some r ∧ -Real.pi < r ∧ r ≤ Real.pi ∧ ∃ z : ℤ, r = t + 2 * Real.pi * z := by
  induction n generalizing t with
  | zero =>
    have hdone : -Real.pi < t := by simpa using h
    exact ⟨t, normalizeUp_done (by simpa using hdone), hdone, hle, 0, by simp⟩
  | succ n ih =>
    have hpi := Real.pi_pos
    rcases lt_or_ge (-Real.pi) t with hdone | hlow
    · exact ⟨t, normalizeUp_done (by simpa using hdone), hdone, hle, 0, by simp⟩
    · obtain ⟨r, hr, hlo, hhi, z, hz⟩ := ih (t := t + 2 * Real.pi) (by push_cast at h; linarith) (by linarith)
      have hturn := normalizeUp_turn (N := real) (n := n) (t := t) (by simpa using hlow) (by simpa using hpi)
      refine ⟨r, hturn.trans hr, hlo, hhi, z + 1, ?_⟩
      rw [hz]
      push_cast
      ring

end turns

/-- Settles O57: the first loop leaves the heading or lands in the interval, and the second ends in it. -/
theorem normalizeReal : Obligations.NormalizeReal := by
  unfold Obligations.NormalizeReal
  intro n t ht
  have hpi := Real.pi_pos
  obtain ⟨hlow, hhigh⟩ := abs_le.1 ht
  obtain ⟨u, hu, hule, hcase, z, hz⟩ := normalizeDown_real (n := n + 1) (t := t) (by push_cast; linarith)
  have hfloor : -Real.pi - 2 * Real.pi * (n + 1 : Nat) < u := by
    have hturns : 0 ≤ 2 * Real.pi * n := by positivity
    push_cast
    rcases hcase with rfl | hcase <;> linarith
  obtain ⟨r, hr, hlo, hhi, z', hz'⟩ := normalizeUp_real hfloor hule
  refine ⟨r, (normalize_of_down hu).trans hr, hlo, hhi, z + z', ?_⟩
  rw [hz', hz]
  push_cast
  ring

end Sys2Proof.Machine
end

section
/-! PROOF. The comparisons by value (R8): the keys order finite words as the units do, and the units as the values. -/

namespace Sys2Proof.Machine

theorem value32_lt_iff {x y : F32} : value32 x < value32 y ↔ key32 x < key32 y := by
  rw [value32, value32, div_lt_div_iff_of_pos_right (by positivity), Int.cast_lt, units32_lt_iff]

theorem value32_le_iff {x y : F32} : value32 x ≤ value32 y ↔ key32 x ≤ key32 y := by
  rw [value32, value32, div_le_div_iff_of_pos_right (by positivity), Int.cast_le, units32_le_iff]

section finite

variable {x y : F32} (hx : isFinite32 x = true) (hy : isFinite32 y = true)
include hx hy

theorem flt32_iff_value : flt32 x y = true ↔ value32 x < value32 y := by
  simp [flt32_iff, isNaN32_of_finite hx, isNaN32_of_finite hy, value32_lt_iff]

theorem fgt32_iff_value : fgt32 x y = true ↔ value32 x > value32 y := by
  simp [fgt32_iff, isNaN32_of_finite hx, isNaN32_of_finite hy, value32_lt_iff]

theorem fle32_iff_value : fle32 x y = true ↔ value32 x ≤ value32 y := by
  simp [fle32_iff, isNaN32_of_finite hx, isNaN32_of_finite hy, value32_le_iff]

end finite

/-- R8: the comparisons are quiet. -/
theorem comparisons_of_nan {x y : F32} (h : isNaN32 x = true ∨ isNaN32 y = true) :
    flt32 x y = false ∧ fgt32 x y = false ∧ fle32 x y = false := by
  rcases h with h | h <;> simp [flt32, fgt32, fle32, h]

/-- Settles O59: on finite words each comparison is the order of the keys, which is the order of the values. -/
theorem comparisonsAreOrder : Obligations.ComparisonsAreOrder := by
  unfold Obligations.ComparisonsAreOrder
  exact fun x y => ⟨fun hx hy => ⟨flt32_iff_value hx hy, fgt32_iff_value hx hy, fle32_iff_value hx hy⟩, comparisons_of_nan⟩

end Sys2Proof.Machine
end
